-- ==== Sys2Proof/Word.lean ====
section
/-!
DEFINITION. The words of DAC96: bytes, 32-bit limbs and bus words, 128-bit operand images.
00_scope.md R6 (limbs), 10_state.md R20 and R21 (registers), 30_encoding.md R76 (command words).
-/
namespace Sys2Proof

/-- One byte of the register window (20_memory.md R52). -/
abbrev Byte := BitVec 8

/-- A 32-bit bus word, command word or limb (00_scope.md R6, 30_encoding.md R70). -/
abbrev Word := BitVec 32

/-- A 128-bit register image in the Packed Value layout (10_state.md R21). -/
abbrev PackedBits := BitVec 128

/-- A limb array, least significant limb first (00_scope.md R6, 41_limb_units.md R120). -/
abbrev Limbs := List Word

end Sys2Proof
end

