-- ==== Sys2Proof/Config.lean ====
section
/-!
DEFINITION. What an implementation fixes and what the spec leaves open (00_scope.md R6 to R10).
An `opaque` constant here has no body: no proof can see its value, so a claim holds for every value.
-/
namespace Sys2Proof.Config

/-- `MAXM = 2^96 - 1`, the largest mantissa (00_scope.md R7). -/
def maxMant : Nat := 2 ^ 96 - 1

/-- `MAX_SCALE = 28` (00_scope.md R8). -/
def maxScale : Nat := 28

/-- Length in limbs of the wide datapath, 192 bits (00_scope.md R9). -/
def wideLimbs : Nat := 6

/-- The half-way rules a reduction can use (00_scope.md R15). -/
inductive TieRule where
  /-- `rne`, half to even. -/
  | halfEven
  /-- `rhaz`, half away from zero. -/
  | halfAway
  /-- `rhtz`, half toward zero. -/
  | halfTowardZero
  deriving DecidableEq, Repr

/-- `MUL_TIE`, whose value for this hardware is `HALF_AWAY` (00_scope.md R10, 42_arithmetic.md R158).
UNVERIFIED against the upstream software, which may round half to even: unsafe there, notes/assumptions/4.md. -/
def mulTie : TieRule := .halfAway

/-- Open parameter: `BASE / 64` (00_scope.md R10, 20_memory.md R50). Free value, safe: notes/assumptions/3.md. -/
opaque baseIndex : Nat

/-- `BASE`, a multiple of 64 (20_memory.md R50). -/
def base : Nat := 64 * baseIndex

/-- Open parameter `LAT`: how many slots of the host pass between the issue of this command word on these values of
`A`, `B` and `R` and its completion; any finite number, zero included (00_scope.md R10, 70_reset_and_hazards.md R258).
Free value. R258 lets it depend on the operands without saying which registers those are for each command: that all
three are arguments, `R` being the operand of MOVRA and MOVRB, is a DESIGN CHOICE, safe, and so is counting host slots
for cycles: notes/assumptions/2.md. -/
opaque lat : Word → PackedBits → PackedBits → PackedBits → Nat

/-- An Unpacked Working View: sign, scale and three limbs (10_state.md R37). R37 gives the scale no width: 8 bits,
the width of a Packed Value's scale field, is a DESIGN CHOICE, safe: notes/assumptions/5.md. -/
structure WorkingView where
  sign : Bool
  scale : BitVec 8
  lo : Word
  mid : Word
  hi : Word
  deriving DecidableEq, Repr, Inhabited

/-- One extended buffer: at least 6 limbs (10_state.md R37, 00_scope.md R9). The spec allows wider ones without
bounding them (90_conflicts.md C2): any length from 6 is a DESIGN CHOICE, safe: notes/assumptions/5.md. -/
structure ExtendedBuffer where
  /-- The least significant limbs, which every extended buffer has. -/
  low : Vector Word wideLimbs
  /-- The limbs of a wider buffer. -/
  wider : Limbs
  deriving DecidableEq, Repr, Inhabited

/-- The working buffers: a view per operand and the extended buffers (10_state.md R37). The spec does not say how many
extended buffers there are: any number is a DESIGN CHOICE, safe: notes/assumptions/5.md. -/
structure WorkingBuffers where
  viewA : WorkingView
  viewB : WorkingView
  extended : List ExtendedBuffer
  deriving DecidableEq, Repr, Inhabited

/-- The working buffers at a draw, their content unspecified (10_state.md R37, 70_reset_and_hazards.md R250).
Free value in content, number and length of the extended buffers, safe: notes/assumptions/5.md. -/
opaque freeBuffers : Nat → WorkingBuffers

end Sys2Proof.Config
end

