-- ==== Sys2Proof/Syntax.lean ====
section
/-!
DEFINITION. The commands of DAC96 as data: one constructor per row of spec/opcode_table.json,
the rounding modes, and the assembler line of each command (30_encoding.md R72, R74, R78).
-/
namespace Sys2Proof

/-- The seven rounding strategies, in the order of the RM codes (30_encoding.md R74). -/
inductive RoundMode where
  /-- RM 0, half to even. -/
  | rne
  /-- RM 1, half away from zero. -/
  | rhaz
  /-- RM 2, half toward zero. -/
  | rhtz
  /-- RM 3, toward zero. -/
  | rtz
  /-- RM 4, away from zero. -/
  | raz
  /-- RM 5, toward negative infinity. -/
  | rfloor
  /-- RM 6, toward positive infinity. -/
  | rceil
  deriving DecidableEq, Repr

/-- The RM field of a mode (30_encoding.md R74). -/
def RoundMode.code : RoundMode → Nat
  | .rne => 0
  | .rhaz => 1
  | .rhtz => 2
  | .rtz => 3
  | .raz => 4
  | .rfloor => 5
  | .rceil => 6

/-- The mnemonic suffix of a mode (30_encoding.md R74). -/
def RoundMode.suffix : RoundMode → String
  | .rne => "RNE"
  | .rhaz => "RHAZ"
  | .rhtz => "RHTZ"
  | .rtz => "RTZ"
  | .raz => "RAZ"
  | .rfloor => "RFLOOR"
  | .rceil => "RCEIL"

/-- The commands (30_encoding.md R72). An immediate is an unsigned integer 0..255 (R75), so a `Nat`
whose bound is checked by `Instr.WellFormed`: DESIGN CHOICE, safe, notes/assumptions/16.md. -/
inductive Instr where
  | add
  | sub
  | mul
  | div
  | rem
  | cmp
  | rescale (target : Nat)
  | roundRne (dp : Nat)
  | roundRhaz (dp : Nat)
  | roundRhtz (dp : Nat)
  | roundRtz (dp : Nat)
  | roundRaz (dp : Nat)
  | roundRfloor (dp : Nat)
  | roundRceil (dp : Nat)
  | norm
  | trunc
  | fract
  | floor
  | ceil
  | neg
  | abs
  | setscale (scale : Nat)
  | movra
  | movrb
  deriving DecidableEq, Repr

/-- ROUND with a given mode field (30_encoding.md R74). -/
def Instr.round : RoundMode → Nat → Instr
  | .rne, dp => .roundRne dp
  | .rhaz, dp => .roundRhaz dp
  | .rhtz, dp => .roundRhtz dp
  | .rtz, dp => .roundRtz dp
  | .raz, dp => .roundRaz dp
  | .rfloor, dp => .roundRfloor dp
  | .rceil, dp => .roundRceil dp

/-- The rounding mode of a ROUND command (30_encoding.md R74). -/
def Instr.mode? : Instr → Option RoundMode
  | .roundRne _ => some .rne
  | .roundRhaz _ => some .rhaz
  | .roundRhtz _ => some .rhtz
  | .roundRtz _ => some .rtz
  | .roundRaz _ => some .raz
  | .roundRfloor _ => some .rfloor
  | .roundRceil _ => some .rceil
  | .add | .sub | .mul | .div | .rem | .cmp | .rescale _ | .norm | .trunc | .fract | .floor | .ceil
  | .neg | .abs | .setscale _ | .movra | .movrb => none

/-- The OPC field (30_encoding.md R72). -/
def Instr.opcode : Instr → Nat
  | .add => 0x01
  | .sub => 0x02
  | .mul => 0x03
  | .div => 0x04
  | .rem => 0x05
  | .cmp => 0x06
  | .rescale _ => 0x07
  | .roundRne _ | .roundRhaz _ | .roundRhtz _ | .roundRtz _ | .roundRaz _ | .roundRfloor _
  | .roundRceil _ => 0x08
  | .norm => 0x09
  | .trunc => 0x0A
  | .fract => 0x0B
  | .floor => 0x0C
  | .ceil => 0x0D
  | .neg => 0x0E
  | .abs => 0x0F
  | .setscale _ => 0x10
  | .movra => 0x11
  | .movrb => 0x12

/-- The immediate of the commands that have one (30_encoding.md R75). -/
def Instr.imm? : Instr → Option Nat
  | .rescale t => some t
  | .roundRne dp | .roundRhaz dp | .roundRhtz dp | .roundRtz dp | .roundRaz dp | .roundRfloor dp
  | .roundRceil dp => some dp
  | .setscale t => some t
  | .add | .sub | .mul | .div | .rem | .cmp | .norm | .trunc | .fract | .floor | .ceil | .neg | .abs
  | .movra | .movrb => none

/-- `reads_A`: every command but MOVRA and MOVRB (40_value_ops.md R100, 30_encoding.md R72). -/
def Instr.readsA : Instr → Bool
  | .movra | .movrb => false
  | .add | .sub | .mul | .div | .rem | .cmp | .rescale _ | .roundRne _ | .roundRhaz _ | .roundRhtz _
  | .roundRtz _ | .roundRaz _ | .roundRfloor _ | .roundRceil _ | .norm | .trunc | .fract | .floor | .ceil
  | .neg | .abs | .setscale _ => true

/-- `reads_B`: ADD, SUB, MUL, DIV, REM, CMP (40_value_ops.md R100, 30_encoding.md R72). -/
def Instr.readsB : Instr → Bool
  | .add | .sub | .mul | .div | .rem | .cmp => true
  | .rescale _ | .roundRne _ | .roundRhaz _ | .roundRhtz _ | .roundRtz _ | .roundRaz _ | .roundRfloor _
  | .roundRceil _ | .norm | .trunc | .fract | .floor | .ceil | .neg | .abs | .setscale _ | .movra
  | .movrb => false

/-- The commands that write `R` when they succeed: all but CMP, MOVRA and MOVRB (30_encoding.md R72). -/
def Instr.writesR : Instr → Bool
  | .cmp | .movra | .movrb => false
  | .add | .sub | .mul | .div | .rem | .rescale _ | .roundRne _ | .roundRhaz _ | .roundRhtz _
  | .roundRtz _ | .roundRaz _ | .roundRfloor _ | .roundRceil _ | .norm | .trunc | .fract | .floor | .ceil
  | .neg | .abs | .setscale _ => true

/-- The mnemonic, as spec/opcode_table.json spells it (30_encoding.md R72, R78). -/
def Instr.mnemonic : Instr → String
  | .add => "ADD"
  | .sub => "SUB"
  | .mul => "MUL"
  | .div => "DIV"
  | .rem => "REM"
  | .cmp => "CMP"
  | .rescale _ => "RESCALE"
  | .roundRne _ => "ROUND.RNE"
  | .roundRhaz _ => "ROUND.RHAZ"
  | .roundRhtz _ => "ROUND.RHTZ"
  | .roundRtz _ => "ROUND.RTZ"
  | .roundRaz _ => "ROUND.RAZ"
  | .roundRfloor _ => "ROUND.RFLOOR"
  | .roundRceil _ => "ROUND.RCEIL"
  | .norm => "NORM"
  | .trunc => "TRUNC"
  | .fract => "FRACT"
  | .floor => "FLOOR"
  | .ceil => "CEIL"
  | .neg => "NEG"
  | .abs => "ABS"
  | .setscale _ => "SETSCALE"
  | .movra => "MOVRA"
  | .movrb => "MOVRB"

/-- The assembler line of a command: mnemonic, then `#` and the decimal immediate where there is one
(30_encoding.md R78). -/
def Instr.line (i : Instr) : String :=
  match i.imm? with
  | some n => i.mnemonic ++ " #" ++ toString n
  | none => i.mnemonic

end Sys2Proof
end

