-- ==== Sys2Proof/Machine/State.lean ====
section
/-!
DEFINITION. The state of DAC96 as plain data, its reset value, and the reasons a step can stop
(10_state.md R20 to R38, 60_exceptions.md R221 and R226, 70_reset_and_hazards.md R250).
-/
namespace Sys2Proof.Machine

/-- The error codes, the only values `STATUS.ECODE` takes (60_exceptions.md R221). -/
inductive ErrorCode where
  /-- 0, the command succeeded. -/
  | none
  /-- 1, the rounded magnitude does not fit in 96 bits even at scale 0. -/
  | overflow
  /-- 2, `B.mant = 0` in DIV or REM. -/
  | divByZero
  /-- 3, `A` is read and not valid. -/
  | invalidA
  /-- 4, `B` is read and not valid. -/
  | invalidB
  /-- 5, the command word is illegal. -/
  | illegalCommand
  /-- 6, the immediate of SETSCALE is above 28. -/
  | scaleOutOfRange
  deriving DecidableEq, Repr

/-- The values of `STATUS.CMPRES` (10_state.md R31). -/
inductive CmpResult where
  /-- `00`, none. -/
  | none
  /-- `01`, A < B. -/
  | less
  /-- `10`, A = B. -/
  | equal
  /-- `11`, A > B. -/
  | greater
  deriving DecidableEq, Repr

/-- The `STATUS` register by its fields (10_state.md R31). Its reserved bits 31:10 hold nothing and read 0
(`Status.word`). DESIGN CHOICE, safe: notes/assumptions/7.md. -/
structure Status where
  /-- Bit 0, a command is executing. -/
  busy : Bool
  /-- Bit 1, the last issued command has completed. -/
  done : Bool
  /-- Bit 2, the last completed command ended in an error. -/
  err : Bool
  /-- Bit 3, sticky protocol violation (10_state.md R32). -/
  pv : Bool
  /-- Bits 7:4, the error code of the last completed command. -/
  ecode : ErrorCode
  /-- Bits 9:8, the result of the last CMP. -/
  cmpres : CmpResult
  deriving DecidableEq, Repr

/-- The command in flight: the word and operands sampled at issue (10_state.md R36, 70_reset_and_hazards.md R257). -/
structure InFlight where
  cmd : Word
  a : PackedBits
  b : PackedBits
  /-- The model's own field: host slots still to pass before completion, the countdown of `LAT`
  (70_reset_and_hazards.md R258; notes/assumptions/2.md). -/
  wait : Nat
  deriving DecidableEq, Repr

/-- One operation of the host (30_encoding.md R79, R80; 70_reset_and_hazards.md R250, R264). `width` counts bytes. -/
inductive HostOp where
  /-- A bus read; `RD` is a 4-byte read of a window row. -/
  | read (addr width : Nat)
  /-- A bus write; `WR` is a 4-byte write of a window row. The data of another width is never looked at. -/
  | write (addr width : Nat) (v : Word)
  /-- `WAIT`: `RD STATUS`, repeated while bit 1 of the word read is 0 (30_encoding.md R80). -/
  | waitDone
  /-- The host makes no access in this slot. -/
  | idle
  /-- The reset input is asserted and released (70_reset_and_hazards.md R250). -/
  | reset
  deriving DecidableEq, Repr

/-- How the own rule of a command with operands ends (40_value_ops.md R100). -/
inductive Ending where
  /-- `succeed(v)`. -/
  | succeed (v : PackedBits)
  /-- `STATUS.CMPRES <- c; succeed_noR()`, the ending of CMP (44_compare.md R212). -/
  | compared (c : CmpResult)
  /-- `raise E`. -/
  | raise (e : ErrorCode)
  /-- A datapath divider met a zero divisor (41_limb_units.md R127). -/
  | internalDivZero
  deriving DecidableEq, Repr

/-- All the state of the core (10_state.md R20, R36, R37) and of the host beside it (30_encoding.md R79). There is no
memory (20_memory.md R50, R64): DEDUCED, safe, notes/assumptions/15.md. -/
structure State where
  /-- Operand register `A` (10_state.md R27). -/
  a : PackedBits
  /-- Operand register `B` (10_state.md R28). -/
  b : PackedBits
  /-- Result register `R` (10_state.md R29). -/
  r : PackedBits
  /-- Command register `CMD` (10_state.md R30). -/
  cmd : Word
  /-- Status register `STATUS` (10_state.md R31). -/
  status : Status
  /-- The in-flight copy, present while a command executes (10_state.md R36). -/
  inFlight : Option InFlight
  /-- The model's own field: which draw of `Config.freeBuffers` the working buffers hold
  (10_state.md R37; notes/assumptions/5.md). -/
  scratch : Nat
  /-- The host's operations still to come, first first (30_encoding.md R79; notes/assumptions/1.md). -/
  program : List HostOp
  /-- The words the host's reads returned, newest first (20_memory.md R55; notes/assumptions/10.md). -/
  received : List Word
  deriving DecidableEq, Repr

/-- Why a step stops the machine: exactly the three faults of 60_exceptions.md R226. -/
inductive Fault where
  /-- The host made an access other than an aligned 32-bit one inside the window (20_memory.md R54).
  Raised by the host's slot; safe (toward unprovable): notes/assumptions/9.md. -/
  | busError
  /-- The host wrote `A`, `B` or `CMD` while busy, so that `STATUS.PV` becomes 1 (70_reset_and_hazards.md R261).
  Raised by the host's slot; safe (toward unprovable): notes/assumptions/8.md. -/
  | protocolViolation
  /-- A datapath divider was given a zero divisor (41_limb_units.md R127). Raised by DIV and REM if ever their
  divider gets one, which no rule reaches; safe (toward unprovable). -/
  | internalDivZero
  deriving DecidableEq, Repr

/-- Why a step has no meaning. -/
inductive Refusal where
  /-- The named command has no meaning in this model yet. Raised by exec's arm of that command only; safe.
  No arm uses it. -/
  | notModelled (mnemonic : String)
  deriving DecidableEq, Repr

/-- `STATUS` after reset: every field 0 (70_reset_and_hazards.md R250). -/
def Status.reset : Status :=
  { busy := false, done := false, err := false, pv := false, ecode := .none, cmpres := .none }

/-- The machine right after reset (70_reset_and_hazards.md R250). The host's program is empty and nothing was
received: DESIGN CHOICE, safe, a program is loaded from outside (notes/assumptions/1.md, 13.md). The draw of the
working buffers is number 0: DESIGN CHOICE, safe, no value of it is visible (notes/assumptions/5.md). -/
def State.reset : State :=
  { a := 0, b := 0, r := 0, cmd := 0, status := Status.reset, inFlight := none, scratch := 0,
    program := [], received := [] }

end Sys2Proof.Machine
end

