-- ==== Sys2Proof/Machine/Flags.lean ====
section
/-!
DEFINITION. Everything the core does to `STATUS`, and the word a host reads from it (10_state.md R31).
The core has no other flags (10_state.md R35).
-/
namespace Sys2Proof.Machine

/-- The number of an error code, `STATUS[7:4]` (60_exceptions.md R221). -/
def ErrorCode.code : ErrorCode → BitVec 4
  | .none => 0
  | .overflow => 1
  | .divByZero => 2
  | .invalidA => 3
  | .invalidB => 4
  | .illegalCommand => 5
  | .scaleOutOfRange => 6

/-- The bits of a comparison result, `STATUS[9:8]` (10_state.md R31). -/
def CmpResult.code : CmpResult → BitVec 2
  | .none => 0b00
  | .less => 0b01
  | .equal => 0b10
  | .greater => 0b11

/-- The result field of a comparison (44_compare.md R212). -/
def CmpResult.ofOrdering : Ordering → CmpResult
  | .lt => .less
  | .eq => .equal
  | .gt => .greater

/-- The 32-bit word a host reads from `STATUS` (10_state.md R31). -/
def Status.word (st : Status) : Word :=
  (0 : BitVec 22) ++ st.cmpres.code ++ st.ecode.code ++ BitVec.ofBool st.pv ++ BitVec.ofBool st.err ++
    BitVec.ofBool st.done ++ BitVec.ofBool st.busy

/-- `STATUS` at issue: `BUSY` set, `DONE`, `ERR`, `ECODE`, `CMPRES` cleared (70_reset_and_hazards.md R257). -/
def Status.atIssue (st : Status) : Status :=
  { st with busy := true, done := false, err := false, ecode := .none, cmpres := .none }

/-- `BUSY <- 0`, `DONE <- 1` (70_reset_and_hazards.md R259). -/
def Status.complete (st : Status) : Status := { st with busy := false, done := true }

/-- `STATUS` when a command succeeds: `ECODE <- 0`, `ERR <- 0`, completion, and no other write; `CMPRES` was cleared
at issue (40_value_ops.md R101, 70_reset_and_hazards.md R257). -/
def Status.atSuccess (st : Status) : Status := { st with ecode := .none, err := false }.complete

/-- `STATUS` when a command ends in error `e`: `ECODE <- e`, `ERR <- 1`, `CMPRES <- 00`, completion
(60_exceptions.md R222). -/
def Status.atError (e : ErrorCode) (st : Status) : Status :=
  { st with ecode := e, err := true, cmpres := .none }.complete

/-- `STATUS.CMPRES <- c` (44_compare.md R212). -/
def Status.setCmp (c : CmpResult) (st : Status) : Status := { st with cmpres := c }

/-- `STATUS.PV <- 1` (10_state.md R32). -/
def Status.setPv (st : Status) : Status := { st with pv := true }

end Sys2Proof.Machine
end

