-- ==== Sys2Proof/Machine/Packed.lean ====
section
/-!
DEFINITION. The Packed Value format: fields, `pack`, validity, words, value (10_state.md R21 to R26,
00_scope.md R14).
-/
namespace Sys2Proof.Machine

/-- `x[31]`, true for negative (10_state.md R22). -/
def signOf (x : PackedBits) : Bool := x.getLsbD 31

/-- `x[23:16]` as a number (10_state.md R22). -/
def scaleOf (x : PackedBits) : Nat := (x.extractLsb' 16 8).toNat

/-- `x[127:32]` as a number (10_state.md R22). -/
def mantOf (x : PackedBits) : Nat := (x.extractLsb' 32 96).toNat

/-- The reserved field `x[30:24]` (10_state.md R22). -/
def reservedHigh (x : PackedBits) : BitVec 7 := x.extractLsb' 24 7

/-- The reserved field `x[15:0]` (10_state.md R22). -/
def reservedLow (x : PackedBits) : BitVec 16 := x.extractLsb' 0 16

/-- `pack(s, e, m)` is `m * 2^32 + s * 2^31 + e * 2^16`, reserved bits zero (10_state.md R22). -/
def pack (s : Bool) (e m : Nat) : PackedBits :=
  BitVec.ofNat 128 (m * 2 ^ 32 + s.toNat * 2 ^ 31 + e * 2 ^ 16)

/-- A Packed Value is valid when its reserved bits are 0 and its scale is at most 28 (10_state.md R23). -/
def isValid (x : PackedBits) : Bool :=
  reservedHigh x == 0 && reservedLow x == 0 && decide (scaleOf x ≤ Config.maxScale)

/-- `fits96(v)` on numbers (00_scope.md R13). -/
abbrev fits96 (v : Nat) : Prop := v ≤ Config.maxMant

/-- The canonical zero (00_scope.md section 5). -/
def canonicalZero : PackedBits := pack false 0 0

/-- `MAX` (10_state.md R26). -/
def maxValue : PackedBits := pack false 0 Config.maxMant

/-- `MIN` (10_state.md R26). -/
def minValue : PackedBits := pack true 0 Config.maxMant

/-- The value of a Packed Value as a rational (00_scope.md R14). -/
def valOf (x : PackedBits) : ℚ :=
  (if signOf x then -1 else 1) * (mantOf x : ℚ) / (10 : ℚ) ^ scaleOf x

/-- Word `j` of a register image, bits `[32j+31:32j]` (20_memory.md R51). -/
def wordOf (x : PackedBits) (j : Nat) : Word := x.extractLsb' (32 * j) 32

/-- A register image from its four words, flags word lowest (10_state.md R21). -/
def ofWords (w0 w1 w2 w3 : Word) : PackedBits := w3 ++ w2 ++ w1 ++ w0

/-- A register image with word `j` replaced (20_memory.md R56). -/
def setWord (x : PackedBits) (j : Nat) (v : Word) : PackedBits :=
  ofWords (if j = 0 then v else wordOf x 0) (if j = 1 then v else wordOf x 1)
    (if j = 2 then v else wordOf x 2) (if j = 3 then v else wordOf x 3)

end Sys2Proof.Machine
end

