-- ==== Sys2Proof/Machine/Ops.lean ====
section
/-!
DEFINITION. The named operations on the registers: issue, completion, success, error, reset, dropped write
(40_value_ops.md R101, 60_exceptions.md R222, 70_reset_and_hazards.md R250, R257, R259, R261).
The core has no memory to read or write (20_memory.md R50) and no traps: an error is recorded by
`State.raise` and there is no return from it (60_exceptions.md R228, R229).
-/
namespace Sys2Proof.Machine

/-- `A <- v`. -/
def State.setA (v : PackedBits) (s : State) : State := { s with a := v }

/-- `B <- v`. -/
def State.setB (v : PackedBits) (s : State) : State := { s with b := v }

/-- `R <- v`. -/
def State.setR (v : PackedBits) (s : State) : State := { s with r := v }

/-- `STATUS.CMPRES <- c` (44_compare.md R212). -/
def State.setCmp (c : CmpResult) (s : State) : State := { s with status := s.status.setCmp c }

/-- The working buffers, whose content is unspecified (10_state.md R37); their shape: notes/assumptions/5.md. -/
def State.buffers (s : State) : Config.WorkingBuffers := Config.freeBuffers s.scratch

/-- The command in flight is over, with `STATUS` becoming `st`; the working buffers hold something new
(70_reset_and_hazards.md R259, 10_state.md R37). -/
def State.complete (st : Status) (s : State) : State :=
  { s with status := st, inFlight := none, scratch := s.scratch + 1 }

/-- `succeed_noR()` (40_value_ops.md R101). -/
def State.succeedNoR (s : State) : State := s.complete s.status.atSuccess

/-- `succeed(v)` (40_value_ops.md R101). -/
def State.succeed (v : PackedBits) (s : State) : State := (s.setR v).succeedNoR

/-- `raise E` (60_exceptions.md R222): the one way an error is taken; there is no handler, no saved state and no
transfer of control (60_exceptions.md R228). -/
def State.raise (e : ErrorCode) (s : State) : State := s.complete (s.status.atError e)

/-- The state, or the fault, in which a command ends (40_value_ops.md R100, 60_exceptions.md R226). -/
def State.finish (e : Ending) (s : State) : Host.Outcome State Fault Refusal :=
  match e with
  | .succeed v => .next (s.succeed v)
  | .compared c => .next (s.setCmp c).succeedNoR
  | .raise c => .next (s.raise c)
  | .internalDivZero => .fault .internalDivZero

/-- `issue(v)` with `wait` host slots before completion (70_reset_and_hazards.md R257). -/
def State.issueAfter (v : Word) (wait : Nat) (s : State) : State :=
  { s with cmd := v, inFlight := some { cmd := v, a := s.a, b := s.b, wait := wait },
           status := s.status.atIssue }

/-- `issue(v)`: completion follows after the open latency (70_reset_and_hazards.md R257, R258). -/
def State.issue (v : Word) (s : State) : State := s.issueAfter v (Config.lat v s.a s.b s.r)

/-- A host write while busy: the write is dropped and `STATUS.PV <- 1` (70_reset_and_hazards.md R261). -/
def State.dropWrite (s : State) : State := { s with status := s.status.setPv }

/-- The reset input: every register of the core takes its reset value and the command in flight is abandoned
(70_reset_and_hazards.md R250). The host's own state is not the core's and stays: DESIGN CHOICE, safe,
notes/assumptions/11.md. -/
def State.applyReset (s : State) : State :=
  { State.reset with scratch := s.scratch + 1, program := s.program, received := s.received }

/-- One of the command's waiting slots has passed (70_reset_and_hazards.md R258). -/
def State.tick (f : InFlight) (left : Nat) (s : State) : State :=
  { s with inFlight := some { f with wait := left } }

/-- The host's first operation is done. -/
def State.setProgram (p : List HostOp) (s : State) : State := { s with program := p }

/-- The host receives a word from a read. -/
def State.receive (v : Word) (s : State) : State := { s with received := v :: s.received }

end Sys2Proof.Machine
end

