-- ==== Sys2Proof/Machine/Operands.lean ====
section
/-!
DEFINITION. The operand forms: commands read the sampled `A`, or the sampled `A` and `B`, and check what they
read first (40_value_ops.md R100, R105; 60_exceptions.md R224). Immediates are constructor arguments of `Instr`.
-/
namespace Sys2Proof.Machine

/-- The operand `a` of the command in flight, sampled at issue (70_reset_and_hazards.md R257). With nothing in
flight, which is no case of a step, the register an issue would sample: DESIGN CHOICE, safe, notes/assumptions/6.md. -/
def State.opA (s : State) : PackedBits :=
  match s.inFlight with
  | some f => f.a
  | none => s.a

/-- The operand `b` of the command in flight, as `State.opA`. -/
def State.opB (s : State) : PackedBits :=
  match s.inFlight with
  | some f => f.b
  | none => s.b

/-- A one-operand command: `INVALID_A`, else its own rule (40_value_ops.md R100, R105). -/
def withA (op : PackedBits → Ending) (s : State) : Host.Outcome State Fault Refusal :=
  if isValid s.opA then s.finish (op s.opA) else .next (s.raise .invalidA)

/-- A two-operand command: `INVALID_A`, then `INVALID_B`, else its own rule (40_value_ops.md R100,
60_exceptions.md R223). -/
def withAB (op : PackedBits → PackedBits → Ending) (s : State) : Host.Outcome State Fault Refusal :=
  if isValid s.opA then
    if isValid s.opB then s.finish (op s.opA s.opB) else .next (s.raise .invalidB)
  else .next (s.raise .invalidA)

end Sys2Proof.Machine
end

