-- ==== Sys2Proof/Machine/Units.lean ====
section
/-!
DEFINITION. The datapath units as functions on natural numbers, the form in which the spec defines results
(00_scope.md R13, R15, R18; 41_limb_units.md). Their limb-level form is in Machine/Limbs.lean.
-/
namespace Sys2Proof.Machine

/-- Half to even (00_scope.md R15). -/
def rne (n d : Nat) : Nat :=
  if 2 * (n % d) > d ∨ (2 * (n % d) = d ∧ n / d % 2 = 1) then n / d + 1 else n / d

/-- Half away from zero (00_scope.md R15). -/
def rhaz (n d : Nat) : Nat := if 2 * (n % d) ≥ d then n / d + 1 else n / d

/-- Half toward zero (00_scope.md R15). -/
def rhtz (n d : Nat) : Nat := if 2 * (n % d) > d then n / d + 1 else n / d

/-- The rounding function of a tie rule (00_scope.md R15, R10). -/
def roundBy : Config.TieRule → Nat → Nat → Nat
  | .halfEven => rne
  | .halfAway => rhaz
  | .halfTowardZero => rhtz

/-- The rounding-mode enforcer (41_limb_units.md R140). -/
def roundIncr (mode : RoundMode) (sign : Bool) (q r d : Nat) : Nat :=
  match mode with
  | .rne => if 2 * r > d ∨ (2 * r = d ∧ q % 2 = 1) then 1 else 0
  | .rhaz => if 2 * r ≥ d then 1 else 0
  | .rhtz => if 2 * r > d then 1 else 0
  | .rtz => 0
  | .raz => if r ≠ 0 then 1 else 0
  | .rfloor => if r ≠ 0 ∧ sign = true then 1 else 0
  | .rceil => if r ≠ 0 ∧ sign = false then 1 else 0

/-- The shifter's `M * 10^k` (41_limb_units.md R130). -/
def alignUp (m k : Nat) : Nat := m * 10 ^ k

/-- The shifter's quotient and remainder by `10^k` (41_limb_units.md R131). -/
def alignDown (m k : Nat) : Nat × Nat := (m / 10 ^ k, m % 10 ^ k)

/-- The divider with remainder, `none` for a zero divisor (41_limb_units.md R127, R128). -/
def divrem (n d : Nat) : Option (Nat × Nat) := if d = 0 then none else some (n / d, n % d)

/-- The normalizer's loop with `room` digits above the floor `f` (41_limb_units.md R133). -/
def stripFrom (f : Nat) : Nat → Nat → Nat × Nat
  | 0, m => (m, f)
  | room + 1, m => if m % 10 = 0 then stripFrom f room (m / 10) else (m, f + room + 1)

/-- The normalizer `strip(M, S, F)` for `F <= S` (41_limb_units.md R133). -/
def strip (m s f : Nat) : Nat × Nat := stripFrom f (s - f) m

/-- The precision reducer's loop with scale `left` after dropping `k` digits (41_limb_units.md R143). -/
def reduceFrom (rho : Nat → Nat → Nat) (v : Nat) : Nat → Nat → Option (Nat × Nat)
  | 0, k => if fits96 (rho v (10 ^ k)) then some (0, rho v (10 ^ k)) else none
  | left + 1, k =>
    if fits96 (rho v (10 ^ k)) then some (left + 1, rho v (10 ^ k)) else reduceFrom rho v left (k + 1)

/-- The precision reducer `reduce_fit(V, S, rho, k0)`: the new scale and mantissa, `none` for OVERFLOW
(41_limb_units.md R143). -/
def reduceFit (v s : Nat) (rho : Nat → Nat → Nat) (k0 : Nat) : Option (Nat × Nat) :=
  if k0 ≤ s then reduceFrom rho v (s - k0) k0 else none

/-- The largest scale in `lo .. lo + room` at which `quot` fits, if any (42_arithmetic.md R162). -/
def largestFit (quot : Nat → Nat) (lo : Nat) : Nat → Option Nat
  | 0 => if fits96 (quot lo) then some lo else none
  | room + 1 => if fits96 (quot (lo + room + 1)) then some (lo + room + 1) else largestFit quot lo room

/-- RESCALE's loop: multiply by ten, at most `room` times, while the product fits
(43_rounding.md R180, R181); the new scale and mantissa. -/
def scaleUp : Nat → Nat → Nat → Nat × Nat
  | 0, t, m => (t, m)
  | room + 1, t, m => if fits96 (m * 10) then scaleUp room (t + 1) (m * 10) else (t, m)

/-- The comparator on magnitudes (41_limb_units.md R122). -/
def compareMagnitude (x y : Nat) : Ordering := compare x y

/-- `succeed(pack(s, S', M))` of a reduction, or `raise OVERFLOW` (42_arithmetic.md R153, R158). -/
def endReduced (s : Bool) (res : Option (Nat × Nat)) : Ending :=
  match res with
  | some sm => .succeed (pack s sm.1 sm.2)
  | none => .raise .overflow

end Sys2Proof.Machine
end

