-- ==== Sys2Proof/Machine/Arithmetic.lean ====
section
/-!
DEFINITION. ADD, SUB, MUL, DIV, REM (42_arithmetic.md). Each operation is a function of two Packed Values; the
meaning of a command is that function under the shared operand checks.
-/
namespace Sys2Proof.Machine

/-- The natural scale of ADD, SUB and REM, `max(e1, e2)` (42_arithmetic.md R152, R167). -/
def commonScale (a b : PackedBits) : Nat := max (scaleOf a) (scaleOf b)

/-- The mantissa of `a` at the common scale (42_arithmetic.md R152, R167). -/
def alignedLeft (a b : PackedBits) : Nat := alignUp (mantOf a) (commonScale a b - scaleOf a)

/-- The mantissa of `b` at the common scale (42_arithmetic.md R152, R167). -/
def alignedRight (a b : PackedBits) : Nat := alignUp (mantOf b) (commonScale a b - scaleOf b)

/-- Sign resolution on aligned magnitudes: sign and magnitude of the exact sum (42_arithmetic.md R152). -/
def signedSum (sa sb : Bool) (x y : Nat) : Bool × Nat :=
  if sa = sb then (sa, x + y)
  else if x ≥ y then (sa, x - y)
  else (sb, y - x)

/-- The core of ADD (`nb` false) and SUB (`nb` true) (42_arithmetic.md R150 to R153). -/
def addsub (a b : PackedBits) (nb : Bool) : Ending :=
  if mantOf a = 0 then
    if nb = true ∧ mantOf b ≠ 0 then .succeed (pack (!signOf b) (scaleOf b) (mantOf b)) else .succeed b
  else if mantOf b = 0 then .succeed a
  else
    let sum := signedSum (signOf a) (xor (signOf b) nb) (alignedLeft a b) (alignedRight a b)
    endReduced sum.1 (reduceFit sum.2 (commonScale a b) rne 0)

/-- MUL (42_arithmetic.md R156 to R158). -/
def mulValues (a b : PackedBits) : Ending :=
  if mantOf a = 0 ∨ mantOf b = 0 then .succeed canonicalZero
  else
    let scale := scaleOf a + scaleOf b
    endReduced (xor (signOf a) (signOf b))
      (reduceFit (mantOf a * mantOf b) scale (roundBy Config.mulTie) (scale - Config.maxScale))

/-- The natural scale of DIV, `max(e1 - e2, 0)` (42_arithmetic.md R161). -/
def quotientScale (a b : PackedBits) : Nat := scaleOf a - scaleOf b

/-- The dividend for a quotient at scale `t >= e1 - e2`, `m1 * 10^(t - (e1 - e2))` (42_arithmetic.md R161, R162). -/
def dividendAt (a b : PackedBits) (t : Nat) : Nat := alignUp (mantOf a) (t + scaleOf b - scaleOf a)

/-- The quotient rounded at scale `t`, `Q(t)` (42_arithmetic.md R162). -/
def roundedQuotient (a b : PackedBits) (t : Nat) : Nat := rne (dividendAt a b t) (mantOf b)

/-- The inexact quotient of DIV: the largest scale that fits, then the strip (42_arithmetic.md R162, R163). -/
def inexactQuotient (a b : PackedBits) : Ending :=
  match largestFit (roundedQuotient a b) (quotientScale a b) (Config.maxScale - quotientScale a b) with
  | none => .raise .overflow
  | some t =>
    let ms := strip (roundedQuotient a b t) t 0
    .succeed (pack (xor (signOf a) (signOf b)) ms.2 ms.1)

/-- DIV (42_arithmetic.md R160 to R163; R164 names one algorithm and defers to these). -/
def divValues (a b : PackedBits) : Ending :=
  if mantOf b = 0 then .raise .divByZero
  else if mantOf a = 0 then .succeed canonicalZero
  else
    match divrem (dividendAt a b (quotientScale a b)) (mantOf b) with
    | none => .internalDivZero
    | some qr =>
      if qr.2 = 0 then
        if fits96 qr.1 then .succeed (pack (xor (signOf a) (signOf b)) (quotientScale a b) qr.1)
        else .raise .overflow
      else inexactQuotient a b

/-- REM (42_arithmetic.md R166 to R169). -/
def remValues (a b : PackedBits) : Ending :=
  if mantOf b = 0 then .raise .divByZero
  else if mantOf a = 0 then .succeed canonicalZero
  else
    match divrem (alignedLeft a b) (alignedRight a b) with
    | none => .internalDivZero
    | some qr =>
      let ms := strip qr.2 (commonScale a b) (scaleOf a)
      .succeed (pack (signOf a) ms.2 ms.1)

/-- ADD (42_arithmetic.md R154). -/
def execAdd (s : State) : Host.Outcome State Fault Refusal := withAB (fun a b => addsub a b false) s

/-- SUB (42_arithmetic.md R155). -/
def execSub (s : State) : Host.Outcome State Fault Refusal := withAB (fun a b => addsub a b true) s

/-- MUL (42_arithmetic.md R159). -/
def execMul (s : State) : Host.Outcome State Fault Refusal := withAB mulValues s

/-- DIV (42_arithmetic.md R165). -/
def execDiv (s : State) : Host.Outcome State Fault Refusal := withAB divValues s

/-- REM (42_arithmetic.md R170). -/
def execRem (s : State) : Host.Outcome State Fault Refusal := withAB remValues s

end Sys2Proof.Machine
end

