-- ==== Sys2Proof/Machine/Compare.lean ====
section
/-!
DEFINITION. CMP (44_compare.md).
-/
namespace Sys2Proof.Machine

/-- The order of two Packed Values by value, as the reference procedure computes it (44_compare.md R211). -/
def cmpValues (a b : PackedBits) : Ordering :=
  if mantOf a = 0 ∧ mantOf b = 0 then .eq
  else if mantOf a = 0 then (if signOf b then .gt else .lt)
  else if mantOf b = 0 then (if signOf a then .lt else .gt)
  else if signOf a ≠ signOf b then (if signOf a then .lt else .gt)
  else
    let c := compareMagnitude (alignedLeft a b) (alignedRight a b)
    if signOf a then c.swap else c

/-- CMP: the result goes to `STATUS.CMPRES` and `R` is not written (44_compare.md R212). -/
def execCmp (s : State) : Host.Outcome State Fault Refusal :=
  withAB (fun a b => .compared (CmpResult.ofOrdering (cmpValues a b))) s

end Sys2Proof.Machine
end

