-- ==== Sys2Proof/Machine/Rounding.lean ====
section
/-!
DEFINITION. RESCALE, ROUND in its seven modes, NORM, TRUNC, FRACT, FLOOR, CEIL (43_rounding.md).
-/
namespace Sys2Proof.Machine

/-- RESCALE to `min(imm, 28)` (43_rounding.md R180, R181). -/
def rescaleValue (imm : Nat) (a : PackedBits) : Ending :=
  let target := min imm Config.maxScale
  if scaleOf a = target then .succeed a
  else if mantOf a = 0 then .succeed (pack (signOf a) target 0)
  else if scaleOf a > target then
    .succeed (pack (signOf a) target (rhaz (mantOf a) (10 ^ (scaleOf a - target))))
  else
    let tm := scaleUp (target - scaleOf a) (scaleOf a) (mantOf a)
    .succeed (pack (signOf a) tm.1 tm.2)

/-- ROUND to `dp` places in a mode (43_rounding.md R183, R184). -/
def roundValue (mode : RoundMode) (dp : Nat) (a : PackedBits) : Ending :=
  if scaleOf a ≤ dp then .succeed a
  else
    let qr := alignDown (mantOf a) (scaleOf a - dp)
    .succeed (pack (signOf a) dp
      (qr.1 + roundIncr mode (signOf a) qr.1 qr.2 (10 ^ (scaleOf a - dp))))

/-- NORM (43_rounding.md R185). -/
def normValue (a : PackedBits) : Ending :=
  if mantOf a = 0 then .succeed canonicalZero
  else
    let ms := strip (mantOf a) (scaleOf a) 0
    .succeed (pack (signOf a) ms.2 ms.1)

/-- The integer part of `a` (43_rounding.md R186). -/
def truncOf (a : PackedBits) : PackedBits := pack (signOf a) 0 (alignDown (mantOf a) (scaleOf a)).1

/-- TRUNC (43_rounding.md R186). -/
def truncValue (a : PackedBits) : Ending := .succeed (truncOf a)

/-- FRACT, `addsub(a, trunc(a), 1)` (43_rounding.md R187). -/
def fractValue (a : PackedBits) : Ending := addsub a (truncOf a) true

/-- FLOOR (43_rounding.md R188). -/
def floorValue (a : PackedBits) : Ending :=
  let qr := alignDown (mantOf a) (scaleOf a)
  .succeed (pack (signOf a) 0 (if signOf a = true ∧ qr.2 ≠ 0 then qr.1 + 1 else qr.1))

/-- CEIL (43_rounding.md R189). -/
def ceilValue (a : PackedBits) : Ending :=
  let qr := alignDown (mantOf a) (scaleOf a)
  .succeed (pack (signOf a) 0 (if signOf a = false ∧ qr.2 ≠ 0 then qr.1 + 1 else qr.1))

/-- RESCALE (43_rounding.md R181). -/
def execRescale (target : Nat) (s : State) : Host.Outcome State Fault Refusal :=
  withA (rescaleValue target) s

/-- ROUND.RNE (43_rounding.md R184). -/
def execRoundRne (dp : Nat) (s : State) : Host.Outcome State Fault Refusal := withA (roundValue .rne dp) s

/-- ROUND.RHAZ (43_rounding.md R184). -/
def execRoundRhaz (dp : Nat) (s : State) : Host.Outcome State Fault Refusal := withA (roundValue .rhaz dp) s

/-- ROUND.RHTZ (43_rounding.md R184). -/
def execRoundRhtz (dp : Nat) (s : State) : Host.Outcome State Fault Refusal := withA (roundValue .rhtz dp) s

/-- ROUND.RTZ (43_rounding.md R184). -/
def execRoundRtz (dp : Nat) (s : State) : Host.Outcome State Fault Refusal := withA (roundValue .rtz dp) s

/-- ROUND.RAZ (43_rounding.md R184). -/
def execRoundRaz (dp : Nat) (s : State) : Host.Outcome State Fault Refusal := withA (roundValue .raz dp) s

/-- ROUND.RFLOOR (43_rounding.md R184). -/
def execRoundRfloor (dp : Nat) (s : State) : Host.Outcome State Fault Refusal :=
  withA (roundValue .rfloor dp) s

/-- ROUND.RCEIL (43_rounding.md R184). -/
def execRoundRceil (dp : Nat) (s : State) : Host.Outcome State Fault Refusal :=
  withA (roundValue .rceil dp) s

/-- NORM (43_rounding.md R185). -/
def execNorm (s : State) : Host.Outcome State Fault Refusal := withA normValue s

/-- TRUNC (43_rounding.md R186). -/
def execTrunc (s : State) : Host.Outcome State Fault Refusal := withA truncValue s

/-- FRACT (43_rounding.md R187). -/
def execFract (s : State) : Host.Outcome State Fault Refusal := withA fractValue s

/-- FLOOR (43_rounding.md R188). -/
def execFloor (s : State) : Host.Outcome State Fault Refusal := withA floorValue s

/-- CEIL (43_rounding.md R189). -/
def execCeil (s : State) : Host.Outcome State Fault Refusal := withA ceilValue s

end Sys2Proof.Machine
end

