-- ==== Sys2Proof/Machine/ValueOps.lean ====
section
/-!
DEFINITION. NEG, ABS, SETSCALE and the register moves MOVRA, MOVRB (40_value_ops.md).
-/
namespace Sys2Proof.Machine

/-- NEG (40_value_ops.md R102). -/
def negValue (a : PackedBits) : Ending := .succeed (pack (!signOf a) (scaleOf a) (mantOf a))

/-- ABS (40_value_ops.md R103). -/
def absValue (a : PackedBits) : Ending := .succeed (pack false (scaleOf a) (mantOf a))

/-- SETSCALE (40_value_ops.md R104). -/
def setscaleValue (imm : Nat) (a : PackedBits) : Ending :=
  if imm > Config.maxScale then .raise .scaleOutOfRange else .succeed (pack (signOf a) imm (mantOf a))

/-- NEG (40_value_ops.md R102). -/
def execNeg (s : State) : Host.Outcome State Fault Refusal := withA negValue s

/-- ABS (40_value_ops.md R103). -/
def execAbs (s : State) : Host.Outcome State Fault Refusal := withA absValue s

/-- SETSCALE (40_value_ops.md R104). -/
def execSetscale (scale : Nat) (s : State) : Host.Outcome State Fault Refusal :=
  withA (setscaleValue scale) s

/-- MOVRA: `A <- R; succeed_noR()`, nothing read but `R` and nothing checked (40_value_ops.md R106). -/
def execMovra (s : State) : Host.Outcome State Fault Refusal := .next (s.setA s.r).succeedNoR

/-- MOVRB: `B <- R; succeed_noR()` (40_value_ops.md R107). -/
def execMovrb (s : State) : Host.Outcome State Fault Refusal := .next (s.setB s.r).succeedNoR

end Sys2Proof.Machine
end

