-- ==== Sys2Proof/Machine/Dispatch.lean ====
section
/-!
DEFINITION. exec: the meaning of each command, run to its completion on the sampled operands
(40_value_ops.md R100). Illegal words are no commands; Machine/Engine.lean ends them.
-/
namespace Sys2Proof.Machine

def exec (i : Instr) (s : State) : Host.Outcome State Fault Refusal :=
  match i with
  | .add => Sys2Proof.Machine.execAdd s
  | .sub => Sys2Proof.Machine.execSub s
  | .mul => Sys2Proof.Machine.execMul s
  | .div => Sys2Proof.Machine.execDiv s
  | .rem => Sys2Proof.Machine.execRem s
  | .cmp => Sys2Proof.Machine.execCmp s
  | .rescale target => Sys2Proof.Machine.execRescale target s
  | .roundRne dp => Sys2Proof.Machine.execRoundRne dp s
  | .roundRhaz dp => Sys2Proof.Machine.execRoundRhaz dp s
  | .roundRhtz dp => Sys2Proof.Machine.execRoundRhtz dp s
  | .roundRtz dp => Sys2Proof.Machine.execRoundRtz dp s
  | .roundRaz dp => Sys2Proof.Machine.execRoundRaz dp s
  | .roundRfloor dp => Sys2Proof.Machine.execRoundRfloor dp s
  | .roundRceil dp => Sys2Proof.Machine.execRoundRceil dp s
  | .norm => Sys2Proof.Machine.execNorm s
  | .trunc => Sys2Proof.Machine.execTrunc s
  | .fract => Sys2Proof.Machine.execFract s
  | .floor => Sys2Proof.Machine.execFloor s
  | .ceil => Sys2Proof.Machine.execCeil s
  | .neg => Sys2Proof.Machine.execNeg s
  | .abs => Sys2Proof.Machine.execAbs s
  | .setscale scale => Sys2Proof.Machine.execSetscale scale s
  | .movra => Sys2Proof.Machine.execMovra s
  | .movrb => Sys2Proof.Machine.execMovrb s

end Sys2Proof.Machine
end

