-- ==== Sys2Proof/WellFormed.lean ====
section
/-!
DEFINITION. Which commands are well formed: an immediate is one the 8-bit field IMM can hold
(30_encoding.md R71, R75).
-/
namespace Sys2Proof

/-- The 8-bit field holds `n` (30_encoding.md R71). -/
abbrev fitsImm (n : Nat) : Prop := n ≤ 255

/-- A command that has a word: every immediate is in 0..255 (30_encoding.md R75). -/
def Instr.wellFormed : Instr → Bool
  | .rescale t => decide (fitsImm t)
  | .roundRne dp | .roundRhaz dp | .roundRhtz dp | .roundRtz dp | .roundRaz dp | .roundRfloor dp
  | .roundRceil dp => decide (fitsImm dp)
  | .setscale t => decide (fitsImm t)
  | .add | .sub | .mul | .div | .rem | .cmp | .norm | .trunc | .fract | .floor | .ceil | .neg | .abs
  | .movra | .movrb => true

/-- `Instr.wellFormed` as a proposition. -/
abbrev Instr.WellFormed (i : Instr) : Prop := i.wellFormed = true

end Sys2Proof
end

