-- ==== Sys2Proof/Decode.lean ====
section
/-!
DEFINITION. The command decoder, total on every word and on any bytes, and the encoder
(30_encoding.md R70 to R78, spec/opcode_table.json).
-/
namespace Sys2Proof

/-- Why a command word is illegal (30_encoding.md R73), or why bytes hold no command word. -/
inductive IllegalReason where
  /-- `resv != 0`. -/
  | reservedBits
  /-- `opc = 0x00` or `opc >= 0x13`. -/
  | opcode
  /-- `rm != 0` on a command other than ROUND. -/
  | roundingModeUnused
  /-- ROUND with `rm = 7`. -/
  | roundingModeReserved
  /-- `imm != 0` on a command without an immediate. -/
  | immediateUnused
  /-- Fewer than four bytes (30_encoding.md R76: every command is one 32-bit word). -/
  | incompleteWord
  deriving DecidableEq, Repr

/-- What a command word is: one command, or illegal (30_encoding.md R77). -/
inductive Decoded where
  | legal (i : Instr)
  | illegal (why : IllegalReason)
  deriving DecidableEq, Repr

/-- The command of a decoding, if it is legal. -/
def Decoded.instr? : Decoded → Option Instr
  | .legal i => some i
  | .illegal _ => none

/-- `CMD[4:0]` (30_encoding.md R71). -/
def opcField (w : Word) : Nat := (w.extractLsb' 0 5).toNat

/-- `CMD[7:5]` (30_encoding.md R71). -/
def rmField (w : Word) : Nat := (w.extractLsb' 5 3).toNat

/-- `CMD[15:8]` (30_encoding.md R71). -/
def immField (w : Word) : Nat := (w.extractLsb' 8 8).toNat

/-- `CMD[31:16]` (30_encoding.md R71). -/
def resvField (w : Word) : Nat := (w.extractLsb' 16 16).toNat

/-- A command that uses neither RM nor IMM (30_encoding.md R73). -/
def decodePlain (rm imm : Nat) (i : Instr) : Decoded :=
  if rm ≠ 0 then .illegal .roundingModeUnused
  else if imm ≠ 0 then .illegal .immediateUnused
  else .legal i

/-- A command that uses IMM but not RM (30_encoding.md R73). -/
def decodeImm (rm : Nat) (i : Instr) : Decoded :=
  if rm ≠ 0 then .illegal .roundingModeUnused else .legal i

/-- ROUND: RM selects the strategy, 7 is reserved (30_encoding.md R74). -/
def decodeRound (rm imm : Nat) : Decoded :=
  match rm with
  | 0 => .legal (.roundRne imm)
  | 1 => .legal (.roundRhaz imm)
  | 2 => .legal (.roundRhtz imm)
  | 3 => .legal (.roundRtz imm)
  | 4 => .legal (.roundRaz imm)
  | 5 => .legal (.roundRfloor imm)
  | 6 => .legal (.roundRceil imm)
  | _ => .illegal .roundingModeReserved

/-- The opcode map (30_encoding.md R72). -/
def decodeFields (opc rm imm : Nat) : Decoded :=
  match opc with
  | 0x01 => decodePlain rm imm .add
  | 0x02 => decodePlain rm imm .sub
  | 0x03 => decodePlain rm imm .mul
  | 0x04 => decodePlain rm imm .div
  | 0x05 => decodePlain rm imm .rem
  | 0x06 => decodePlain rm imm .cmp
  | 0x07 => decodeImm rm (.rescale imm)
  | 0x08 => decodeRound rm imm
  | 0x09 => decodePlain rm imm .norm
  | 0x0A => decodePlain rm imm .trunc
  | 0x0B => decodePlain rm imm .fract
  | 0x0C => decodePlain rm imm .floor
  | 0x0D => decodePlain rm imm .ceil
  | 0x0E => decodePlain rm imm .neg
  | 0x0F => decodePlain rm imm .abs
  | 0x10 => decodeImm rm (.setscale imm)
  | 0x11 => decodePlain rm imm .movra
  | 0x12 => decodePlain rm imm .movrb
  | _ => .illegal .opcode

/-- The decoder on a 32-bit command word, total (30_encoding.md R71, R73, R77). -/
def decodeWord (w : Word) : Decoded :=
  if resvField w ≠ 0 then .illegal .reservedBits
  else decodeFields (opcField w) (rmField w) (immField w)

/-- Four bytes as a little-endian word, the first byte lowest (20_memory.md R52). -/
def wordOfBytes (b0 b1 b2 b3 : Byte) : Word := b3 ++ b2 ++ b1 ++ b0

/-- Byte `i` of a word (20_memory.md R52). -/
def byteOfWord (w : Word) (i : Nat) : Byte := w.extractLsb' (8 * i) 8

/-- The decoder on any bytes in window order: one command word and the bytes after it
(20_memory.md R52, 30_encoding.md R76). -/
def decodeBytes : List Byte → Decoded × List Byte
  | b0 :: b1 :: b2 :: b3 :: rest => (decodeWord (wordOfBytes b0 b1 b2 b3), rest)
  | [] => (.illegal .incompleteWord, [])
  | [b0] => (.illegal .incompleteWord, [b0])
  | [b0, b1] => (.illegal .incompleteWord, [b0, b1])
  | [b0, b1, b2] => (.illegal .incompleteWord, [b0, b1, b2])

/-- The RM field of a command, 0 but for ROUND (30_encoding.md R78). -/
def Instr.rmCode (i : Instr) : Nat :=
  match i.mode? with
  | some m => m.code
  | none => 0

/-- The IMM field of a command, 0 where it has none (30_encoding.md R78). -/
def Instr.immCode (i : Instr) : Nat := i.imm?.getD 0

/-- The command word of a command, `imm << 8 | rm << 5 | opc` (30_encoding.md R78). -/
def encode (i : Instr) : Word :=
  BitVec.ofNat 32 (i.immCode * 2 ^ 8 + i.rmCode * 2 ^ 5 + i.opcode)

/-- The bytes of a command word in window order (20_memory.md R52). -/
def encodeBytes (i : Instr) : List Byte :=
  let w := encode i
  [byteOfWord w 0, byteOfWord w 1, byteOfWord w 2, byteOfWord w 3]

/-- One row of spec/opcode_table.json: mnemonic, match and mask (30_encoding.md R77). -/
structure OpcodeRow where
  mnemonic : String
  pattern : Word
  mask : Word
  deriving DecidableEq, Repr

/-- A word belongs to a row when its masked bits are the row's pattern (30_encoding.md R77). -/
def OpcodeRow.matchesWord (row : OpcodeRow) (w : Word) : Bool := (w &&& row.mask) == row.pattern

/-- The rows of spec/opcode_table.json whose whole word is fixed. -/
def fixedRows : List OpcodeRow :=
  [⟨"ADD", 0x00000001, 0xFFFFFFFF⟩, ⟨"SUB", 0x00000002, 0xFFFFFFFF⟩,
   ⟨"MUL", 0x00000003, 0xFFFFFFFF⟩, ⟨"DIV", 0x00000004, 0xFFFFFFFF⟩,
   ⟨"REM", 0x00000005, 0xFFFFFFFF⟩, ⟨"CMP", 0x00000006, 0xFFFFFFFF⟩,
   ⟨"NORM", 0x00000009, 0xFFFFFFFF⟩, ⟨"TRUNC", 0x0000000A, 0xFFFFFFFF⟩,
   ⟨"FRACT", 0x0000000B, 0xFFFFFFFF⟩, ⟨"FLOOR", 0x0000000C, 0xFFFFFFFF⟩,
   ⟨"CEIL", 0x0000000D, 0xFFFFFFFF⟩, ⟨"NEG", 0x0000000E, 0xFFFFFFFF⟩,
   ⟨"ABS", 0x0000000F, 0xFFFFFFFF⟩, ⟨"MOVRA", 0x00000011, 0xFFFFFFFF⟩,
   ⟨"MOVRB", 0x00000012, 0xFFFFFFFF⟩]

/-- The rows of spec/opcode_table.json with a free immediate. -/
def immediateRows : List OpcodeRow :=
  [⟨"RESCALE", 0x00000007, 0xFFFF00FF⟩, ⟨"ROUND.RNE", 0x00000008, 0xFFFF00FF⟩,
   ⟨"ROUND.RHAZ", 0x00000028, 0xFFFF00FF⟩, ⟨"ROUND.RHTZ", 0x00000048, 0xFFFF00FF⟩,
   ⟨"ROUND.RTZ", 0x00000068, 0xFFFF00FF⟩, ⟨"ROUND.RAZ", 0x00000088, 0xFFFF00FF⟩,
   ⟨"ROUND.RFLOOR", 0x000000A8, 0xFFFF00FF⟩, ⟨"ROUND.RCEIL", 0x000000C8, 0xFFFF00FF⟩,
   ⟨"SETSCALE", 0x00000010, 0xFFFF00FF⟩]

/-- spec/opcode_table.json as match and mask pairs (30_encoding.md R77). -/
def opcodeTable : List OpcodeRow := fixedRows ++ immediateRows

/-- The word of a table instruction: its bits below `nbits`, zeros above. -/
def tableWord (nbits w : Nat) : Word := BitVec.ofNat 32 (w % 2 ^ nbits)

/-- What the decoder reads from an instruction whose bits are `w`, laid out as the window stores them:
four bytes, the lowest first (20_memory.md R52). No row is wider than one word (30_encoding.md R76). -/
def decodeTableWord (nbits w : Nat) : Option Instr :=
  if nbits ≤ 32 then
    let v := tableWord nbits w
    (decodeBytes [byteOfWord v 0, byteOfWord v 1, byteOfWord v 2, byteOfWord v 3]).1.instr?
  else none

end Sys2Proof
end

