-- ==== Sys2Proof/Machine/Window.lean ====
section
/-!
DEFINITION. The register window: its map, the host's reads and writes, the byte view (20_memory.md R50 to R60).
-/
namespace Sys2Proof.Machine

/-- The sixteen rows of the window (20_memory.md R51). -/
inductive WindowRow where
  | aFlags
  | aLo
  | aMid
  | aHi
  | bFlags
  | bLo
  | bMid
  | bHi
  | cmd
  | status
  | reserved28
  | reserved2C
  | rFlags
  | rLo
  | rMid
  | rHi
  deriving DecidableEq, Repr

/-- The offset of a row (20_memory.md R51). -/
def rowOffset : WindowRow → Nat
  | .aFlags => 0x00
  | .aLo => 0x04
  | .aMid => 0x08
  | .aHi => 0x0C
  | .bFlags => 0x10
  | .bLo => 0x14
  | .bMid => 0x18
  | .bHi => 0x1C
  | .cmd => 0x20
  | .status => 0x24
  | .reserved28 => 0x28
  | .reserved2C => 0x2C
  | .rFlags => 0x30
  | .rLo => 0x34
  | .rMid => 0x38
  | .rHi => 0x3C

/-- The row at an offset; none at an offset that is not a multiple of 4 or is outside the window
(20_memory.md R51, R54). -/
def rowAt (o : Nat) : Option WindowRow :=
  match o with
  | 0x00 => some .aFlags
  | 0x04 => some .aLo
  | 0x08 => some .aMid
  | 0x0C => some .aHi
  | 0x10 => some .bFlags
  | 0x14 => some .bLo
  | 0x18 => some .bMid
  | 0x1C => some .bHi
  | 0x20 => some .cmd
  | 0x24 => some .status
  | 0x28 => some .reserved28
  | 0x2C => some .reserved2C
  | 0x30 => some .rFlags
  | 0x34 => some .rLo
  | 0x38 => some .rMid
  | 0x3C => some .rHi
  | _ => none

/-- The name of a row in a host program (20_memory.md R51, 30_encoding.md R79). -/
def rowName : WindowRow → String
  | .aFlags => "A_FLAGS"
  | .aLo => "A_LO"
  | .aMid => "A_MID"
  | .aHi => "A_HI"
  | .bFlags => "B_FLAGS"
  | .bLo => "B_LO"
  | .bMid => "B_MID"
  | .bHi => "B_HI"
  | .cmd => "CMD"
  | .status => "STATUS"
  | .reserved28 => "reserved"
  | .reserved2C => "reserved"
  | .rFlags => "R_FLAGS"
  | .rLo => "R_LO"
  | .rMid => "R_MID"
  | .rHi => "R_HI"

/-- The bus address of a row, `BASE + offset` (20_memory.md R60). -/
def rowAddress (w : WindowRow) : Nat := Config.base + rowOffset w

/-- The row that an access of `width` bytes at a bus address reaches; none is a bus error: only 32-bit accesses
at a multiple of 4 inside `BASE .. BASE + 0x3F` are accepted (20_memory.md R50, R54). -/
def locate (addr width : Nat) : Option WindowRow :=
  if width = 4 ∧ Config.base ≤ addr then rowAt (addr - Config.base) else none

/-- `MemRead(BASE + o, 4)`: the word of a row, 0 for a reserved one (20_memory.md R51, R55). -/
def readRow (s : State) : WindowRow → Word
  | .aFlags => wordOf s.a 0
  | .aLo => wordOf s.a 1
  | .aMid => wordOf s.a 2
  | .aHi => wordOf s.a 3
  | .bFlags => wordOf s.b 0
  | .bLo => wordOf s.b 1
  | .bMid => wordOf s.b 2
  | .bHi => wordOf s.b 3
  | .cmd => s.cmd
  | .status => s.status.word
  | .reserved28 => 0
  | .reserved2C => 0
  | .rFlags => wordOf s.r 0
  | .rLo => wordOf s.r 1
  | .rMid => wordOf s.r 2
  | .rHi => wordOf s.r 3

/-- The byte at offset `o` of the window, the lowest byte of a word first; none outside it (20_memory.md R52). -/
def windowByte (s : State) (o : Nat) : Option Byte :=
  (rowAt (o / 4 * 4)).map fun w => byteOfWord (readRow s w) (o % 4)

/-- The rows whose writes are dropped while busy: the words of `A` and `B`, and `CMD` (20_memory.md R56). -/
def guardedRow : WindowRow → Bool
  | .aFlags | .aLo | .aMid | .aHi | .bFlags | .bLo | .bMid | .bHi | .cmd => true
  | .status | .reserved28 | .reserved2C | .rFlags | .rLo | .rMid | .rHi => false

/-- A write that the core drops because it is busy (70_reset_and_hazards.md R261). -/
def isDropped (s : State) (w : WindowRow) : Bool := guardedRow w && s.status.busy

/-- The write of a row that is not dropped: a word of `A` or `B`, a command issue, or nothing
(20_memory.md R56, R57). -/
def acceptWrite (w : WindowRow) (v : Word) (s : State) : State :=
  match w with
  | .aFlags => s.setA (setWord s.a 0 v)
  | .aLo => s.setA (setWord s.a 1 v)
  | .aMid => s.setA (setWord s.a 2 v)
  | .aHi => s.setA (setWord s.a 3 v)
  | .bFlags => s.setB (setWord s.b 0 v)
  | .bLo => s.setB (setWord s.b 1 v)
  | .bMid => s.setB (setWord s.b 2 v)
  | .bHi => s.setB (setWord s.b 3 v)
  | .cmd => s.issue v
  | .status | .reserved28 | .reserved2C | .rFlags | .rLo | .rMid | .rHi => s

/-- `MemWrite(BASE + o, 4, v)`, the whole of it: dropped with `STATUS.PV <- 1` while busy, else accepted
(20_memory.md R56). -/
def writeRow (w : WindowRow) (v : Word) (s : State) : State :=
  if isDropped s w then s.dropWrite else acceptWrite w v s

/-- The host's read: bus error, or the word is received and nothing else changes (20_memory.md R54, R55). -/
def busRead (addr width : Nat) (s : State) : Host.Outcome State Fault Refusal :=
  match locate addr width with
  | none => .fault .busError
  | some w => .next (s.receive (readRow s w))

/-- The host's write: bus error; the model's fault where `STATUS.PV` becomes 1; else the write
(20_memory.md R54, R56; 60_exceptions.md R226). -/
def busWrite (addr width : Nat) (v : Word) (s : State) : Host.Outcome State Fault Refusal :=
  match locate addr width with
  | none => .fault .busError
  | some w => if isDropped s w then .fault .protocolViolation else .next (writeRow w v s)

/-- Bit 1 of a `STATUS` word, `DONE`, as `WAIT` tests it (30_encoding.md R80). -/
def doneBit (w : Word) : Bool := w.getLsbD 1

/-- One turn of `WAIT`'s loop: read `STATUS`, and leave the loop when `DONE` is 1 (30_encoding.md R80). -/
def pollDone (rest : List HostOp) (s : State) : State :=
  let v := readRow s .status
  if doneBit v then (s.setProgram rest).receive v else s.receive v

/-- The host's slot: its next operation, nothing when it has none (20_memory.md R61, 30_encoding.md R79). One host,
in program order: DESIGN CHOICE, safe, notes/assumptions/14.md. -/
def hostSlot (s : State) : Host.Outcome State Fault Refusal :=
  match s.program with
  | [] => .next s
  | .read addr width :: rest => busRead addr width (s.setProgram rest)
  | .write addr width v :: rest => busWrite addr width v (s.setProgram rest)
  | .waitDone :: rest => .next (pollDone rest s)
  | .idle :: rest => .next (s.setProgram rest)
  | .reset :: rest => .next (s.setProgram rest).applyReset

end Sys2Proof.Machine
end

