-- ==== Sys2Proof/Machine/Engine.lean ====
section
/-!
DEFINITION. The execution unit and the turn of the machine: which agent moves next, and running the command in
flight (40_value_ops.md R100, 70_reset_and_hazards.md R257 to R259).
-/
namespace Sys2Proof.Machine

/-- `execute`: an illegal word ends with `ILLEGAL_COMMAND`, without reading `A` or `B`; a legal one runs
(40_value_ops.md R100, 30_encoding.md R73). -/
def runWord (w : Word) (s : State) : Host.Outcome State Fault Refusal :=
  match decodeWord w with
  | .legal i => exec i s
  | .illegal _ => .next (s.raise .illegalCommand)

/-- One turn: a command in flight that has no slot left to wait completes; otherwise the host has its slot, and a
command in flight has one slot less to wait (70_reset_and_hazards.md R258, R259; notes/assumptions/2.md). -/
def turn (s : State) : Host.Outcome State Fault Refusal :=
  match s.inFlight with
  | none => hostSlot s
  | some f =>
    match f.wait with
    | 0 => runWord f.cmd s
    | left + 1 => hostSlot (s.tick f left)

/-- The state with the command word `w` issued and its latency passed: the next turn runs it
(70_reset_and_hazards.md R257; notes/assumptions/13.md). -/
def State.placeCommand (w : Word) (s : State) : State := s.issueAfter w 0

end Sys2Proof.Machine
end

