-- ==== Sys2Proof/Machine/Step.lean ====
section
/-!
DEFINITION. One step of the machine, and where a step finds the command it runs next.
-/
namespace Sys2Proof.Machine

/-- One step is one turn (Machine/Engine.lean). -/
def step (s : State) : Host.Outcome State Fault Refusal := turn s

/-- `s` with the command word of bits `w` (`nbits` of them given, zeros above) accepted by `CMD` and ready to
run, so that the very next step runs it. The core fetches nothing: a command comes as the data of a `CMD` write
(10_state.md R33, 20_memory.md R64; notes/assumptions/13.md). -/
def State.withFetchWord (s : State) (nbits w : Nat) : State := s.placeCommand (tableWord nbits w)

end Sys2Proof.Machine
end

