-- ==== Sys2Proof/Machine/Limbs.lean ====
section
/-!
DEFINITION. The datapath units at limb level: adder, subtractor, multipliers, dividers, shifters, comparator
(41_limb_units.md R120 to R132, R145), and the aligned sum of two mantissas in the 192-bit datapath (00_scope.md
R9). No command calls them: results are defined on numbers (00_scope.md R18, Machine/Units.lean), and these are
the hardware that computes them, pure functions without state (41_limb_units.md R146; DESIGN CHOICE, safe: notes/assumptions/12.md).
-/
namespace Sys2Proof.Machine

/-- `value(X)`, the sum of `X[i] * 2^(32 i)` (41_limb_units.md R120). -/
def limbsValue : Limbs → Nat
  | [] => 0
  | x :: xs => x.toNat + 2 ^ 32 * limbsValue xs

/-- The array of `n` limbs that stands for `v mod 2^(32 n)` (41_limb_units.md R120). -/
def limbsOf : Nat → Nat → Limbs
  | 0, _ => []
  | n + 1, v => BitVec.ofNat 32 v :: limbsOf n (v / 2 ^ 32)

/-- Zero extension to `n` limbs (41_limb_units.md R120). -/
def extendLimbs (n : Nat) (xs : Limbs) : Limbs := xs ++ List.replicate (n - xs.length) 0

/-- `is_all_zero(X)` (41_limb_units.md R121). -/
def isAllZero (xs : Limbs) : Bool := xs.all (· == 0)

/-- The comparator's scan on arrays of one length, the most significant limb first (41_limb_units.md R122). -/
def compareScan : Limbs → Limbs → Ordering
  | x :: xs, y :: ys =>
    match compareScan xs ys with
    | .eq => compare x.toNat y.toNat
    | decided => decided
  | _, _ => .eq

/-- `compare_magnitude(X, Y)`, the shorter array zero-extended (41_limb_units.md R122). -/
def compareLimbs (xs ys : Limbs) : Ordering :=
  compareScan (extendLimbs ys.length xs) (extendLimbs xs.length ys)

/-- `add_with_carry` from carry-in `c`: the sum and the carry-out (41_limb_units.md R123). -/
def addFrom : Limbs → Limbs → Nat → Limbs × Nat
  | [], _, c => ([], c)
  | x :: xs, ys, c =>
    let t := x.toNat + (ys.headD 0).toNat + c
    let rest := addFrom xs ys.tail (t / 2 ^ 32)
    (BitVec.ofNat 32 t :: rest.1, rest.2)

/-- `add_with_carry(X, Y)` (41_limb_units.md R123). -/
def addLimbs (xs ys : Limbs) : Limbs × Nat := addFrom xs ys 0

/-- `sub_with_carry` from borrow-in `b`: the difference and the borrow-out (41_limb_units.md R124). -/
def subFrom : Limbs → Limbs → Nat → Limbs × Nat
  | [], _, b => ([], b)
  | x :: xs, ys, b =>
    let t : Int := (x.toNat : Int) - ((ys.headD 0).toNat : Int) - (b : Int)
    let rest := subFrom xs ys.tail (if t < 0 then 1 else 0)
    (BitVec.ofInt 32 t :: rest.1, rest.2)

/-- `sub_with_carry(X, Y)` (41_limb_units.md R124). -/
def subLimbs (xs ys : Limbs) : Limbs × Nat := subFrom xs ys 0

/-- `mul_by_small` from carry-in `c` (41_limb_units.md R125). -/
def mulSmallFrom : Limbs → Word → Nat → Limbs × Nat
  | [], _, c => ([], c)
  | x :: xs, k, c =>
    let t := x.toNat * k.toNat + c
    let rest := mulSmallFrom xs k (t / 2 ^ 32)
    (BitVec.ofNat 32 t :: rest.1, rest.2)

/-- `mul_by_small(X, k)`: the product and the overflow limb (41_limb_units.md R125). -/
def mulBySmall (xs : Limbs) (k : Word) : Limbs × Nat := mulSmallFrom xs k 0

/-- One row of the long multiplication: `x * Y` added into the low limbs of `P`, the carry put into the limb
above them (41_limb_units.md R126). -/
def mulRow (x : Word) : Limbs → Limbs → Nat → Limbs
  | [], _ :: ps, c => BitVec.ofNat 32 c :: ps
  | y :: ys, p :: ps, c =>
    let t := x.toNat * y.toNat + p.toNat + c
    BitVec.ofNat 32 t :: mulRow x ys ps (t / 2 ^ 32)
  | _, [], _ => []

/-- The rows of the long multiplication, each one limb higher than the last (41_limb_units.md R126). -/
def mulRows : Limbs → Limbs → Limbs → Limbs
  | [], _, ps => ps
  | x :: xs, ys, ps =>
    match mulRow x ys ps 0 with
    | [] => []
    | p :: rest => p :: mulRows xs ys rest

/-- `mul96x96(X, Y)`, six limbs (41_limb_units.md R126). -/
def mul96x96 (xs ys : Limbs) : Limbs := mulRows xs ys (List.replicate 6 0)

/-- `div_by_small`, the most significant limb first: quotient and remainder (41_limb_units.md R127). -/
def divSmallFrom (k : Word) : Limbs → Limbs × Nat
  | [] => ([], 0)
  | x :: xs =>
    let above := divSmallFrom k xs
    let t := above.2 * 2 ^ 32 + x.toNat
    (BitVec.ofNat 32 (t / k.toNat) :: above.1, t % k.toNat)

/-- `div_by_small(X, k)`, with no result for `k = 0` (41_limb_units.md R127). -/
def divBySmall (xs : Limbs) (k : Word) : Option (Limbs × Nat) :=
  if k = 0 then none else some (divSmallFrom k xs)

/-- `divrem(N, D)`: `div_by_small` when `value(D) < 2^32`, otherwise an exact division of the values; the
quotient has the length of `N`, the remainder three limbs; no result for a zero divisor (41_limb_units.md R128). -/
def divremLimbs (ns ds : Limbs) : Option (Limbs × Limbs) :=
  if limbsValue ds = 0 then none
  else if limbsValue ds < 2 ^ 32 then
    (divBySmall ns (BitVec.ofNat 32 (limbsValue ds))).map fun qr => (qr.1, limbsOf 3 qr.2)
  else
    some (limbsOf ns.length (limbsValue ns / limbsValue ds), limbsOf 3 (limbsValue ns % limbsValue ds))

/-- One row of the shifter's constants, `k` and the limbs of `10^k` (41_limb_units.md R129). -/
structure TenPower where
  k : Nat
  hi : Word
  mid : Word
  lo : Word
  deriving DecidableEq, Repr

/-- The limbs of a row, least significant first. -/
def TenPower.limbs (p : TenPower) : Limbs := [p.lo, p.mid, p.hi]

/-- The constants `10^0 .. 10^9`, one limb each (41_limb_units.md R129). -/
def tenPowersLow : List TenPower :=
  [⟨0, 0x00000000, 0x00000000, 0x00000001⟩, ⟨1, 0x00000000, 0x00000000, 0x0000000A⟩,
   ⟨2, 0x00000000, 0x00000000, 0x00000064⟩, ⟨3, 0x00000000, 0x00000000, 0x000003E8⟩,
   ⟨4, 0x00000000, 0x00000000, 0x00002710⟩, ⟨5, 0x00000000, 0x00000000, 0x000186A0⟩,
   ⟨6, 0x00000000, 0x00000000, 0x000F4240⟩, ⟨7, 0x00000000, 0x00000000, 0x00989680⟩,
   ⟨8, 0x00000000, 0x00000000, 0x05F5E100⟩, ⟨9, 0x00000000, 0x00000000, 0x3B9ACA00⟩]

/-- The constants `10^10 .. 10^19`, two limbs each (41_limb_units.md R129). -/
def tenPowersMid : List TenPower :=
  [⟨10, 0x00000000, 0x00000002, 0x540BE400⟩, ⟨11, 0x00000000, 0x00000017, 0x4876E800⟩,
   ⟨12, 0x00000000, 0x000000E8, 0xD4A51000⟩, ⟨13, 0x00000000, 0x00000918, 0x4E72A000⟩,
   ⟨14, 0x00000000, 0x00005AF3, 0x107A4000⟩, ⟨15, 0x00000000, 0x00038D7E, 0xA4C68000⟩,
   ⟨16, 0x00000000, 0x002386F2, 0x6FC10000⟩, ⟨17, 0x00000000, 0x01634578, 0x5D8A0000⟩,
   ⟨18, 0x00000000, 0x0DE0B6B3, 0xA7640000⟩, ⟨19, 0x00000000, 0x8AC72304, 0x89E80000⟩]

/-- The constants `10^20 .. 10^28`, three limbs each (41_limb_units.md R129). -/
def tenPowersHigh : List TenPower :=
  [⟨20, 0x00000005, 0x6BC75E2D, 0x63100000⟩, ⟨21, 0x00000036, 0x35C9ADC5, 0xDEA00000⟩,
   ⟨22, 0x0000021E, 0x19E0C9BA, 0xB2400000⟩, ⟨23, 0x0000152D, 0x02C7E14A, 0xF6800000⟩,
   ⟨24, 0x0000D3C2, 0x1BCECCED, 0xA1000000⟩, ⟨25, 0x00084595, 0x16140148, 0x4A000000⟩,
   ⟨26, 0x0052B7D2, 0xDCC80CD2, 0xE4000000⟩, ⟨27, 0x033B2E3C, 0x9FD0803C, 0xE8000000⟩,
   ⟨28, 0x204FCE5E, 0x3E250261, 0x10000000⟩]

/-- The shifter's constants `10^0 .. 10^28` (41_limb_units.md R129). -/
def tenPowers : List TenPower := tenPowersLow ++ tenPowersMid ++ tenPowersHigh

/-- The constant `10^j`, `j <= 9`, as one limb (41_limb_units.md R129). -/
def smallTenPower (j : Nat) : Word := BitVec.ofNat 32 (10 ^ j)

/-- The shift-up loop: at most `fuel` steps of up to nine digits; the array and the overflow flag
(41_limb_units.md R130). -/
def alignUpLoop : Nat → Limbs → Nat → Bool → Limbs × Bool
  | 0, xs, _, ovf => (xs, ovf)
  | fuel + 1, xs, k, ovf =>
    if k = 0 then (xs, ovf)
    else
      let j := min 9 k
      let p := mulBySmall xs (smallTenPower j)
      alignUpLoop fuel p.1 (k - j) (ovf || decide (p.2 ≠ 0))

/-- `align_up(M, k)`: `M * 10^k` in six limbs and the flag `ovf` (41_limb_units.md R130). -/
def alignUpLimbs (xs : Limbs) (k : Nat) : Limbs × Bool :=
  alignUpLoop k (extendLimbs Config.wideLimbs xs) k false

/-- The shift-down loop: at most `fuel` steps of up to nine digits; `unit` is the weight of the next step's
remainder in the whole remainder `r` (41_limb_units.md R131). -/
def alignDownLoop : Nat → Limbs → Nat → Nat → Nat → Limbs × Nat
  | 0, xs, _, _, r => (xs, r)
  | fuel + 1, xs, k, unit, r =>
    if k = 0 then (xs, r)
    else
      let j := min 9 k
      let qr := divSmallFrom (smallTenPower j) xs
      alignDownLoop fuel qr.1 (k - j) (unit * 10 ^ j) (r + qr.2 * unit)

/-- `align_down(M, k)`: quotient and remainder by `10^k` (41_limb_units.md R131). -/
def alignDownLimbs (xs : Limbs) (k : Nat) : Limbs × Nat := alignDownLoop k xs k 1 0

/-- `fits96(X)`: the limbs from index 3 up are zero (41_limb_units.md R132). -/
def fits96Limbs (xs : Limbs) : Bool := isAllZero (xs.drop 3)

/-- `shift_left_1` from shifted-in bit `c`: the array and the bit shifted out (41_limb_units.md R145). -/
def shiftLeftFrom : Limbs → Nat → Limbs × Nat
  | [], c => ([], c)
  | x :: xs, c =>
    let t := 2 * x.toNat + c
    let rest := shiftLeftFrom xs (t / 2 ^ 32)
    (BitVec.ofNat 32 t :: rest.1, rest.2)

/-- `shift_left_1(X)` (41_limb_units.md R145). -/
def shiftLeft1 (xs : Limbs) : Limbs × Nat := shiftLeftFrom xs 0

/-- The mantissa limbs of a Packed Value, lo, mid, hi (10_state.md R22, R37). -/
def mantLimbs (x : PackedBits) : Limbs :=
  [x.extractLsb' 32 32, x.extractLsb' 64 32, x.extractLsb' 96 32]

/-- The 192-bit datapath of ADD and SUB: align both mantissas, add them when the signs agree, otherwise compare
and subtract the smaller from the larger; the sign, the array, and whether any unit overflowed
(42_arithmetic.md R152 on the units of 41_limb_units.md). -/
def addSubDatapath (sa sb : Bool) (ma mb : Limbs) (ka kb : Nat) : Bool × Limbs × Bool :=
  let xa := alignUpLimbs ma ka
  let xb := alignUpLimbs mb kb
  let lost := xa.2 || xb.2
  if sa = sb then
    let sum := addLimbs xa.1 xb.1
    (sa, sum.1, lost || decide (sum.2 ≠ 0))
  else
    match compareLimbs xa.1 xb.1 with
    | .lt =>
      let diff := subLimbs xb.1 xa.1
      (sb, diff.1, lost || decide (diff.2 ≠ 0))
    | .eq | .gt =>
      let diff := subLimbs xa.1 xb.1
      (sa, diff.1, lost || decide (diff.2 ≠ 0))

end Sys2Proof.Machine
end

