-- ==== Sys2Proof/Machine/HostProgram.lean ====
section
/-!
DEFINITION. The host-program operations and pseudo-instructions, expanded to bus operations
(30_encoding.md R79, R80).
-/
namespace Sys2Proof.Machine

/-- `WR <name>, v` (30_encoding.md R79). -/
def opWr (w : WindowRow) (v : Word) : HostOp := .write (rowAddress w) 4 v

/-- `RD <name>` (30_encoding.md R79). -/
def opRd (w : WindowRow) : HostOp := .read (rowAddress w) 4

/-- `LDA` of a Packed Value: its four words, low first (30_encoding.md R80). -/
def opsLda (x : PackedBits) : List HostOp :=
  [opWr .aFlags (wordOf x 0), opWr .aLo (wordOf x 1), opWr .aMid (wordOf x 2), opWr .aHi (wordOf x 3)]

/-- `LDB` of a Packed Value (30_encoding.md R80). -/
def opsLdb (x : PackedBits) : List HostOp :=
  [opWr .bFlags (wordOf x 0), opWr .bLo (wordOf x 1), opWr .bMid (wordOf x 2), opWr .bHi (wordOf x 3)]

/-- `EXEC <command>`: write its word to `CMD`, then `WAIT` (30_encoding.md R80). -/
def opsExec (i : Instr) : List HostOp := [opWr .cmd (encode i), .waitDone]

/-- `GETR` (30_encoding.md R80). -/
def opsGetr : List HostOp := [opRd .rFlags, opRd .rLo, opRd .rMid, opRd .rHi]

/-- `ROUNDDP #dp`, the command `ROUND.RNE #dp` (30_encoding.md R80). -/
def roundDp (dp : Nat) : Instr := .roundRne dp

end Sys2Proof.Machine
end

