-- ==== Sys2Proof/Safety.lean ====
section
/-!
DEFINITION. What claims are stated in: the launch state and the end of a run, the invariant of the machine, and the
ways a command completes (70_reset_and_hazards.md R253, R259, R265; 60_exceptions.md R222).
-/
namespace Sys2Proof.Machine

/-- The launch state of a run (70_reset_and_hazards.md R253). -/
structure State.LaunchReady (s : State) : Prop where
  idle : s.status.busy = false
  clean : s.status.pv = false
  nothingInFlight : s.inFlight = none

/-- A host program's run has ended (70_reset_and_hazards.md R265). -/
def State.RunEnded (s : State) : Prop := s.program = [] ∧ s.status.busy = false

/-- It is the host's turn: no command in flight, or one that still waits. -/
def State.HostMoves (s : State) : Prop := ∀ f, s.inFlight = some f → f.wait ≠ 0

/-- What a host turn leaves of the command in flight: one slot less to wait. -/
def State.waited (s : State) : Option InFlight := s.inFlight.map fun f => { f with wait := f.wait - 1 }

/-- The invariant of the machine: what the spec says holds of the registers at all times. -/
structure State.Inv (s : State) : Prop where
  /-- A command is in flight exactly while `BUSY` is 1 (10_state.md R31, R36). -/
  busyWhileInFlight : s.status.busy = s.inFlight.isSome
  /-- The in-flight copy equals the registers (10_state.md R36). -/
  copyIsRegisters : ∀ f, s.inFlight = some f → f.cmd = s.cmd ∧ f.a = s.a ∧ f.b = s.b
  /-- `R` holds a valid Packed Value (10_state.md R23). -/
  resultValid : isValid s.r = true
  /-- `ERR = 1` exactly when `ECODE != 0` (10_state.md R31). -/
  errIffCode : s.status.err = true ↔ s.status.ecode ≠ .none
  /-- While a command executes the report of the last one is cleared (70_reset_and_hazards.md R257). -/
  clearedWhileBusy : s.status.busy = true →
    s.status.done = false ∧ s.status.err = false ∧ s.status.cmpres = .none
  /-- `CMPRES` is `00` after any command other than a successful CMP (10_state.md R31). -/
  compareOnlyAfterCmp : s.status.cmpres ≠ .none →
    s.status.done = true ∧ s.status.err = false ∧ decodeWord s.cmd = .legal .cmp
  /-- `PV` is 0: the step faults where it would become 1 (60_exceptions.md R226). -/
  noViolation : s.status.pv = false

/-- A command has succeeded with result `v`: `R` is `v`, the other registers are as they were, `STATUS` reports
success (40_value_ops.md R101, 70_reset_and_hazards.md R259). -/
structure SucceedsWith (s : State) (v : PackedBits) (t : State) : Prop where
  result : t.r = v
  regA : t.a = s.a
  regB : t.b = s.b
  command : t.cmd = s.cmd
  report : t.status = { busy := false, done := true, err := false, pv := s.status.pv, ecode := .none,
                        cmpres := s.status.cmpres }
  nothingInFlight : t.inFlight = none
  hostProgram : t.program = s.program
  hostReceived : t.received = s.received

/-- A command has ended in error `e`: only `STATUS` has changed (60_exceptions.md R222). -/
structure EndsInError (s : State) (e : ErrorCode) (t : State) : Prop where
  result : t.r = s.r
  regA : t.a = s.a
  regB : t.b = s.b
  command : t.cmd = s.cmd
  report : t.status = { busy := false, done := true, err := true, pv := s.status.pv, ecode := e,
                        cmpres := .none }
  nothingInFlight : t.inFlight = none
  hostProgram : t.program = s.program
  hostReceived : t.received = s.received

/-- The command answers a next state in which it has succeeded with `v`. -/
def CompletesWith (i : Instr) (s : State) (v : PackedBits) : Prop :=
  ∃ t, exec i s = .next t ∧ SucceedsWith s v t

/-- The command answers a next state in which it has ended in error `e`. -/
def ReportsError (i : Instr) (s : State) (e : ErrorCode) : Prop :=
  ∃ t, exec i s = .next t ∧ EndsInError s e t

/-- Both sampled operands are valid (10_state.md R23). -/
abbrev State.ValidAB (s : State) : Prop := isValid s.opA = true ∧ isValid s.opB = true

/-- The command's word is `word`, and it ends with `INVALID_A` when `A` is not valid: what the rules of all
one-operand commands share (40_value_ops.md R100, R105). -/
def OneOperandRule (i : Instr) (word : Nat) (s : State) : Prop :=
  decodeWord (BitVec.ofNat 32 word) = .legal i ∧ (isValid s.opA = false → ReportsError i s .invalidA)

/-- The command succeeds with the valid value of sign `sign` and scale `dp` that is `y` units of `10^-dp`. -/
def RoundsTo (i : Instr) (s : State) (sign : Bool) (dp : Nat) (y : ℤ) : Prop :=
  ∃ v, CompletesWith i s v ∧ isValid v = true ∧ signOf v = sign ∧ scaleOf v = dp ∧ valOf v * 10 ^ dp = y

/-- A signed magnitude as an integer. -/
def signedInt (sign : Bool) (m : Nat) : Int := if sign then -(m : Int) else m

/-- The integer part of a rational, toward zero. -/
def truncInt (x : ℚ) : ℤ := if 0 ≤ x then ⌊x⌋ else ⌈x⌉

/-- The integer next to a rational away from zero. -/
def awayInt (x : ℚ) : ℤ := if 0 ≤ x then ⌈x⌉ else ⌊x⌋

end Sys2Proof.Machine
end

