-- ==== Sys2Proof/Certificates/Slice0/Obligations.lean ====
section
/-!
DEFINITION. The statements for the provers. Each docstring names the rules of spec/ it formalises; the witnesses for
their hypotheses are in Sys2Proof/Tests/Slice0.lean.
-/
open Sys2Proof Sys2Proof.Machine

/-! ### Encoding -/

/-- Decoding the word, or the bytes in window order, of any well-formed command gives the command back
(30_encoding.md R70 to R78; 20_memory.md R52). -/
def Obligations.DecodeOfEncodeIsIdentity : Prop :=
  ∀ (i : Instr) (rest : List Byte), i.WellFormed →
    decodeWord (encode i) = .legal i ∧ decodeBytes (encodeBytes i ++ rest) = (.legal i, rest)

/-- Every legal word is the word of the one well-formed command it decodes to (30_encoding.md R77, R78). -/
def Obligations.EncodeOfDecodeIsIdentity : Prop :=
  ∀ (w : Word) (i : Instr), decodeWord w = .legal i → i.WellFormed ∧ encode i = w

/-- The illegal words are exactly those of the list in 30_encoding.md R73; one that is executed
ends with `ILLEGAL_COMMAND` whatever `A` and `B` hold; every other word selects the row of its own fields. -/
def Obligations.IllegalWordsAreExactlyTheListedOnes : Prop :=
  ∀ w : Word,
    ((∃ why, decodeWord w = .illegal why) ↔
      opcField w = 0x00 ∨ opcField w ≥ 0x13 ∨ resvField w ≠ 0 ∨ (rmField w ≠ 0 ∧ opcField w ≠ 0x08) ∨
        (opcField w = 0x08 ∧ rmField w = 7) ∨
        (immField w ≠ 0 ∧ ¬ (opcField w = 0x07 ∨ opcField w = 0x08 ∨ opcField w = 0x10))) ∧
    (∀ (why : IllegalReason) (s : State), decodeWord w = .illegal why →
      ∃ t, runWord w s = .next t ∧ EndsInError s .illegalCommand t) ∧
    (∀ i, decodeWord w = .legal i →
      i.opcode = opcField w ∧ i.rmCode = rmField w ∧ i.immCode = immField w)

/-- Of all words, the legal ones match exactly one row of spec/opcode_table.json, the row of their mnemonic, and the
illegal ones match none (30_encoding.md R77). -/
def Obligations.LegalWordsMatchExactlyOneTableRow : Prop :=
  ∀ w : Word,
    (∀ i, decodeWord w = .legal i →
      ∃ row, opcodeTable.filter (fun r => r.matchesWord w) = [row] ∧ row.mnemonic = i.mnemonic) ∧
    (∀ why, decodeWord w = .illegal why → opcodeTable.filter (fun r => r.matchesWord w) = [])

/-- Words written out from the field table of 30_encoding.md R70, R72, R74 decode to the commands they stand for,
one of each family. -/
def Obligations.SampleWordsDecode : Prop :=
  decodeWord 0b0000000000000000_00000000_000_00001 = .legal .add ∧
  decodeWord 0b0000000000000000_00000000_000_00110 = .legal .cmp ∧
  decodeWord 0b0000000000000000_00101000_000_00111 = .legal (.rescale 40) ∧
  decodeWord 0b0000000000000000_00000010_101_01000 = .legal (.roundRfloor 2) ∧
  decodeWord 0b0000000000000000_00011101_000_10000 = .legal (.setscale 29) ∧
  decodeWord 0b0000000000000000_00000000_000_10001 = .legal .movra

/-! ### The turn, the window and the command protocol -/

/-- A word in flight whose slots have passed, legal or not and whatever the host has to do, is run by the next step and
nothing more happens: exec of `i` for a word that decodes to `i`, `ILLEGAL_COMMAND` for an illegal word. So is a word
placed with `withFetchWord` (40_value_ops.md R100, 30_encoding.md R73). The waiting slots are the model's reading of
`LAT` (notes/assumptions/2.md, 13.md; 70_reset_and_hazards.md section 2). -/
def Obligations.StepRunsTheDecodedCommand : Prop :=
  (∀ (s : State) (f : InFlight), s.inFlight = some f → f.wait = 0 →
    step s = runWord f.cmd s ∧
    (∀ i, decodeWord f.cmd = .legal i → step s = exec i s) ∧
    (∀ why, decodeWord f.cmd = .illegal why → ∃ t, step s = .next t ∧ EndsInError s .illegalCommand t)) ∧
  (∀ (s : State) (w : Word), step (s.withFetchWord 32 w.toNat) = runWord w (s.withFetchWord 32 w.toNat)) ∧
  (∀ (s : State) (i : Instr), i.WellFormed →
    step (s.withFetchWord 32 (encode i).toNat) = exec i (s.withFetchWord 32 (encode i).toNat))

/-- A write of `CMD` while idle issues the command: word and operands are sampled, `BUSY` is set, the report of the
last command is cleared, and `A`, `B`, `R`, `PV` stay (70_reset_and_hazards.md R257, its issue block). How many
slots the command then waits is free (notes/assumptions/2.md). -/
def Obligations.WriteOfCmdIssuesTheCommand : Prop :=
  ∀ (s : State) (v : Word) (rest : List HostOp), s.program = opWr .cmd v :: rest → s.inFlight = none →
    s.status.busy = false →
    ∃ t wait, step s = .next t ∧ t.cmd = v ∧
      t.inFlight = some { cmd := v, a := s.a, b := s.b, wait := wait } ∧
      t.status = { busy := true, done := false, err := false, pv := s.status.pv, ecode := .none,
                   cmpres := .none } ∧
      t.a = s.a ∧ t.b = s.b ∧ t.r = s.r ∧ t.program = rest ∧ t.received = s.received

/-- The whole of `MemWrite` (20_memory.md R56, R57): a write of a word of `A` or `B`, or of `CMD`, while busy only sets
`PV`; otherwise a word of `A` or `B` changes and no other word of the window does, a `CMD` write issues its word,
and a write of any other row changes nothing. A host turn that writes any row while idle answers a next state with
exactly that write made; that the turn takes the host's operation and one slot is the model's choice
(notes/assumptions/1.md, 2.md). -/
def Obligations.RowWritesFollowTheMap : Prop :=
  (∀ (s : State) (w : WindowRow) (v : Word) (rest : List HostOp), s.HostMoves → s.program = opWr w v :: rest →
    s.status.busy = false →
    step s = .next (writeRow w v { s with program := rest, inFlight := s.waited })) ∧
  ∀ (s : State) (w : WindowRow) (v : Word),
    (s.status.busy = true →
      w ∈ [.aFlags, .aLo, .aMid, .aHi, .bFlags, .bLo, .bMid, .bHi, .cmd] →
      writeRow w v s = { s with status := { s.status with pv := true } }) ∧
    (s.status.busy = false → w ∈ [.aFlags, .aLo, .aMid, .aHi, .bFlags, .bLo, .bMid, .bHi] →
      (∀ w', readRow (writeRow w v s) w' = if w' = w then v else readRow s w') ∧
      (writeRow w v s).inFlight = s.inFlight ∧ (writeRow w v s).status = s.status ∧
      (writeRow w v s).r = s.r ∧ (writeRow w v s).cmd = s.cmd) ∧
    (s.status.busy = false → w = .cmd → writeRow w v s = s.issue v ∧ (writeRow w v s).cmd = v) ∧
    (w ∈ [.status, .reserved28, .reserved2C, .rFlags, .rLo, .rMid, .rHi] → writeRow w v s = s)

/-- A host turn that writes `A`, `B` or `CMD` while busy: the core drops the write and sets `PV`, and the model stops
with `ProtocolViolation` (70_reset_and_hazards.md R261, 60_exceptions.md R226; notes/assumptions/8.md). A write of any other row while busy
changes no register; that it uses up one of the command's waiting slots is the model's choice
(notes/assumptions/2.md). -/
def Obligations.WritesWhileBusyAreDroppedAndFault : Prop :=
  ∀ (s : State) (w : WindowRow) (v : Word) (rest : List HostOp), s.HostMoves →
    s.program = opWr w v :: rest → s.status.busy = true →
    (w ∈ [.aFlags, .aLo, .aMid, .aHi, .bFlags, .bLo, .bMid, .bHi, .cmd] →
      step s = .fault .protocolViolation ∧
      (writeRow w v s).status = { s.status with pv := true } ∧ (writeRow w v s).a = s.a ∧
      (writeRow w v s).b = s.b ∧ (writeRow w v s).cmd = s.cmd ∧ (writeRow w v s).inFlight = s.inFlight) ∧
    (w ∈ [.status, .reserved28, .reserved2C, .rFlags, .rLo, .rMid, .rHi] →
      step s = .next { s with program := rest, inFlight := s.waited })

/-- An access gets a bus error unless it is 32 bits wide, at a multiple of 4, inside the window
(20_memory.md R50, R54; 60_exceptions.md R226; notes/assumptions/9.md). -/
def Obligations.OnlyAlignedWordAccessesAreAccepted : Prop :=
  ∀ (addr width : Nat) (v : Word) (s : State),
    (busRead addr width s = .fault .busError ↔
      ¬ (width = 4 ∧ addr % 4 = 0 ∧ Config.base ≤ addr ∧ addr < Config.base + 64)) ∧
    (busWrite addr width v s = .fault .busError ↔
      ¬ (width = 4 ∧ addr % 4 = 0 ∧ Config.base ≤ addr ∧ addr < Config.base + 64))

/-- A host turn that reads a row gets the row's word, 0 for a reserved row, and changes no register
(20_memory.md R51, R55). Where the word goes and the slot that passes are the model's (notes/assumptions/10.md, 2.md). -/
def Obligations.ReadsReturnTheRowAndChangeNothing : Prop :=
  (∀ (s : State) (w : WindowRow) (rest : List HostOp), s.HostMoves → s.program = opRd w :: rest →
    step s = .next { s with program := rest, received := readRow s w :: s.received, inFlight := s.waited }) ∧
  (∀ s : State,
    [WindowRow.aFlags, .aLo, .aMid, .aHi].map (readRow s) = (List.range 4).map (fun j => s.a.extractLsb' (32 * j) 32) ∧
    [WindowRow.bFlags, .bLo, .bMid, .bHi].map (readRow s) = (List.range 4).map (fun j => s.b.extractLsb' (32 * j) 32) ∧
    [WindowRow.rFlags, .rLo, .rMid, .rHi].map (readRow s) = (List.range 4).map (fun j => s.r.extractLsb' (32 * j) 32) ∧
    readRow s .cmd = s.cmd ∧ readRow s .status = s.status.word ∧ readRow s .reserved28 = 0 ∧
    readRow s .reserved2C = 0)

/-- The `STATUS` word a host reads: `BUSY`, `DONE`, `ERR`, `PV` in bits 0 to 3, the comparison result in bits 9:8,
and zeros in bits 31:10 (10_state.md R31; the numbers of the error codes: `ErrorCodesBelongToTheirCommands`). -/
def Obligations.StatusWordHasItsFields : Prop :=
  ∀ st : Status,
    st.word.getLsbD 0 = st.busy ∧ st.word.getLsbD 1 = st.done ∧ st.word.getLsbD 2 = st.err ∧
    st.word.getLsbD 3 = st.pv ∧
    (st.word.extractLsb' 8 2).toNat =
      (match st.cmpres with
      | .none => 0
      | .less => 1
      | .equal => 2
      | .greater => 3) ∧
    st.word.extractLsb' 10 22 = 0

/-- The bytes of the window: byte `i` of a row's word holds its bits `8i+7:8i`, and the sixteen bytes of a register
are its little-endian image (20_memory.md R52). -/
def Obligations.WindowBytesAreLittleEndian : Prop :=
  ∀ s : State,
    (∀ w i, i < 4 → windowByte s (rowOffset w + i) = some ((readRow s w).extractLsb' (8 * i) 8)) ∧
    (∀ o, o < 16 →
      windowByte s o = some (s.a.extractLsb' (8 * o) 8) ∧
      windowByte s (0x10 + o) = some (s.b.extractLsb' (8 * o) 8) ∧
      windowByte s (0x30 + o) = some (s.r.extractLsb' (8 * o) 8))

/-- After reset every row of the window reads 0, no command is in flight, and the machine is in the launch state
(70_reset_and_hazards.md R250, R251, R253). -/
def Obligations.ResetLeavesEveryRegisterZero : Prop :=
  (∀ w, readRow State.reset w = 0) ∧ State.reset.inFlight = none ∧ State.reset.LaunchReady

/-- Asserting reset at any turn of the host puts `A`, `B`, `R`, `CMD` and `STATUS` to 0 and abandons the command in
flight (70_reset_and_hazards.md R250). That the host's own program and received words stay is the model's choice
(notes/assumptions/11.md). -/
def Obligations.ResetInputRestoresTheResetState : Prop :=
  ∀ (s : State) (rest : List HostOp), s.HostMoves → s.program = .reset :: rest →
    ∃ t, step s = .next t ∧ t.a = 0 ∧ t.b = 0 ∧ t.r = 0 ∧ t.cmd = 0 ∧ t.status = State.reset.status ∧
      t.inFlight = none ∧ t.program = rest ∧ t.received = s.received

/-- With a quiet host, the command in flight runs on the turn after its waiting slots, and is complete then
(70_reset_and_hazards.md R258, R259; the slots: notes/assumptions/2.md). -/
def Obligations.CommandCompletesWhenItsSlotsHavePassed : Prop :=
  ∀ (s : State) (f : InFlight), s.inFlight = some f → s.program = [] →
    Host.Core.run core (f.wait + 1) s = runWord f.cmd (s.tick f 0) ∧
    ∃ t : State, Host.Core.run core (f.wait + 1) s = .next t ∧ t.inFlight = none ∧ t.status.busy = false ∧
      t.status.done = true

/-- `EXEC <command>` (30_encoding.md R80) from an idle core always ends, whatever the latency, with the registers as
the command's own meaning leaves them and the host past its `WAIT`, having read the final `STATUS` last
(70_reset_and_hazards.md R257 to R259). The number of turns and the list of words read are the model's
(notes/assumptions/2.md, 10.md). -/
def Obligations.ExecThenWaitGivesTheCommandsResult : Prop :=
  ∀ (s : State) (i : Instr) (rest : List HostOp), i.WellFormed → s.program = opsExec i ++ rest →
    s.inFlight = none → s.status.busy = false →
    ∃ t u : State, Host.Core.run core (Config.lat (encode i) s.a s.b s.r + 3) s = .next t ∧
      exec i (s.placeCommand (encode i)) = .next u ∧
      t.a = u.a ∧ t.b = u.b ∧ t.r = u.r ∧ t.cmd = u.cmd ∧ t.status = u.status ∧
      t.inFlight = none ∧ t.program = rest ∧ t.received.head? = some t.status.word

/-- `R` changes only when a command that produces a value completes successfully, or at a reset
(10_state.md R29, 70_reset_and_hazards.md R259). -/
def Obligations.ResultChangesOnlyAtCompletion : Prop :=
  ∀ s t : State, step s = .next t → t.r ≠ s.r →
    (∃ f i, s.inFlight = some f ∧ f.wait = 0 ∧ decodeWord f.cmd = .legal i ∧ i.writesR = true ∧
      t.status.err = false ∧ t.status.done = true ∧ t.inFlight = none) ∨
    (∃ rest, s.program = .reset :: rest ∧ t.r = 0)

/-- `A` changes only by a host write of one of its words while idle, by MOVRA, or at a reset; `B` likewise, by MOVRB
(10_state.md R27, R28; 70_reset_and_hazards.md R260). -/
def Obligations.OperandsChangeOnlyByHostWritesAndMoves : Prop :=
  ∀ s t : State, step s = .next t →
    (t.a ≠ s.a →
      (∃ f, s.inFlight = some f ∧ f.wait = 0 ∧ decodeWord f.cmd = .legal .movra ∧ t.a = s.r) ∨
      (∃ w v rest, s.program = opWr w v :: rest ∧ w ∈ [.aFlags, .aLo, .aMid, .aHi] ∧
        s.status.busy = false) ∨
      (∃ rest, s.program = .reset :: rest ∧ t.a = 0)) ∧
    (t.b ≠ s.b →
      (∃ f, s.inFlight = some f ∧ f.wait = 0 ∧ decodeWord f.cmd = .legal .movrb ∧ t.b = s.r) ∨
      (∃ w v rest, s.program = opWr w v :: rest ∧ w ∈ [.bFlags, .bLo, .bMid, .bHi] ∧
        s.status.busy = false) ∨
      (∃ rest, s.program = .reset :: rest ∧ t.b = 0))

/-- `CMD` changes only by a host write of it while idle or at a reset: the core never writes it (10_state.md R30); and
`PV` is sticky, cleared only by reset (10_state.md R32). -/
def Obligations.CmdIsTheHostsAndViolationIsSticky : Prop :=
  ∀ s t : State, step s = .next t →
    (t.cmd ≠ s.cmd →
      (∃ v rest, s.program = opWr .cmd v :: rest ∧ s.status.busy = false ∧ t.cmd = v) ∨
      (∃ rest, s.program = .reset :: rest ∧ t.cmd = 0)) ∧
    (s.status.pv = true → t.status.pv = true ∨ ∃ rest, s.program = .reset :: rest)

/-- Every step keeps the invariant: BUSY exactly while a command is in flight, the in-flight copy equal to the
registers, `R` valid, ERR exactly when ECODE is nonzero, the report cleared while busy, CMPRES only after a successful
CMP, PV zero (10_state.md R23, R31, R36; 70_reset_and_hazards.md R257). PV stays 0 because the model faults instead
(notes/assumptions/8.md). -/
def Obligations.EveryStepKeepsTheInvariant : Prop :=
  ∀ s t : State, s.Inv → step s = .next t → t.Inv

/-- The reset state meets the invariant (70_reset_and_hazards.md R250). -/
def Obligations.ResetMeetsTheInvariant : Prop := State.reset.Inv

/-! ### Every command -/

/-- Every command, in every state, answers a next state in which it is complete: it never stops the machine
(00_scope.md R17; 40_value_ops.md R100; 60_exceptions.md R220), and the divider's fault is never reached
(41_limb_units.md R127). -/
def Obligations.EveryCommandCompletes : Prop :=
  ∀ (i : Instr) (s : State), ∃ t, exec i s = .next t ∧ t.inFlight = none ∧ t.status.busy = false ∧
    t.status.done = true ∧ (t.status.err = true ↔ t.status.ecode ≠ .none)

/-- A step refuses nothing, and each fault has its one cause: `BusError` exactly when it is the host's turn and its
access is not an aligned 32-bit one inside the window, `ProtocolViolation` exactly when it is the host's turn and it
writes `A`, `B` or `CMD` while busy; in every other case a next state follows (60_exceptions.md R225, R226;
20_memory.md R54; 70_reset_and_hazards.md R261; notes/assumptions/8.md, 9.md). Which turns are the host's is the
model's choice (notes/assumptions/2.md). -/
def Obligations.StepFaultsOnlyOnHostAccesses : Prop :=
  ∀ s : State,
    (step s = .fault .busError ↔ s.HostMoves ∧ ∃ addr width rest,
      (s.program = .read addr width :: rest ∨ ∃ v, s.program = .write addr width v :: rest) ∧
      ¬ (width = 4 ∧ addr % 4 = 0 ∧ Config.base ≤ addr ∧ addr < Config.base + 64)) ∧
    (step s = .fault .protocolViolation ↔ s.HostMoves ∧ s.status.busy = true ∧ ∃ w v rest,
      s.program = opWr w v :: rest ∧ w ∈ [.aFlags, .aLo, .aMid, .aHi, .bFlags, .bLo, .bMid, .bHi, .cmd]) ∧
    ((∃ t, step s = .next t) ∨ step s = .fault .busError ∨ step s = .fault .protocolViolation)

/-- What a command does depends only on the operands sampled at issue, on `R`, and on the registers it passes through;
not on CMD, the time waited, the working buffers, or the host (00_scope.md R17, 70_reset_and_hazards.md R257,
10_state.md R37). -/
def Obligations.EffectDependsOnlyOnTheSample : Prop :=
  ∀ (i : Instr) (s s' t t' : State), s.opA = s'.opA → s.opB = s'.opB → s.r = s'.r → s.a = s'.a → s.b = s'.b →
    s.status = s'.status → exec i s = .next t → exec i s' = .next t' →
    t.a = t'.a ∧ t.b = t'.b ∧ t.r = t'.r ∧ t.status = t'.status

/-- The one-operand commands neither read nor validate `B`: whatever the two `B`s, result and report agree, and
`INVALID_B` is never the report (40_value_ops.md R105). -/
def Obligations.OneOperandCommandsIgnoreB : Prop :=
  ∀ (i : Instr) (s s' t t' : State), i.readsA = true → i.readsB = false → s.opA = s'.opA → s.r = s'.r →
    s.status = s'.status → exec i s = .next t → exec i s' = .next t' →
    t.r = t'.r ∧ t.status = t'.status ∧ t.status.ecode ≠ .invalidB

/-- The priority of errors: an illegal word before all, then `INVALID_A`, then `INVALID_B`, then the command's own
check, and `OVERFLOW` only when none of them applies (60_exceptions.md R223). -/
def Obligations.ErrorsFollowThePriority : Prop :=
  (∀ (w : Word) (why : IllegalReason) (s : State), decodeWord w = .illegal why →
    ∃ t, runWord w s = .next t ∧ EndsInError s .illegalCommand t) ∧
  (∀ (i : Instr) (s : State),
    (i.readsA = true → isValid s.opA = false → ReportsError i s .invalidA) ∧
    (i.readsB = true → isValid s.opA = true → isValid s.opB = false → ReportsError i s .invalidB) ∧
    (i = .div ∨ i = .rem → s.ValidAB → mantOf s.opB = 0 → ReportsError i s .divByZero) ∧
    (∀ imm, i = .setscale imm → isValid s.opA = true → 28 < imm → ReportsError i s .scaleOutOfRange) ∧
    (∀ t, exec i s = .next t → t.status.ecode = .overflow →
      s.ValidAB ∧ (i = .div ∨ i = .rem → mantOf s.opB ≠ 0)))

/-- Errors are precise: a command that reports an error has changed `STATUS` and nothing else the host can see
(60_exceptions.md R222). -/
def Obligations.ErrorsArePrecise : Prop :=
  ∀ (i : Instr) (s t : State), exec i s = .next t → t.status.err = true →
    t.status.ecode ≠ .none ∧ EndsInError s t.status.ecode t

/-- Which command reports which error, and the codes as `STATUS` shows them (60_exceptions.md R221). -/
def Obligations.ErrorCodesBelongToTheirCommands : Prop :=
  (∀ (i : Instr) (s t : State), exec i s = .next t →
    (t.status.ecode = .overflow → i ∈ [.add, .sub, .mul, .div]) ∧
    (t.status.ecode = .divByZero → i ∈ [.div, .rem] ∧ mantOf s.opB = 0) ∧
    (t.status.ecode = .invalidA → i.readsA = true ∧ isValid s.opA = false) ∧
    (t.status.ecode = .invalidB → i.readsB = true ∧ isValid s.opB = false) ∧
    t.status.ecode ≠ .illegalCommand ∧
    (t.status.ecode = .scaleOutOfRange → ∃ imm, i = .setscale imm ∧ 28 < imm)) ∧
  (∀ st : Status, (st.word.extractLsb' 4 4).toNat =
    match st.ecode with
    | .none => 0
    | .overflow => 1
    | .divByZero => 2
    | .invalidA => 3
    | .invalidB => 4
    | .illegalCommand => 5
    | .scaleOutOfRange => 6)

/-- What no command changes: `CMD`, `PV`, the host's side; `A` but for MOVRA; `B` but for MOVRB; `R` for CMP, the moves
and errors; `CMPRES` but for CMP and errors; and, read byte by byte, every byte of the window outside `STATUS`, the
destination register and nothing else (10_state.md R27 to R31, 40_value_ops.md R101, 60_exceptions.md R222). -/
def Obligations.CommandsChangeOnlyTheirDestination : Prop :=
  ∀ (i : Instr) (s t : State), exec i s = .next t →
    t.cmd = s.cmd ∧ t.status.pv = s.status.pv ∧ t.program = s.program ∧ t.received = s.received ∧
    (i ≠ .movra → t.a = s.a) ∧ (i ≠ .movrb → t.b = s.b) ∧
    (i.writesR = false ∨ t.status.err = true → t.r = s.r) ∧
    (i ≠ .cmp → t.status.err = false → t.status.cmpres = s.status.cmpres) ∧
    (∀ o, o < 64 → ¬ (0x24 ≤ o ∧ o < 0x28) → ¬ (i = .movra ∧ o < 0x10) →
      ¬ (i = .movrb ∧ 0x10 ≤ o ∧ o < 0x20) → ¬ (i.writesR = true ∧ 0x30 ≤ o) →
      windowByte t o = windowByte s o)

/-! ### The value commands and the moves -/

/-- NEG flips the sign bit, of a zero too, and never overflows (40_value_ops.md R102). -/
def Obligations.NegFlipsTheSign : Prop :=
  ∀ s : State, OneOperandRule .neg 0x0E s ∧ (isValid s.opA = true →
    CompletesWith .neg s (pack (!signOf s.opA) (scaleOf s.opA) (mantOf s.opA)) ∧
    valOf (pack (!signOf s.opA) (scaleOf s.opA) (mantOf s.opA)) = -valOf s.opA)

/-- ABS clears the sign bit and keeps scale and mantissa (40_value_ops.md R103). -/
def Obligations.AbsClearsTheSign : Prop :=
  ∀ s : State, OneOperandRule .abs 0x0F s ∧ (isValid s.opA = true →
    CompletesWith .abs s (pack false (scaleOf s.opA) (mantOf s.opA)) ∧
    valOf (pack false (scaleOf s.opA) (mantOf s.opA)) = |valOf s.opA|)

/-- SETSCALE replaces the scale field up to 28 and reports `SCALE_OUT_OF_RANGE` above (40_value_ops.md R104). -/
def Obligations.SetscaleReplacesTheScale : Prop :=
  ∀ (s : State) (imm : Nat), imm ≤ 255 →
    OneOperandRule (.setscale imm) (imm * 2 ^ 8 + 0x10) s ∧ (isValid s.opA = true →
      (imm ≤ 28 → CompletesWith (.setscale imm) s (pack (signOf s.opA) imm (mantOf s.opA))) ∧
      (28 < imm → ReportsError (.setscale imm) s .scaleOutOfRange))

/-- MOVRA copies `R` to `A` and MOVRB copies it to `B`; `R` and the other operand stay, nothing is validated and no
error is possible (40_value_ops.md R106, R107). -/
def Obligations.MovesCopyTheResult : Prop :=
  decodeWord 0x00000011 = .legal .movra ∧ decodeWord 0x00000012 = .legal .movrb ∧
  ∀ s : State,
    (∃ t, exec .movra s = .next t ∧ t.a = s.r ∧ t.r = s.r ∧ t.b = s.b ∧ t.cmd = s.cmd ∧ t.inFlight = none ∧
      t.status = { busy := false, done := true, err := false, pv := s.status.pv, ecode := .none,
                   cmpres := s.status.cmpres }) ∧
    (∃ t, exec .movrb s = .next t ∧ t.b = s.r ∧ t.r = s.r ∧ t.a = s.a ∧ t.cmd = s.cmd ∧ t.inFlight = none ∧
      t.status = { busy := false, done := true, err := false, pv := s.status.pv, ecode := .none,
                   cmpres := s.status.cmpres })

/-! ### Arithmetic -/

/-- The zero short-cut of ADD and SUB: the other operand bit for bit, its sign flipped by SUB only when `A` is zero and
`B` is not (42_arithmetic.md R151). -/
def Obligations.AddSubShortcutsAZero : Prop :=
  ∀ s : State, s.ValidAB →
    (mantOf s.opA = 0 → CompletesWith .add s s.opB) ∧
    (mantOf s.opA = 0 → mantOf s.opB ≠ 0 →
      CompletesWith .sub s (pack (!signOf s.opB) (scaleOf s.opB) (mantOf s.opB))) ∧
    (mantOf s.opA = 0 → mantOf s.opB = 0 → CompletesWith .sub s s.opB) ∧
    (mantOf s.opA ≠ 0 → mantOf s.opB = 0 → CompletesWith .add s s.opA ∧ CompletesWith .sub s s.opA)

/-- ADD (`nb` false) and SUB (`nb` true) of nonzero operands round the exact sum `z` at the common scale, half to even,
at the least number `k` of dropped digits that fits; OVERFLOW when none fits; the sign is that of `z`, and of `A` when
`z` is zero (42_arithmetic.md R152, R153). -/
def Obligations.AddSubRoundsTheExactSum : Prop :=
  ∀ (s : State) (nb : Bool), s.ValidAB → mantOf s.opA ≠ 0 → mantOf s.opB ≠ 0 →
    let i : Instr := if nb then .sub else .add
    let scale := max (scaleOf s.opA) (scaleOf s.opB)
    let z : ℤ := signedInt (signOf s.opA) (mantOf s.opA * 10 ^ (scale - scaleOf s.opA)) +
      signedInt (xor (signOf s.opB) nb) (mantOf s.opB * 10 ^ (scale - scaleOf s.opB))
    ((∀ k, k ≤ scale → ¬ fits96 (rne z.natAbs (10 ^ k))) → ReportsError i s .overflow) ∧
    (∀ k, k ≤ scale → fits96 (rne z.natAbs (10 ^ k)) →
      (∀ j, j < k → ¬ fits96 (rne z.natAbs (10 ^ j))) →
      CompletesWith i s
        (pack (if z = 0 then signOf s.opA else decide (z < 0)) (scale - k) (rne z.natAbs (10 ^ k))))

/-- ADD and SUB are exact whenever the exact sum fits in 96 bits at the common scale, zero operands included
(42_arithmetic.md R151 to R153, 00_scope.md R14). -/
def Obligations.AddSubIsExactWhenItFits : Prop :=
  ∀ (s : State) (nb : Bool), s.ValidAB →
    |valOf s.opA + (if nb then -1 else 1) * valOf s.opB| * 10 ^ max (scaleOf s.opA) (scaleOf s.opB)
      ≤ (Config.maxMant : ℚ) →
    ∃ v, CompletesWith (if nb then .sub else .add) s v ∧
      valOf v = valOf s.opA + (if nb then -1 else 1) * valOf s.opB

/-- MUL: the canonical zero for a zero operand; otherwise the exact product at scale `e1 + e2`, rounded half away from
zero at the least number of dropped digits, at least `e1 + e2 - 28`, that fits; OVERFLOW when none fits; the sign is
the exclusive or of the signs (42_arithmetic.md R156 to R158). -/
def Obligations.MulRoundsTheExactProduct : Prop :=
  ∀ s : State, s.ValidAB →
    let scale := scaleOf s.opA + scaleOf s.opB
    let p := mantOf s.opA * mantOf s.opB
    let least := (max 0 ((scale : ℤ) - 28)).toNat
    (p = 0 → CompletesWith .mul s (pack false 0 0)) ∧
    (p ≠ 0 → (∀ k, least ≤ k → k ≤ scale → ¬ fits96 (rhaz p (10 ^ k))) → ReportsError .mul s .overflow) ∧
    (p ≠ 0 → ∀ k, least ≤ k → k ≤ scale → fits96 (rhaz p (10 ^ k)) →
      (∀ j, least ≤ j → j < k → ¬ fits96 (rhaz p (10 ^ j))) →
      CompletesWith .mul s (pack (xor (signOf s.opA) (signOf s.opB)) (scale - k) (rhaz p (10 ^ k))))

/-- Zero operands of DIV and REM: a zero divisor reports `DIV_BY_ZERO` whatever the dividend; a zero dividend gives the
canonical zero (42_arithmetic.md R160, R166). -/
def Obligations.DivRemZeroOperands : Prop :=
  ∀ s : State, s.ValidAB →
    (mantOf s.opB = 0 → ReportsError .div s .divByZero ∧ ReportsError .rem s .divByZero) ∧
    (mantOf s.opB ≠ 0 → mantOf s.opA = 0 →
      CompletesWith .div s (pack false 0 0) ∧ CompletesWith .rem s (pack false 0 0))

/-- DIV with an exact quotient at the natural scale: the quotient as it stands, or OVERFLOW when it exceeds 96 bits
(42_arithmetic.md R161). -/
def Obligations.DivGivesTheExactQuotient : Prop :=
  ∀ s : State, s.ValidAB → mantOf s.opA ≠ 0 → mantOf s.opB ≠ 0 →
    let n : ℤ := (scaleOf s.opA : ℤ) - scaleOf s.opB
    let scale := (max n 0).toNat
    let dividend := mantOf s.opA * 10 ^ ((scale : ℤ) - n).toNat
    dividend % mantOf s.opB = 0 →
      (fits96 (dividend / mantOf s.opB) →
        CompletesWith .div s
          (pack (xor (signOf s.opA) (signOf s.opB)) scale (dividend / mantOf s.opB))) ∧
      (¬ fits96 (dividend / mantOf s.opB) → ReportsError .div s .overflow)

/-- DIV with an inexact quotient: rounded half to even at the largest scale up to 28 at which it fits, then stripped of
trailing zeros; OVERFLOW when it fits at no scale (42_arithmetic.md R162, R163). -/
def Obligations.DivRoundsAndStripsTheInexactQuotient : Prop :=
  ∀ s : State, s.ValidAB → mantOf s.opA ≠ 0 → mantOf s.opB ≠ 0 →
    let n : ℤ := (scaleOf s.opA : ℤ) - scaleOf s.opB
    let scale := (max n 0).toNat
    let quot : Nat → Nat := fun t => rne (mantOf s.opA * 10 ^ ((t : ℤ) - n).toNat) (mantOf s.opB)
    mantOf s.opA * 10 ^ ((scale : ℤ) - n).toNat % mantOf s.opB ≠ 0 →
      ((∀ t, scale ≤ t → t ≤ 28 → ¬ fits96 (quot t)) → ReportsError .div s .overflow) ∧
      (∀ t, scale ≤ t → t ≤ 28 → fits96 (quot t) → (∀ u, t < u → u ≤ 28 → ¬ fits96 (quot u)) →
        ∃ m e, e ≤ t ∧ quot t = m * 10 ^ (t - e) ∧ (e = 0 ∨ m % 10 ≠ 0) ∧
          CompletesWith .div s (pack (xor (signOf s.opA) (signOf s.opB)) e m))

/-- REM of a nonzero divisor: `A = k * B + r` for an integer `k`, `|r| < |B|`; for a nonzero `A` the result is a valid
value with the sign of `A`, at a scale no smaller than `A`'s, stripped of trailing zeros above it
(42_arithmetic.md R167 to R169, R171; the identity is the spec's own derivation in R171). -/
def Obligations.RemIsTheRemainderOfA : Prop :=
  ∀ s : State, s.ValidAB → mantOf s.opB ≠ 0 →
    ∃ v, CompletesWith .rem s v ∧ isValid v = true ∧ (∃ k : ℤ, valOf s.opA = k * valOf s.opB + valOf v) ∧
      |valOf v| < |valOf s.opB| ∧
      (mantOf s.opA ≠ 0 → signOf v = signOf s.opA ∧ scaleOf s.opA ≤ scaleOf v ∧
        scaleOf v ≤ max (scaleOf s.opA) (scaleOf s.opB) ∧
        (scaleOf v = scaleOf s.opA ∨ mantOf v % 10 ≠ 0))

/-! ### Comparison -/

/-- CMP reports the order of the values in `CMPRES`, writes no other register, and reports invalid operands
(44_compare.md R210, R212). -/
def Obligations.CmpOrdersByValue : Prop :=
  decodeWord 0x00000006 = .legal .cmp ∧
  ∀ s : State,
    (isValid s.opA = false → ReportsError .cmp s .invalidA) ∧
    (isValid s.opA = true → isValid s.opB = false → ReportsError .cmp s .invalidB) ∧
    (s.ValidAB → ∃ t, exec .cmp s = .next t ∧ t.r = s.r ∧ t.a = s.a ∧ t.b = s.b ∧ t.cmd = s.cmd ∧
      t.inFlight = none ∧
      t.status = { busy := false, done := true, err := false, pv := s.status.pv, ecode := .none,
                   cmpres := if valOf s.opA < valOf s.opB then .less
                     else if valOf s.opA = valOf s.opB then .equal else .greater })

/-- CMP with the operands swapped answers `01` for `11` and back, and `10` for `10`
(44_compare.md R213, the spec's own derivation). -/
def Obligations.CmpSwapsItsAnswer : Prop :=
  ∀ s s' t t' : State, s.ValidAB → s'.opA = s.opB → s'.opB = s.opA → exec .cmp s = .next t →
    exec .cmp s' = .next t' →
    t.status.cmpres ≠ .none ∧ (t.status.cmpres = .less ↔ t'.status.cmpres = .greater) ∧
      (t.status.cmpres = .equal ↔ t'.status.cmpres = .equal) ∧
      (t.status.cmpres = .greater ↔ t'.status.cmpres = .less)

/-! ### Rounding and rescaling -/

/-- RESCALE to `min(imm, 28)`: `A` itself at the same scale, a zero takes the target scale, scaling down rounds half
away from zero, scaling up multiplies while the mantissa fits (43_rounding.md R180, R181). -/
def Obligations.RescaleMovesTheScale : Prop :=
  ∀ (s : State) (imm : Nat), imm ≤ 255 →
    OneOperandRule (.rescale imm) (imm * 2 ^ 8 + 0x07) s ∧ (isValid s.opA = true →
      let target := min imm 28
      let e := scaleOf s.opA
      let m := mantOf s.opA
      (e = target → CompletesWith (.rescale imm) s s.opA) ∧
      (e ≠ target → m = 0 → CompletesWith (.rescale imm) s (pack (signOf s.opA) target 0)) ∧
      (target < e → m ≠ 0 →
        CompletesWith (.rescale imm) s (pack (signOf s.opA) target (rhaz m (10 ^ (e - target))))) ∧
      (e < target → m ≠ 0 → ∃ t, e ≤ t ∧ t ≤ target ∧ fits96 (m * 10 ^ (t - e)) ∧
        (∀ u, t < u → u ≤ target → ¬ fits96 (m * 10 ^ (u - e))) ∧
        CompletesWith (.rescale imm) s (pack (signOf s.opA) t (m * 10 ^ (t - e)))))

/-- RESCALE up and then back to the old scale gives `A` bit for bit (43_rounding.md R182, the spec's own derivation). -/
def Obligations.RescaleUpAndBackIsIdentity : Prop :=
  ∀ (s s' t t' : State) (imm : Nat), isValid s.opA = true → exec (.rescale imm) s = .next t →
    scaleOf s.opA ≤ scaleOf t.r → s'.opA = t.r → exec (.rescale (scaleOf s.opA)) s' = .next t' →
    t'.r = s.opA

/-- The word of a ROUND command and its `INVALID_A`; and ROUND to at least as many places as `A` has gives `A` bit for
bit, in all seven modes (43_rounding.md R183, 30_encoding.md R74). -/
def Obligations.RoundInventsNoDigits : Prop :=
  ∀ (s : State) (dp : Nat) (mode : RoundMode), dp ≤ 255 →
    OneOperandRule (Instr.round mode dp) (dp * 2 ^ 8 + mode.code * 2 ^ 5 + 0x08) s ∧
    (isValid s.opA = true → scaleOf s.opA ≤ dp → CompletesWith (Instr.round mode dp) s s.opA)

/-- ROUND.RNE, ROUND.RHAZ and ROUND.RHTZ give the nearest multiple of `10^-dp`, scale `dp`, sign of `A`; an exact tie
goes to the even quotient, away from zero, and toward zero (43_rounding.md R184, 41_limb_units.md R140). -/
def Obligations.NearestModesRoundToNearest : Prop :=
  ∀ (s : State) (dp : Nat), isValid s.opA = true → dp < scaleOf s.opA →
    let m : ℤ := mantOf s.opA
    let d : ℤ := 10 ^ (scaleOf s.opA - dp)
    (∃ q : Nat, CompletesWith (.roundRne dp) s (pack (signOf s.opA) dp q) ∧ fits96 q ∧
      2 * |q * d - m| ≤ d ∧ (2 * |q * d - m| = d → q % 2 = 0)) ∧
    (∃ q : Nat, CompletesWith (.roundRhaz dp) s (pack (signOf s.opA) dp q) ∧ fits96 q ∧
      2 * |q * d - m| ≤ d ∧ (2 * |q * d - m| = d → m < q * d)) ∧
    (∃ q : Nat, CompletesWith (.roundRhtz dp) s (pack (signOf s.opA) dp q) ∧ fits96 q ∧
      2 * |q * d - m| ≤ d ∧ (2 * |q * d - m| = d → q * d < m))

/-- ROUND.RTZ, ROUND.RAZ, ROUND.RFLOOR and ROUND.RCEIL give the multiple of `10^-dp` next to `A` toward zero, away from
zero, below and above, scale `dp`, sign of `A` (43_rounding.md R184, 41_limb_units.md R140). -/
def Obligations.DirectedModesRoundTheirWay : Prop :=
  ∀ (s : State) (dp : Nat), isValid s.opA = true → dp < scaleOf s.opA →
    let x := valOf s.opA * 10 ^ dp
    RoundsTo (.roundRtz dp) s (signOf s.opA) dp (truncInt x) ∧
    RoundsTo (.roundRaz dp) s (signOf s.opA) dp (awayInt x) ∧
    RoundsTo (.roundRfloor dp) s (signOf s.opA) dp ⌊x⌋ ∧
    RoundsTo (.roundRceil dp) s (signOf s.opA) dp ⌈x⌉

/-- NORM: the canonical zero for any zero; otherwise the same value and sign with the trailing zeros taken off, down to
scale 0 (43_rounding.md R185). That the value is kept is the spec's own derivation (R185 from 41_limb_units.md R133). -/
def Obligations.NormStripsTrailingZeros : Prop :=
  ∀ s : State, OneOperandRule .norm 0x09 s ∧ (isValid s.opA = true →
    (mantOf s.opA = 0 → CompletesWith .norm s (pack false 0 0)) ∧
    (mantOf s.opA ≠ 0 → ∃ m e, CompletesWith .norm s (pack (signOf s.opA) e m) ∧ e ≤ scaleOf s.opA ∧
      mantOf s.opA = m * 10 ^ (scaleOf s.opA - e) ∧ (e = 0 ∨ m % 10 ≠ 0) ∧
      valOf (pack (signOf s.opA) e m) = valOf s.opA))

/-- TRUNC, FLOOR and CEIL give the integer part toward zero, the floor and the ceiling of the value, at scale 0 with the
sign of `A` (43_rounding.md R186, R188, R189). -/
def Obligations.IntegerPartsOfTheValue : Prop :=
  ∀ s : State, OneOperandRule .trunc 0x0A s ∧ OneOperandRule .floor 0x0C s ∧ OneOperandRule .ceil 0x0D s ∧
    (isValid s.opA = true →
      RoundsTo .trunc s (signOf s.opA) 0 (truncInt (valOf s.opA)) ∧
      RoundsTo .floor s (signOf s.opA) 0 ⌊valOf s.opA⌋ ∧
      RoundsTo .ceil s (signOf s.opA) 0 ⌈valOf s.opA⌉)

/-- FRACT gives the value less its integer part, with the sign of `A`, at the scale of `A` (scale 0 for a zero `A`), and
never overflows (43_rounding.md R187, 42_arithmetic.md R151, R152). That it is not rounded and never overflows is the
spec's own derivation (R187 from 42_arithmetic.md R153), and so is the law of its value (43_rounding.md R190). -/
def Obligations.FractIsTheRestOfTrunc : Prop :=
  ∀ s : State, OneOperandRule .fract 0x0B s ∧ (isValid s.opA = true →
    ∃ v, CompletesWith .fract s v ∧ isValid v = true ∧ signOf v = signOf s.opA ∧
      scaleOf v = (if mantOf s.opA = 0 then 0 else scaleOf s.opA) ∧
      valOf v = valOf s.opA - (truncInt (valOf s.opA) : ℚ))

/-- TRUNC, FLOOR and CEIL are ROUND.RTZ, ROUND.RFLOOR and ROUND.RCEIL to 0 places, bit for bit and in every state
(43_rounding.md R190, the spec's own derivation). -/
def Obligations.IntegerPartsAgreeWithRound : Prop :=
  ∀ s : State, exec .trunc s = exec (.roundRtz 0) s ∧ exec .floor s = exec (.roundRfloor 0) s ∧
    exec .ceil s = exec (.roundRceil 0) s

/-! ### The datapath units at limb level -/

/-- The adder: the sum modulo `2^(32n)`, and a carry exactly when it does not fit (41_limb_units.md R123). -/
def Obligations.AdderAddsWithCarry : Prop :=
  ∀ xs ys : Limbs, ys.length ≤ xs.length →
    (addLimbs xs ys).1.length = xs.length ∧
    limbsValue (addLimbs xs ys).1 = (limbsValue xs + limbsValue ys) % 2 ^ (32 * xs.length) ∧
    (addLimbs xs ys).2 = if 2 ^ (32 * xs.length) ≤ limbsValue xs + limbsValue ys then 1 else 0

/-- The subtractor: the difference modulo `2^(32n)`, and a borrow exactly when it is negative
(41_limb_units.md R124). -/
def Obligations.SubtractorSubtractsWithBorrow : Prop :=
  ∀ xs ys : Limbs, ys.length ≤ xs.length →
    (subLimbs xs ys).1.length = xs.length ∧
    (limbsValue (subLimbs xs ys).1 : ℤ) =
      ((limbsValue xs : ℤ) - limbsValue ys) % 2 ^ (32 * xs.length) ∧
    (subLimbs xs ys).2 = if limbsValue xs < limbsValue ys then 1 else 0

/-- `mul_by_small` gives the product modulo `2^(32n)` and its overflow limb; `mul96x96` gives the exact product in six
limbs; `shift_left_1` doubles and returns the bit shifted out (41_limb_units.md R125, R126, R145). -/
def Obligations.MultipliersAreExact : Prop :=
  (∀ (xs : Limbs) (k : Word),
    (mulBySmall xs k).1.length = xs.length ∧
    limbsValue (mulBySmall xs k).1 = limbsValue xs * k.toNat % 2 ^ (32 * xs.length) ∧
    (mulBySmall xs k).2 = limbsValue xs * k.toNat / 2 ^ (32 * xs.length) ∧ (mulBySmall xs k).2 < 2 ^ 32) ∧
  (∀ xs ys : Limbs, xs.length = 3 → ys.length = 3 →
    (mul96x96 xs ys).length = 6 ∧ limbsValue (mul96x96 xs ys) = limbsValue xs * limbsValue ys) ∧
  (∀ xs : Limbs,
    (shiftLeft1 xs).1.length = xs.length ∧
    limbsValue (shiftLeft1 xs).1 = 2 * limbsValue xs % 2 ^ (32 * xs.length) ∧
    (shiftLeft1 xs).2 = 2 * limbsValue xs / 2 ^ (32 * xs.length))

/-- The dividers give the exact quotient and remainder, and no result for a zero divisor
(41_limb_units.md R127, R128). -/
def Obligations.DividersAreExact : Prop :=
  (∀ (xs : Limbs) (k : Word),
    (k = 0 → divBySmall xs k = none) ∧
    (k ≠ 0 → ∃ q r, divBySmall xs k = some (q, r) ∧ q.length = xs.length ∧
      limbsValue q = limbsValue xs / k.toNat ∧ r = limbsValue xs % k.toNat)) ∧
  (∀ ns ds : Limbs, ds.length ≤ 3 →
    (limbsValue ds = 0 → divremLimbs ns ds = none) ∧
    (limbsValue ds ≠ 0 → ∃ q r, divremLimbs ns ds = some (q, r) ∧ q.length = ns.length ∧ r.length = 3 ∧
      limbsValue q = limbsValue ns / limbsValue ds ∧ limbsValue r = limbsValue ns % limbsValue ds))

/-- The comparator orders arrays by value, the zero test and the fit check read the value
(41_limb_units.md R121, R122, R132). -/
def Obligations.ComparatorOrdersByValue : Prop :=
  (∀ xs ys : Limbs, compareLimbs xs ys = compare (limbsValue xs) (limbsValue ys)) ∧
  (∀ xs : Limbs, isAllZero xs = true ↔ limbsValue xs = 0) ∧
  (∀ xs : Limbs, 3 ≤ xs.length → (fits96Limbs xs = true ↔ limbsValue xs ≤ 2 ^ 96 - 1))

/-- The shifter up gives `M * 10^k` modulo `2^192` with `ovf` exactly when it does not fit, and the shifter down gives
quotient and remainder by `10^k` (41_limb_units.md R130, R131). -/
def Obligations.ShiftersScaleByPowersOfTen : Prop :=
  (∀ (xs : Limbs) (k : Nat), xs.length ≤ 6 →
    (alignUpLimbs xs k).1.length = 6 ∧
    limbsValue (alignUpLimbs xs k).1 = limbsValue xs * 10 ^ k % 2 ^ 192 ∧
    ((alignUpLimbs xs k).2 = true ↔ 2 ^ 192 ≤ limbsValue xs * 10 ^ k)) ∧
  (∀ (xs : Limbs) (k : Nat),
    (alignDownLimbs xs k).1.length = xs.length ∧
    limbsValue (alignDownLimbs xs k).1 = limbsValue xs / 10 ^ k ∧
    (alignDownLimbs xs k).2 = limbsValue xs % 10 ^ k)

/-- Refinement: for any two operands with scales up to 28 the 192-bit limb datapath computes the sign and magnitude of
the aligned sum that ADD and SUB are defined by, and no unit overflows
(00_scope.md R9, R18; 42_arithmetic.md R152; 41_limb_units.md R130). That no command calls this datapath is the
model's choice (notes/assumptions/12.md). -/
def Obligations.WideDatapathComputesTheSum : Prop :=
  ∀ (a b : PackedBits) (nb : Bool), scaleOf a ≤ 28 → scaleOf b ≤ 28 →
    ∃ sign sum, addSubDatapath (signOf a) (xor (signOf b) nb) (mantLimbs a) (mantLimbs b)
        (commonScale a b - scaleOf a) (commonScale a b - scaleOf b) = (sign, sum, false) ∧
      sum.length = 6 ∧
      (sign, limbsValue sum) = signedSum (signOf a) (xor (signOf b) nb) (alignedLeft a b) (alignedRight a b)
end

