-- ==== Sys2Proof/Laws/Packed.lean ====
section
/-!
SUPPORT. The Packed Value format: fields of `pack`, a valid value is the pack of its fields, words of a register
image (10_state.md R22, R23; 20_memory.md R51).
-/
namespace Sys2Proof.Machine

theorem signOf_eq_div (x : PackedBits) : signOf x = decide (x.toNat / 2 ^ 31 % 2 = 1) := by
  simp [signOf, BitVec.getLsbD, Nat.testBit_eq_decide_div_mod_eq]

theorem scaleOf_eq_div (x : PackedBits) : scaleOf x = x.toNat / 2 ^ 16 % 2 ^ 8 := by
  simp [scaleOf, BitVec.extractLsb'_toNat, Nat.shiftRight_eq_div_pow]

theorem mantOf_eq_div (x : PackedBits) : mantOf x = x.toNat / 2 ^ 32 := by
  have h := x.isLt
  simp only [mantOf, BitVec.extractLsb'_toNat, Nat.shiftRight_eq_div_pow]
  omega

theorem mantOf_le (x : PackedBits) : mantOf x ≤ Config.maxMant := by
  have h := x.isLt
  rw [mantOf_eq_div, Config.maxMant]
  omega

theorem scaleOf_lt (x : PackedBits) : scaleOf x < 256 := by
  rw [scaleOf_eq_div]; omega

theorem pack_toNat {s : Bool} {e m : Nat} (he : e ≤ 255) (hm : fits96 m) :
    (pack s e m).toNat = m * 2 ^ 32 + s.toNat * 2 ^ 31 + e * 2 ^ 16 := by
  have hs := Bool.toNat_le s
  unfold fits96 Config.maxMant at hm
  rw [pack, BitVec.toNat_ofNat]
  omega

theorem mantOf_pack {s : Bool} {e m : Nat} (he : e ≤ 255) (hm : fits96 m) : mantOf (pack s e m) = m := by
  have hs := Bool.toNat_le s
  rw [mantOf_eq_div, pack_toNat he hm]
  omega

theorem scaleOf_pack {s : Bool} {e m : Nat} (he : e ≤ 255) (hm : fits96 m) : scaleOf (pack s e m) = e := by
  have hs := Bool.toNat_le s
  rw [scaleOf_eq_div, pack_toNat he hm]
  omega

theorem signOf_pack {s : Bool} {e m : Nat} (he : e ≤ 255) (hm : fits96 m) : signOf (pack s e m) = s := by
  rw [signOf_eq_div, pack_toNat he hm]
  cases s <;> simp <;> omega

/-- Validity on numbers: the reserved bits of the flags word and the scale (10_state.md R23). -/
theorem isValid_iff (x : PackedBits) : isValid x = true ↔
    x.toNat / 2 ^ 24 % 2 ^ 7 = 0 ∧ x.toNat % 2 ^ 16 = 0 ∧ scaleOf x ≤ 28 := by
  have h1 : reservedHigh x = 0 ↔ x.toNat / 2 ^ 24 % 2 ^ 7 = 0 := by
    rw [← BitVec.toNat_inj]
    simp [reservedHigh, BitVec.extractLsb'_toNat, Nat.shiftRight_eq_div_pow]
  have h2 : reservedLow x = 0 ↔ x.toNat % 2 ^ 16 = 0 := by
    rw [← BitVec.toNat_inj]
    simp [reservedLow, BitVec.extractLsb'_toNat]
  simp only [isValid, Bool.and_eq_true, beq_iff_eq, h1, h2, decide_eq_true_eq, and_assoc]
  rfl

/-- What the core writes is valid: a scale up to 28 and a 96-bit mantissa (10_state.md R23). -/
theorem isValid_pack {s : Bool} {e m : Nat} (he : e ≤ 28) (hm : fits96 m) : isValid (pack s e m) = true := by
  have hs := Bool.toNat_le s
  rw [isValid_iff, scaleOf_pack (by omega) hm, pack_toNat (by omega) hm]
  omega

theorem scaleOf_le_of_valid {x : PackedBits} (h : isValid x = true) : scaleOf x ≤ 28 :=
  ((isValid_iff x).1 h).2.2

/-- A valid value is the pack of its own fields (10_state.md R22, R23). -/
theorem pack_fields {x : PackedBits} (h : isValid x = true) : pack (signOf x) (scaleOf x) (mantOf x) = x := by
  obtain ⟨h1, h2, h3⟩ := (isValid_iff x).1 h
  apply BitVec.eq_of_toNat_eq
  rw [pack_toNat (by omega) (mantOf_le x), mantOf_eq_div, scaleOf_eq_div, signOf_eq_div]
  have hx := x.isLt
  by_cases hs : x.toNat / 2 ^ 31 % 2 = 1
  · simp only [hs, decide_true, Bool.toNat_true]; omega
  · simp only [hs, decide_false, Bool.toNat_false]; omega

/-- The value of a packed triple (00_scope.md R14). -/
theorem valOf_pack {s : Bool} {e m : Nat} (he : e ≤ 255) (hm : fits96 m) :
    valOf (pack s e m) = (if s then -1 else 1) * (m : ℚ) / (10 : ℚ) ^ e := by
  rw [valOf, signOf_pack he hm, scaleOf_pack he hm, mantOf_pack he hm]

@[simp] theorem isValid_canonicalZero : isValid canonicalZero = true := by decide

/-- The words of an image put together from words (20_memory.md R51). -/
theorem wordOf_ofWords (w0 w1 w2 w3 : Word) :
    wordOf (ofWords w0 w1 w2 w3) 0 = w0 ∧ wordOf (ofWords w0 w1 w2 w3) 1 = w1 ∧
    wordOf (ofWords w0 w1 w2 w3) 2 = w2 ∧ wordOf (ofWords w0 w1 w2 w3) 3 = w3 := by
  refine ⟨?_, ?_, ?_, ?_⟩ <;>
  · apply BitVec.eq_of_getLsbD_eq
    intro i hi
    simp only [wordOf, ofWords, BitVec.getLsbD_extractLsb', BitVec.getLsbD_append, hi, decide_true,
      Bool.true_and]
    repeat' split
    all_goals first
      | (exfalso; omega)
      | rfl
      | exact congrArg _ (by omega)

/-- Replacing a word changes that word and no other (20_memory.md R56). -/
theorem wordOf_setWord (x : PackedBits) (v : Word) {i j : Nat} (hi : i < 4) :
    wordOf (setWord x j v) i = if i = j then v else wordOf x i := by
  obtain ⟨h0, h1, h2, h3⟩ := wordOf_ofWords (if j = 0 then v else wordOf x 0)
    (if j = 1 then v else wordOf x 1) (if j = 2 then v else wordOf x 2) (if j = 3 then v else wordOf x 3)
  obtain rfl | rfl | rfl | rfl : i = 0 ∨ i = 1 ∨ i = 2 ∨ i = 3 := by omega
  · exact h0.trans (by simp [eq_comm])
  · exact h1.trans (by simp [eq_comm])
  · exact h2.trans (by simp [eq_comm])
  · exact h3.trans (by simp [eq_comm])

end Sys2Proof.Machine
end

