-- ==== Sys2Proof/Laws/State.lean ====
section
/-!
SUPPORT. One lemma per field per update of `Status` and `State`, true by `rfl`, so that no proof unfolds a record
update.
-/
namespace Sys2Proof.Machine

@[simp] theorem Status.atIssue_busy (st : Status) : (st.atIssue).busy = true := rfl
@[simp] theorem Status.atIssue_done (st : Status) : (st.atIssue).done = false := rfl
@[simp] theorem Status.atIssue_err (st : Status) : (st.atIssue).err = false := rfl
@[simp] theorem Status.atIssue_pv (st : Status) : (st.atIssue).pv = st.pv := rfl
@[simp] theorem Status.atIssue_ecode (st : Status) : (st.atIssue).ecode = .none := rfl
@[simp] theorem Status.atIssue_cmpres (st : Status) : (st.atIssue).cmpres = .none := rfl

@[simp] theorem Status.complete_busy (st : Status) : (st.complete).busy = false := rfl
@[simp] theorem Status.complete_done (st : Status) : (st.complete).done = true := rfl
@[simp] theorem Status.complete_err (st : Status) : (st.complete).err = st.err := rfl
@[simp] theorem Status.complete_pv (st : Status) : (st.complete).pv = st.pv := rfl
@[simp] theorem Status.complete_ecode (st : Status) : (st.complete).ecode = st.ecode := rfl
@[simp] theorem Status.complete_cmpres (st : Status) : (st.complete).cmpres = st.cmpres := rfl

@[simp] theorem Status.atSuccess_busy (st : Status) : (st.atSuccess).busy = false := rfl
@[simp] theorem Status.atSuccess_done (st : Status) : (st.atSuccess).done = true := rfl
@[simp] theorem Status.atSuccess_err (st : Status) : (st.atSuccess).err = false := rfl
@[simp] theorem Status.atSuccess_pv (st : Status) : (st.atSuccess).pv = st.pv := rfl
@[simp] theorem Status.atSuccess_ecode (st : Status) : (st.atSuccess).ecode = .none := rfl
@[simp] theorem Status.atSuccess_cmpres (st : Status) : (st.atSuccess).cmpres = st.cmpres := rfl

@[simp] theorem Status.atError_busy (e : ErrorCode) (st : Status) : (st.atError e).busy = false := rfl
@[simp] theorem Status.atError_done (e : ErrorCode) (st : Status) : (st.atError e).done = true := rfl
@[simp] theorem Status.atError_err (e : ErrorCode) (st : Status) : (st.atError e).err = true := rfl
@[simp] theorem Status.atError_pv (e : ErrorCode) (st : Status) : (st.atError e).pv = st.pv := rfl
@[simp] theorem Status.atError_ecode (e : ErrorCode) (st : Status) : (st.atError e).ecode = e := rfl
@[simp] theorem Status.atError_cmpres (e : ErrorCode) (st : Status) : (st.atError e).cmpres = .none := rfl

@[simp] theorem Status.setCmp_busy (c : CmpResult) (st : Status) : (st.setCmp c).busy = st.busy := rfl
@[simp] theorem Status.setCmp_done (c : CmpResult) (st : Status) : (st.setCmp c).done = st.done := rfl
@[simp] theorem Status.setCmp_err (c : CmpResult) (st : Status) : (st.setCmp c).err = st.err := rfl
@[simp] theorem Status.setCmp_pv (c : CmpResult) (st : Status) : (st.setCmp c).pv = st.pv := rfl
@[simp] theorem Status.setCmp_ecode (c : CmpResult) (st : Status) : (st.setCmp c).ecode = st.ecode := rfl
@[simp] theorem Status.setCmp_cmpres (c : CmpResult) (st : Status) : (st.setCmp c).cmpres = c := rfl

@[simp] theorem Status.setPv_busy (st : Status) : (st.setPv).busy = st.busy := rfl
@[simp] theorem Status.setPv_done (st : Status) : (st.setPv).done = st.done := rfl
@[simp] theorem Status.setPv_err (st : Status) : (st.setPv).err = st.err := rfl
@[simp] theorem Status.setPv_pv (st : Status) : (st.setPv).pv = true := rfl
@[simp] theorem Status.setPv_ecode (st : Status) : (st.setPv).ecode = st.ecode := rfl
@[simp] theorem Status.setPv_cmpres (st : Status) : (st.setPv).cmpres = st.cmpres := rfl

@[simp] theorem State.setA_a (v : PackedBits) (s : State) : (s.setA v).a = v := rfl
@[simp] theorem State.setA_b (v : PackedBits) (s : State) : (s.setA v).b = s.b := rfl
@[simp] theorem State.setA_r (v : PackedBits) (s : State) : (s.setA v).r = s.r := rfl
@[simp] theorem State.setA_cmd (v : PackedBits) (s : State) : (s.setA v).cmd = s.cmd := rfl
@[simp] theorem State.setA_status (v : PackedBits) (s : State) : (s.setA v).status = s.status := rfl
@[simp] theorem State.setA_inFlight (v : PackedBits) (s : State) : (s.setA v).inFlight = s.inFlight := rfl
@[simp] theorem State.setA_scratch (v : PackedBits) (s : State) : (s.setA v).scratch = s.scratch := rfl
@[simp] theorem State.setA_program (v : PackedBits) (s : State) : (s.setA v).program = s.program := rfl
@[simp] theorem State.setA_received (v : PackedBits) (s : State) : (s.setA v).received = s.received := rfl

@[simp] theorem State.setB_a (v : PackedBits) (s : State) : (s.setB v).a = s.a := rfl
@[simp] theorem State.setB_b (v : PackedBits) (s : State) : (s.setB v).b = v := rfl
@[simp] theorem State.setB_r (v : PackedBits) (s : State) : (s.setB v).r = s.r := rfl
@[simp] theorem State.setB_cmd (v : PackedBits) (s : State) : (s.setB v).cmd = s.cmd := rfl
@[simp] theorem State.setB_status (v : PackedBits) (s : State) : (s.setB v).status = s.status := rfl
@[simp] theorem State.setB_inFlight (v : PackedBits) (s : State) : (s.setB v).inFlight = s.inFlight := rfl
@[simp] theorem State.setB_scratch (v : PackedBits) (s : State) : (s.setB v).scratch = s.scratch := rfl
@[simp] theorem State.setB_program (v : PackedBits) (s : State) : (s.setB v).program = s.program := rfl
@[simp] theorem State.setB_received (v : PackedBits) (s : State) : (s.setB v).received = s.received := rfl

@[simp] theorem State.setR_a (v : PackedBits) (s : State) : (s.setR v).a = s.a := rfl
@[simp] theorem State.setR_b (v : PackedBits) (s : State) : (s.setR v).b = s.b := rfl
@[simp] theorem State.setR_r (v : PackedBits) (s : State) : (s.setR v).r = v := rfl
@[simp] theorem State.setR_cmd (v : PackedBits) (s : State) : (s.setR v).cmd = s.cmd := rfl
@[simp] theorem State.setR_status (v : PackedBits) (s : State) : (s.setR v).status = s.status := rfl
@[simp] theorem State.setR_inFlight (v : PackedBits) (s : State) : (s.setR v).inFlight = s.inFlight := rfl
@[simp] theorem State.setR_scratch (v : PackedBits) (s : State) : (s.setR v).scratch = s.scratch := rfl
@[simp] theorem State.setR_program (v : PackedBits) (s : State) : (s.setR v).program = s.program := rfl
@[simp] theorem State.setR_received (v : PackedBits) (s : State) : (s.setR v).received = s.received := rfl

@[simp] theorem State.setCmp_a (c : CmpResult) (s : State) : (s.setCmp c).a = s.a := rfl
@[simp] theorem State.setCmp_b (c : CmpResult) (s : State) : (s.setCmp c).b = s.b := rfl
@[simp] theorem State.setCmp_r (c : CmpResult) (s : State) : (s.setCmp c).r = s.r := rfl
@[simp] theorem State.setCmp_cmd (c : CmpResult) (s : State) : (s.setCmp c).cmd = s.cmd := rfl
@[simp] theorem State.setCmp_status (c : CmpResult) (s : State) : (s.setCmp c).status = s.status.setCmp c := rfl
@[simp] theorem State.setCmp_inFlight (c : CmpResult) (s : State) : (s.setCmp c).inFlight = s.inFlight := rfl
@[simp] theorem State.setCmp_scratch (c : CmpResult) (s : State) : (s.setCmp c).scratch = s.scratch := rfl
@[simp] theorem State.setCmp_program (c : CmpResult) (s : State) : (s.setCmp c).program = s.program := rfl
@[simp] theorem State.setCmp_received (c : CmpResult) (s : State) : (s.setCmp c).received = s.received := rfl

@[simp] theorem State.complete_a (st : Status) (s : State) : (s.complete st).a = s.a := rfl
@[simp] theorem State.complete_b (st : Status) (s : State) : (s.complete st).b = s.b := rfl
@[simp] theorem State.complete_r (st : Status) (s : State) : (s.complete st).r = s.r := rfl
@[simp] theorem State.complete_cmd (st : Status) (s : State) : (s.complete st).cmd = s.cmd := rfl
@[simp] theorem State.complete_status (st : Status) (s : State) : (s.complete st).status = st := rfl
@[simp] theorem State.complete_inFlight (st : Status) (s : State) : (s.complete st).inFlight = none := rfl
@[simp] theorem State.complete_scratch (st : Status) (s : State) : (s.complete st).scratch = s.scratch + 1 := rfl
@[simp] theorem State.complete_program (st : Status) (s : State) : (s.complete st).program = s.program := rfl
@[simp] theorem State.complete_received (st : Status) (s : State) : (s.complete st).received = s.received := rfl

@[simp] theorem State.succeedNoR_a (s : State) : (s.succeedNoR).a = s.a := rfl
@[simp] theorem State.succeedNoR_b (s : State) : (s.succeedNoR).b = s.b := rfl
@[simp] theorem State.succeedNoR_r (s : State) : (s.succeedNoR).r = s.r := rfl
@[simp] theorem State.succeedNoR_cmd (s : State) : (s.succeedNoR).cmd = s.cmd := rfl
@[simp] theorem State.succeedNoR_status (s : State) : (s.succeedNoR).status = s.status.atSuccess := rfl
@[simp] theorem State.succeedNoR_inFlight (s : State) : (s.succeedNoR).inFlight = none := rfl
@[simp] theorem State.succeedNoR_scratch (s : State) : (s.succeedNoR).scratch = s.scratch + 1 := rfl
@[simp] theorem State.succeedNoR_program (s : State) : (s.succeedNoR).program = s.program := rfl
@[simp] theorem State.succeedNoR_received (s : State) : (s.succeedNoR).received = s.received := rfl

@[simp] theorem State.succeed_a (v : PackedBits) (s : State) : (s.succeed v).a = s.a := rfl
@[simp] theorem State.succeed_b (v : PackedBits) (s : State) : (s.succeed v).b = s.b := rfl
@[simp] theorem State.succeed_r (v : PackedBits) (s : State) : (s.succeed v).r = v := rfl
@[simp] theorem State.succeed_cmd (v : PackedBits) (s : State) : (s.succeed v).cmd = s.cmd := rfl
@[simp] theorem State.succeed_status (v : PackedBits) (s : State) : (s.succeed v).status = s.status.atSuccess := rfl
@[simp] theorem State.succeed_inFlight (v : PackedBits) (s : State) : (s.succeed v).inFlight = none := rfl
@[simp] theorem State.succeed_scratch (v : PackedBits) (s : State) : (s.succeed v).scratch = s.scratch + 1 := rfl
@[simp] theorem State.succeed_program (v : PackedBits) (s : State) : (s.succeed v).program = s.program := rfl
@[simp] theorem State.succeed_received (v : PackedBits) (s : State) : (s.succeed v).received = s.received := rfl

@[simp] theorem State.raise_a (e : ErrorCode) (s : State) : (s.raise e).a = s.a := rfl
@[simp] theorem State.raise_b (e : ErrorCode) (s : State) : (s.raise e).b = s.b := rfl
@[simp] theorem State.raise_r (e : ErrorCode) (s : State) : (s.raise e).r = s.r := rfl
@[simp] theorem State.raise_cmd (e : ErrorCode) (s : State) : (s.raise e).cmd = s.cmd := rfl
@[simp] theorem State.raise_status (e : ErrorCode) (s : State) : (s.raise e).status = s.status.atError e := rfl
@[simp] theorem State.raise_inFlight (e : ErrorCode) (s : State) : (s.raise e).inFlight = none := rfl
@[simp] theorem State.raise_scratch (e : ErrorCode) (s : State) : (s.raise e).scratch = s.scratch + 1 := rfl
@[simp] theorem State.raise_program (e : ErrorCode) (s : State) : (s.raise e).program = s.program := rfl
@[simp] theorem State.raise_received (e : ErrorCode) (s : State) : (s.raise e).received = s.received := rfl

@[simp] theorem State.issueAfter_a (v : Word) (wait : Nat) (s : State) : (s.issueAfter v wait).a = s.a := rfl
@[simp] theorem State.issueAfter_b (v : Word) (wait : Nat) (s : State) : (s.issueAfter v wait).b = s.b := rfl
@[simp] theorem State.issueAfter_r (v : Word) (wait : Nat) (s : State) : (s.issueAfter v wait).r = s.r := rfl
@[simp] theorem State.issueAfter_cmd (v : Word) (wait : Nat) (s : State) : (s.issueAfter v wait).cmd = v := rfl
@[simp] theorem State.issueAfter_status (v : Word) (wait : Nat) (s : State) : (s.issueAfter v wait).status = s.status.atIssue := rfl
@[simp] theorem State.issueAfter_inFlight (v : Word) (wait : Nat) (s : State) : (s.issueAfter v wait).inFlight = some ⟨v, s.a, s.b, wait⟩ := rfl
@[simp] theorem State.issueAfter_scratch (v : Word) (wait : Nat) (s : State) : (s.issueAfter v wait).scratch = s.scratch := rfl
@[simp] theorem State.issueAfter_program (v : Word) (wait : Nat) (s : State) : (s.issueAfter v wait).program = s.program := rfl
@[simp] theorem State.issueAfter_received (v : Word) (wait : Nat) (s : State) : (s.issueAfter v wait).received = s.received := rfl

@[simp] theorem State.issue_a (v : Word) (s : State) : (s.issue v).a = s.a := rfl
@[simp] theorem State.issue_b (v : Word) (s : State) : (s.issue v).b = s.b := rfl
@[simp] theorem State.issue_r (v : Word) (s : State) : (s.issue v).r = s.r := rfl
@[simp] theorem State.issue_cmd (v : Word) (s : State) : (s.issue v).cmd = v := rfl
@[simp] theorem State.issue_status (v : Word) (s : State) : (s.issue v).status = s.status.atIssue := rfl
@[simp] theorem State.issue_inFlight (v : Word) (s : State) : (s.issue v).inFlight = some ⟨v, s.a, s.b, Config.lat v s.a s.b s.r⟩ := rfl
@[simp] theorem State.issue_scratch (v : Word) (s : State) : (s.issue v).scratch = s.scratch := rfl
@[simp] theorem State.issue_program (v : Word) (s : State) : (s.issue v).program = s.program := rfl
@[simp] theorem State.issue_received (v : Word) (s : State) : (s.issue v).received = s.received := rfl

@[simp] theorem State.placeCommand_a (w : Word) (s : State) : (s.placeCommand w).a = s.a := rfl
@[simp] theorem State.placeCommand_b (w : Word) (s : State) : (s.placeCommand w).b = s.b := rfl
@[simp] theorem State.placeCommand_r (w : Word) (s : State) : (s.placeCommand w).r = s.r := rfl
@[simp] theorem State.placeCommand_cmd (w : Word) (s : State) : (s.placeCommand w).cmd = w := rfl
@[simp] theorem State.placeCommand_status (w : Word) (s : State) : (s.placeCommand w).status = s.status.atIssue := rfl
@[simp] theorem State.placeCommand_inFlight (w : Word) (s : State) : (s.placeCommand w).inFlight = some ⟨w, s.a, s.b, 0⟩ := rfl
@[simp] theorem State.placeCommand_scratch (w : Word) (s : State) : (s.placeCommand w).scratch = s.scratch := rfl
@[simp] theorem State.placeCommand_program (w : Word) (s : State) : (s.placeCommand w).program = s.program := rfl
@[simp] theorem State.placeCommand_received (w : Word) (s : State) : (s.placeCommand w).received = s.received := rfl

@[simp] theorem State.dropWrite_a (s : State) : (s.dropWrite).a = s.a := rfl
@[simp] theorem State.dropWrite_b (s : State) : (s.dropWrite).b = s.b := rfl
@[simp] theorem State.dropWrite_r (s : State) : (s.dropWrite).r = s.r := rfl
@[simp] theorem State.dropWrite_cmd (s : State) : (s.dropWrite).cmd = s.cmd := rfl
@[simp] theorem State.dropWrite_status (s : State) : (s.dropWrite).status = s.status.setPv := rfl
@[simp] theorem State.dropWrite_inFlight (s : State) : (s.dropWrite).inFlight = s.inFlight := rfl
@[simp] theorem State.dropWrite_scratch (s : State) : (s.dropWrite).scratch = s.scratch := rfl
@[simp] theorem State.dropWrite_program (s : State) : (s.dropWrite).program = s.program := rfl
@[simp] theorem State.dropWrite_received (s : State) : (s.dropWrite).received = s.received := rfl

@[simp] theorem State.applyReset_a (s : State) : (s.applyReset).a = 0 := rfl
@[simp] theorem State.applyReset_b (s : State) : (s.applyReset).b = 0 := rfl
@[simp] theorem State.applyReset_r (s : State) : (s.applyReset).r = 0 := rfl
@[simp] theorem State.applyReset_cmd (s : State) : (s.applyReset).cmd = 0 := rfl
@[simp] theorem State.applyReset_status (s : State) : (s.applyReset).status = Status.reset := rfl
@[simp] theorem State.applyReset_inFlight (s : State) : (s.applyReset).inFlight = none := rfl
@[simp] theorem State.applyReset_scratch (s : State) : (s.applyReset).scratch = s.scratch + 1 := rfl
@[simp] theorem State.applyReset_program (s : State) : (s.applyReset).program = s.program := rfl
@[simp] theorem State.applyReset_received (s : State) : (s.applyReset).received = s.received := rfl

@[simp] theorem State.tick_a (f : InFlight) (left : Nat) (s : State) : (s.tick f left).a = s.a := rfl
@[simp] theorem State.tick_b (f : InFlight) (left : Nat) (s : State) : (s.tick f left).b = s.b := rfl
@[simp] theorem State.tick_r (f : InFlight) (left : Nat) (s : State) : (s.tick f left).r = s.r := rfl
@[simp] theorem State.tick_cmd (f : InFlight) (left : Nat) (s : State) : (s.tick f left).cmd = s.cmd := rfl
@[simp] theorem State.tick_status (f : InFlight) (left : Nat) (s : State) : (s.tick f left).status = s.status := rfl
@[simp] theorem State.tick_inFlight (f : InFlight) (left : Nat) (s : State) : (s.tick f left).inFlight = some { f with wait := left } := rfl
@[simp] theorem State.tick_scratch (f : InFlight) (left : Nat) (s : State) : (s.tick f left).scratch = s.scratch := rfl
@[simp] theorem State.tick_program (f : InFlight) (left : Nat) (s : State) : (s.tick f left).program = s.program := rfl
@[simp] theorem State.tick_received (f : InFlight) (left : Nat) (s : State) : (s.tick f left).received = s.received := rfl

@[simp] theorem State.setProgram_a (p : List HostOp) (s : State) : (s.setProgram p).a = s.a := rfl
@[simp] theorem State.setProgram_b (p : List HostOp) (s : State) : (s.setProgram p).b = s.b := rfl
@[simp] theorem State.setProgram_r (p : List HostOp) (s : State) : (s.setProgram p).r = s.r := rfl
@[simp] theorem State.setProgram_cmd (p : List HostOp) (s : State) : (s.setProgram p).cmd = s.cmd := rfl
@[simp] theorem State.setProgram_status (p : List HostOp) (s : State) : (s.setProgram p).status = s.status := rfl
@[simp] theorem State.setProgram_inFlight (p : List HostOp) (s : State) : (s.setProgram p).inFlight = s.inFlight := rfl
@[simp] theorem State.setProgram_scratch (p : List HostOp) (s : State) : (s.setProgram p).scratch = s.scratch := rfl
@[simp] theorem State.setProgram_program (p : List HostOp) (s : State) : (s.setProgram p).program = p := rfl
@[simp] theorem State.setProgram_received (p : List HostOp) (s : State) : (s.setProgram p).received = s.received := rfl

@[simp] theorem State.receive_a (v : Word) (s : State) : (s.receive v).a = s.a := rfl
@[simp] theorem State.receive_b (v : Word) (s : State) : (s.receive v).b = s.b := rfl
@[simp] theorem State.receive_r (v : Word) (s : State) : (s.receive v).r = s.r := rfl
@[simp] theorem State.receive_cmd (v : Word) (s : State) : (s.receive v).cmd = s.cmd := rfl
@[simp] theorem State.receive_status (v : Word) (s : State) : (s.receive v).status = s.status := rfl
@[simp] theorem State.receive_inFlight (v : Word) (s : State) : (s.receive v).inFlight = s.inFlight := rfl
@[simp] theorem State.receive_scratch (v : Word) (s : State) : (s.receive v).scratch = s.scratch := rfl
@[simp] theorem State.receive_program (v : Word) (s : State) : (s.receive v).program = s.program := rfl
@[simp] theorem State.receive_received (v : Word) (s : State) : (s.receive v).received = v :: s.received := rfl

end Sys2Proof.Machine
end

