-- ==== Sys2Proof/Laws/Units.lean ====
section
/-!
SUPPORT. One lemma per datapath unit that says everything it can do (41_limb_units.md R127, R133, R140 to R143;
42_arithmetic.md R162; 43_rounding.md R180).
-/
namespace Sys2Proof.Machine

theorem divrem_of_pos {n d : Nat} (h : d ≠ 0) : divrem n d = some (n / d, n % d) := by simp [divrem, h]

theorem rne_eq_add_incr (n d : Nat) (s : Bool) : rne n d = n / d + roundIncr .rne s (n / d) (n % d) d := by
  simp only [rne, roundIncr]; split <;> rfl

theorem rhaz_eq_add_incr (n d : Nat) (s : Bool) : rhaz n d = n / d + roundIncr .rhaz s (n / d) (n % d) d := by
  simp only [rhaz, roundIncr]; split <;> rfl

theorem rhtz_eq_add_incr (n d : Nat) (s : Bool) : rhtz n d = n / d + roundIncr .rhtz s (n / d) (n % d) d := by
  simp only [rhtz, roundIncr]; split <;> rfl

theorem roundIncr_le_one (mode : RoundMode) (s : Bool) (q r d : Nat) : roundIncr mode s q r d ≤ 1 := by
  cases mode <;> simp only [roundIncr] <;> first | omega | (split <;> omega)

/-- An exact quotient is never incremented (41_limb_units.md R140). -/
theorem roundIncr_zero (mode : RoundMode) (s : Bool) (q : Nat) {d : Nat} (hd : 0 < d) :
    roundIncr mode s q 0 d = 0 := by
  cases mode <;> simp [roundIncr] <;> omega

/-- Dropping at least one digit of a 96-bit mantissa leaves room for the increment (41_limb_units.md R142). -/
theorem div_pow_succ_fits {m k : Nat} (hm : fits96 m) (hk : 1 ≤ k) : fits96 (m / 10 ^ k + 1) := by
  have h10 : 10 ^ 1 ≤ 10 ^ k := Nat.pow_le_pow_right (by omega) hk
  have h : m / 10 ^ k ≤ m / 10 := by simpa using Nat.div_le_div_left h10 (by omega)
  unfold fits96 Config.maxMant at *
  omega

theorem incr_fits {m k : Nat} (hm : fits96 m) (hk : 1 ≤ k) (mode : RoundMode) (s : Bool) (q r d : Nat)
    (hq : q = m / 10 ^ k) : fits96 (q + roundIncr mode s q r d) := by
  have h1 := div_pow_succ_fits hm hk
  have h2 := roundIncr_le_one mode s q r d
  unfold fits96 at *
  omega

theorem stripFrom_spec (f : Nat) : ∀ room m,
    f ≤ (stripFrom f room m).2 ∧ (stripFrom f room m).2 ≤ f + room ∧
    m = (stripFrom f room m).1 * 10 ^ (f + room - (stripFrom f room m).2) ∧
    ((stripFrom f room m).2 = f ∨ (stripFrom f room m).1 % 10 ≠ 0) := by
  intro room
  induction room with
  | zero => intro m; simp [stripFrom]
  | succ room ih =>
    intro m
    by_cases h : m % 10 = 0
    · obtain ⟨h1, h2, h3, h4⟩ := ih (m / 10)
      have e : stripFrom f (room + 1) m = stripFrom f room (m / 10) := by simp [stripFrom, h]
      rw [e]
      refine ⟨h1, by omega, ?_, h4⟩
      have hp : f + (room + 1) - (stripFrom f room (m / 10)).2 =
          f + room - (stripFrom f room (m / 10)).2 + 1 := by omega
      rw [hp, pow_succ, ← mul_assoc, ← h3]
      omega
    · have e : stripFrom f (room + 1) m = (m, f + room + 1) := by simp [stripFrom, h]
      rw [e]
      refine ⟨by dsimp only; omega, by dsimp only; omega, ?_, .inr h⟩
      have : f + (room + 1) - (f + room + 1) = 0 := by omega
      simp [this]

/-- What the normalizer does: zeros are moved from the mantissa to the scale, down to the floor or to a nonzero
digit (41_limb_units.md R133). -/
theorem strip_spec {m s f : Nat} (h : f ≤ s) :
    f ≤ (strip m s f).2 ∧ (strip m s f).2 ≤ s ∧ m = (strip m s f).1 * 10 ^ (s - (strip m s f).2) ∧
    ((strip m s f).2 = f ∨ (strip m s f).1 % 10 ≠ 0) := by
  have e : f + (s - f) = s := by omega
  have := stripFrom_spec f (s - f) m
  rw [e] at this
  exact this

theorem strip_fits {m s f : Nat} (h : f ≤ s) (hm : fits96 m) : fits96 (strip m s f).1 := by
  obtain ⟨_, _, h3, _⟩ := strip_spec (m := m) h
  have : (strip m s f).1 * 1 ≤ (strip m s f).1 * 10 ^ (s - (strip m s f).2) :=
    Nat.mul_le_mul_left _ (Nat.one_le_pow _ _ (by omega))
  unfold fits96 at *
  omega

theorem reduceFrom_some (rho : Nat → Nat → Nat) (v : Nat) : ∀ left k s' m,
    reduceFrom rho v left k = some (s', m) →
    ∃ j, k ≤ j ∧ j ≤ k + left ∧ s' = k + left - j ∧ m = rho v (10 ^ j) ∧ fits96 m ∧
      ∀ i, k ≤ i → i < j → ¬ fits96 (rho v (10 ^ i)) := by
  intro left
  induction left with
  | zero =>
    intro k s' m h
    by_cases hf : fits96 (rho v (10 ^ k))
    · simp only [reduceFrom, if_pos hf, Option.some.injEq, Prod.mk.injEq] at h
      exact ⟨k, le_rfl, by omega, by omega, h.2.symm, h.2 ▸ hf, fun i h1 h2 => by omega⟩
    · simp [reduceFrom, hf] at h
  | succ left ih =>
    intro k s' m h
    by_cases hf : fits96 (rho v (10 ^ k))
    · simp only [reduceFrom, if_pos hf, Option.some.injEq, Prod.mk.injEq] at h
      exact ⟨k, le_rfl, by omega, by omega, h.2.symm, h.2 ▸ hf, fun i h1 h2 => by omega⟩
    · simp only [reduceFrom, if_neg hf] at h
      obtain ⟨j, h1, h2, h3, h4, h5, h6⟩ := ih (k + 1) s' m h
      refine ⟨j, by omega, by omega, by omega, h4, h5, fun i hi hij => ?_⟩
      rcases Nat.eq_or_lt_of_le hi with rfl | hlt
      · exact hf
      · exact h6 i (by omega) hij

theorem reduceFrom_none (rho : Nat → Nat → Nat) (v : Nat) : ∀ left k, reduceFrom rho v left k = none →
    ∀ i, k ≤ i → i ≤ k + left → ¬ fits96 (rho v (10 ^ i)) := by
  intro left
  induction left with
  | zero =>
    intro k h i hi hik
    obtain rfl : i = k := by omega
    by_contra hf
    simp [reduceFrom, hf] at h
  | succ left ih =>
    intro k h i hi hik
    by_cases hf : fits96 (rho v (10 ^ k))
    · simp [reduceFrom, hf] at h
    · simp only [reduceFrom, if_neg hf] at h
      rcases Nat.eq_or_lt_of_le hi with rfl | hlt
      · exact hf
      · exact ih (k + 1) h i (by omega) (by omega)

/-- What the precision reducer answers: the least number of dropped digits that fits (41_limb_units.md R143). -/
theorem reduceFit_some {rho : Nat → Nat → Nat} {v s k0 s' m : Nat} (h : reduceFit v s rho k0 = some (s', m)) :
    ∃ k, k0 ≤ k ∧ k ≤ s ∧ s' = s - k ∧ m = rho v (10 ^ k) ∧ fits96 m ∧
      ∀ i, k0 ≤ i → i < k → ¬ fits96 (rho v (10 ^ i)) := by
  by_cases hk : k0 ≤ s
  · simp only [reduceFit, if_pos hk] at h
    obtain ⟨j, h1, h2, h3, h4⟩ := reduceFrom_some rho v _ _ _ _ h
    exact ⟨j, h1, by omega, by omega, h4⟩
  · simp [reduceFit, hk] at h

/-- The precision reducer reports OVERFLOW only when no number of dropped digits fits (41_limb_units.md R143). -/
theorem reduceFit_none {rho : Nat → Nat → Nat} {v s k0 : Nat} (h : reduceFit v s rho k0 = none) :
    ∀ k, k0 ≤ k → k ≤ s → ¬ fits96 (rho v (10 ^ k)) := by
  intro k h1 h2
  have hk : k0 ≤ s := by omega
  simp only [reduceFit, if_pos hk] at h
  exact reduceFrom_none rho v _ _ h k h1 (by omega)

/-- A magnitude that fits at once is not reduced further (41_limb_units.md R143). -/
theorem reduceFit_of_fits {rho : Nat → Nat → Nat} {v s k0 : Nat} (h : k0 ≤ s)
    (hf : fits96 (rho v (10 ^ k0))) : reduceFit v s rho k0 = some (s - k0, rho v (10 ^ k0)) := by
  simp only [reduceFit, if_pos h]
  cases s - k0 with
  | zero => simp only [reduceFrom, if_pos hf]
  | succ n => simp only [reduceFrom, if_pos hf]

theorem rne_one (n : Nat) : rne n 1 = n := by simp [rne, Nat.mod_one]

theorem rhaz_one (n : Nat) : rhaz n 1 = n := by simp [rhaz, Nat.mod_one]

theorem rhtz_one (n : Nat) : rhtz n 1 = n := by simp [rhtz, Nat.mod_one]

/-- The largest scale found fits and no larger one does (42_arithmetic.md R162). -/
theorem largestFit_some {quot : Nat → Nat} {lo t : Nat} : ∀ {room}, largestFit quot lo room = some t →
    lo ≤ t ∧ t ≤ lo + room ∧ fits96 (quot t) ∧ ∀ u, t < u → u ≤ lo + room → ¬ fits96 (quot u) := by
  intro room
  induction room with
  | zero =>
    intro h
    by_cases hf : fits96 (quot lo)
    · simp only [largestFit, if_pos hf, Option.some.injEq] at h
      subst h
      exact ⟨le_rfl, le_rfl, hf, fun u h1 h2 => by omega⟩
    · simp [largestFit, hf] at h
  | succ room ih =>
    intro h
    by_cases hf : fits96 (quot (lo + room + 1))
    · simp only [largestFit, if_pos hf, Option.some.injEq] at h
      subst h
      exact ⟨by omega, by omega, hf, fun u h1 h2 => by omega⟩
    · simp only [largestFit, if_neg hf] at h
      obtain ⟨h1, h2, h3, h4⟩ := ih h
      refine ⟨h1, by omega, h3, fun u hu hle => ?_⟩
      rcases Nat.eq_or_lt_of_le hle with rfl | hlt
      · exact hf
      · exact h4 u hu (by omega)

/-- No scale is found only when none fits (42_arithmetic.md R162). -/
theorem largestFit_none {quot : Nat → Nat} {lo : Nat} : ∀ {room}, largestFit quot lo room = none →
    ∀ u, lo ≤ u → u ≤ lo + room → ¬ fits96 (quot u) := by
  intro room
  induction room with
  | zero =>
    intro h u h1 h2
    obtain rfl : u = lo := by omega
    by_contra hf
    simp [largestFit, hf] at h
  | succ room ih =>
    intro h u h1 h2
    by_cases hf : fits96 (quot (lo + room + 1))
    · simp [largestFit, hf] at h
    · simp only [largestFit, if_neg hf] at h
      rcases Nat.eq_or_lt_of_le h2 with rfl | hlt
      · exact hf
      · exact ih h u h1 (by omega)

/-- What RESCALE's loop does: the value is kept, and it stops at the target or when no digit fits
(43_rounding.md R180). -/
theorem scaleUp_spec : ∀ room t m, fits96 m →
    t ≤ (scaleUp room t m).1 ∧ (scaleUp room t m).1 ≤ t + room ∧ fits96 (scaleUp room t m).2 ∧
    (scaleUp room t m).2 = m * 10 ^ ((scaleUp room t m).1 - t) ∧
    ((scaleUp room t m).1 = t + room ∨ ¬ fits96 ((scaleUp room t m).2 * 10)) := by
  intro room
  induction room with
  | zero => intro t m hm; simp [scaleUp, hm]
  | succ room ih =>
    intro t m hm
    by_cases hf : fits96 (m * 10)
    · have e : scaleUp (room + 1) t m = scaleUp room (t + 1) (m * 10) := by simp only [scaleUp, if_pos hf]
      obtain ⟨h1, h2, h3, h4, h5⟩ := ih (t + 1) (m * 10) hf
      rw [e]
      refine ⟨by omega, by omega, h3, ?_, by rcases h5 with h5 | h5 <;> [left; right] <;> [omega; exact h5]⟩
      have hp : (scaleUp room (t + 1) (m * 10)).1 - t = (scaleUp room (t + 1) (m * 10)).1 - (t + 1) + 1 := by
        omega
      rw [hp, pow_succ', ← mul_assoc]
      exact h4
    · have e : scaleUp (room + 1) t m = (t, m) := by simp only [scaleUp, if_neg hf]
      rw [e]
      exact ⟨le_rfl, by omega, hm, by simp, .inr hf⟩

end Sys2Proof.Machine
end

