-- ==== Sys2Proof/Laws/Commands.lean ====
section
/-!
SUPPORT. What each shared operation of the commands can answer: the operand checks, the value functions, and the one
inversion of `exec` (40_value_ops.md R100).
-/
namespace Sys2Proof.Machine

/-! ### The operand checks -/

theorem withA_of_valid {op : PackedBits → Ending} {s : State} (h : isValid s.opA = true) :
    withA op s = s.finish (op s.opA) := by simp [withA, h]

theorem withA_of_invalid {op : PackedBits → Ending} {s : State} (h : isValid s.opA = false) :
    withA op s = .next (s.raise .invalidA) := by simp [withA, h]

theorem withAB_of_valid {op : PackedBits → PackedBits → Ending} {s : State} (ha : isValid s.opA = true)
    (hb : isValid s.opB = true) : withAB op s = s.finish (op s.opA s.opB) := by simp [withAB, ha, hb]

theorem withAB_of_invalidA {op : PackedBits → PackedBits → Ending} {s : State} (h : isValid s.opA = false) :
    withAB op s = .next (s.raise .invalidA) := by simp [withAB, h]

theorem withAB_of_invalidB {op : PackedBits → PackedBits → Ending} {s : State} (ha : isValid s.opA = true)
    (hb : isValid s.opB = false) : withAB op s = .next (s.raise .invalidB) := by simp [withAB, ha, hb]

@[simp] theorem finish_succeed (s : State) (v : PackedBits) :
    s.finish (.succeed v) = .next (s.succeed v) := rfl

@[simp] theorem finish_compared (s : State) (c : CmpResult) :
    s.finish (.compared c) = .next (s.setCmp c).succeedNoR := rfl

@[simp] theorem finish_raise (s : State) (e : ErrorCode) : s.finish (.raise e) = .next (s.raise e) := rfl

@[simp] theorem finish_internalDivZero (s : State) :
    s.finish .internalDivZero = .fault .internalDivZero := rfl

/-! ### Arithmetic on aligned operands -/

theorem alignedLeft_pos {a b : PackedBits} (h : mantOf a ≠ 0) : 0 < alignedLeft a b :=
  Nat.mul_pos (Nat.pos_of_ne_zero h) (by positivity)

theorem alignedRight_pos {a b : PackedBits} (h : mantOf b ≠ 0) : 0 < alignedRight a b :=
  Nat.mul_pos (Nat.pos_of_ne_zero h) (by positivity)

theorem commonScale_le {a b : PackedBits} (ha : isValid a = true) (hb : isValid b = true) :
    commonScale a b ≤ 28 := by
  have h1 := scaleOf_le_of_valid ha
  have h2 := scaleOf_le_of_valid hb
  simp only [commonScale]; omega

/-- The remainder at the common scale fits in 96 bits (42_arithmetic.md R167). -/
theorem aligned_mod_fits {a b : PackedBits} (h : mantOf b ≠ 0) :
    fits96 (alignedLeft a b % alignedRight a b) := by
  have hpos := alignedRight_pos (a := a) h
  by_cases he : scaleOf b ≤ scaleOf a
  · have hl : alignedLeft a b = mantOf a := by
      simp only [alignedLeft, alignUp, commonScale, Nat.max_eq_left he, Nat.sub_self, pow_zero, mul_one]
    rw [hl]
    exact (Nat.mod_le _ _).trans (mantOf_le a)
  · have hr : alignedRight a b = mantOf b := by
      simp only [alignedRight, alignUp, commonScale, Nat.max_eq_right (by omega : scaleOf a ≤ scaleOf b),
        Nat.sub_self, pow_zero, mul_one]
    rw [hr] at hpos ⊢
    exact (Nat.mod_lt _ hpos).le.trans (mantOf_le b)

/-! ### How each value function ends -/

theorem endReduced_ends {s : Bool} {v sc k0 : Nat} {rho : Nat → Nat → Nat}
    (hsc : ∀ k, k0 ≤ k → k ≤ sc → sc - k ≤ 28) :
    (∃ x, isValid x = true ∧ endReduced s (reduceFit v sc rho k0) = .succeed x) ∨
      endReduced s (reduceFit v sc rho k0) = .raise .overflow := by
  cases h : reduceFit v sc rho k0 with
  | none => exact .inr rfl
  | some sm =>
    obtain ⟨k, h1, h2, h3, _, h5, _⟩ := reduceFit_some h
    exact .inl ⟨_, isValid_pack (by rw [h3]; exact hsc k h1 h2) h5, rfl⟩

theorem addsub_ends {a b : PackedBits} (ha : isValid a = true) (hb : isValid b = true) (nb : Bool) :
    (∃ v, isValid v = true ∧ addsub a b nb = .succeed v) ∨ addsub a b nb = .raise .overflow := by
  unfold addsub
  split_ifs
  · exact .inl ⟨_, isValid_pack (scaleOf_le_of_valid hb) (mantOf_le b), rfl⟩
  · exact .inl ⟨b, hb, rfl⟩
  · exact .inl ⟨a, ha, rfl⟩
  · exact endReduced_ends fun k _ _ => (Nat.sub_le _ _).trans (commonScale_le ha hb)

theorem mulValues_ends {a b : PackedBits} (ha : isValid a = true) (hb : isValid b = true) :
    (∃ v, isValid v = true ∧ mulValues a b = .succeed v) ∨ mulValues a b = .raise .overflow := by
  have h1 := scaleOf_le_of_valid ha
  have h2 := scaleOf_le_of_valid hb
  unfold mulValues
  split_ifs
  · exact .inl ⟨_, isValid_canonicalZero, rfl⟩
  · exact endReduced_ends fun k hk _ => by simp only [Config.maxScale] at hk; omega

theorem inexactQuotient_ends {a b : PackedBits} (ha : isValid a = true) :
    (∃ v, isValid v = true ∧ inexactQuotient a b = .succeed v) ∨ inexactQuotient a b = .raise .overflow := by
  have h1 := scaleOf_le_of_valid ha
  have h0 : quotientScale a b ≤ 28 := by unfold quotientScale; omega
  unfold inexactQuotient
  split
  · exact .inr rfl
  · rename_i t h
    obtain ⟨_, h3, h4, _⟩ := largestFit_some h
    obtain ⟨_, h6, _⟩ := strip_spec (m := roundedQuotient a b t) (Nat.zero_le t)
    simp only [Config.maxScale] at h3
    exact .inl ⟨_, isValid_pack (by omega) (strip_fits (Nat.zero_le t) h4), rfl⟩

theorem divValues_ends {a b : PackedBits} (ha : isValid a = true) :
    (∃ v, isValid v = true ∧ divValues a b = .succeed v) ∨
      (mantOf b = 0 ∧ divValues a b = .raise .divByZero) ∨
      (mantOf b ≠ 0 ∧ divValues a b = .raise .overflow) := by
  have h1 := scaleOf_le_of_valid ha
  have h0 : quotientScale a b ≤ 28 := by unfold quotientScale; omega
  by_cases hb : mantOf b = 0
  · exact .inr (.inl ⟨hb, by simp [divValues, hb]⟩)
  by_cases hm : mantOf a = 0
  · exact .inl ⟨_, isValid_canonicalZero, by simp [divValues, hb, hm]⟩
  simp only [divValues, if_neg hb, if_neg hm, divrem_of_pos hb]
  split_ifs with h2 h3
  · exact .inl ⟨_, isValid_pack h0 h3, rfl⟩
  · exact .inr (.inr ⟨hb, rfl⟩)
  · rcases inexactQuotient_ends (b := b) ha with h | h
    · exact .inl h
    · exact .inr (.inr ⟨hb, h⟩)

theorem remValues_ends {a b : PackedBits} (ha : isValid a = true) (hvb : isValid b = true) :
    (∃ v, isValid v = true ∧ remValues a b = .succeed v) ∨
      (mantOf b = 0 ∧ remValues a b = .raise .divByZero) := by
  by_cases hb : mantOf b = 0
  · exact .inr ⟨hb, by simp [remValues, hb]⟩
  by_cases hm : mantOf a = 0
  · exact .inl ⟨_, isValid_canonicalZero, by simp [remValues, hb, hm]⟩
  have hy := (alignedRight_pos (a := a) hb).ne'
  have hf : scaleOf a ≤ commonScale a b := by unfold commonScale; omega
  have hc := commonScale_le ha hvb
  obtain ⟨_, h2, _⟩ := strip_spec (m := alignedLeft a b % alignedRight a b) hf
  simp only [remValues, if_neg hb, if_neg hm, divrem_of_pos hy]
  exact .inl ⟨_, isValid_pack (by omega) (strip_fits hf (aligned_mod_fits hb)), rfl⟩

theorem rescaleValue_ends {a : PackedBits} (ha : isValid a = true) (imm : Nat) :
    ∃ v, isValid v = true ∧ rescaleValue imm a = .succeed v := by
  have h1 := scaleOf_le_of_valid ha
  have hm := mantOf_le a
  have h28 : min imm Config.maxScale ≤ 28 := by simp only [Config.maxScale]; omega
  unfold rescaleValue
  simp only
  split_ifs with h2 h3 h4
  · exact ⟨a, ha, rfl⟩
  · exact ⟨_, isValid_pack h28 (by unfold fits96; omega), rfl⟩
  · refine ⟨_, isValid_pack h28 ?_, rfl⟩
    rw [rhaz_eq_add_incr _ _ false]
    exact incr_fits hm (by omega) _ _ _ _ _ rfl
  · obtain ⟨_, h6, h7, _⟩ := scaleUp_spec (min imm Config.maxScale - scaleOf a) (scaleOf a) (mantOf a) hm
    exact ⟨_, isValid_pack (by omega) h7, rfl⟩

theorem roundValue_ends {a : PackedBits} (ha : isValid a = true) (mode : RoundMode) (dp : Nat) :
    ∃ v, isValid v = true ∧ roundValue mode dp a = .succeed v := by
  have h1 := scaleOf_le_of_valid ha
  unfold roundValue
  simp only [alignDown]
  split_ifs with h
  · exact ⟨a, ha, rfl⟩
  · exact ⟨_, isValid_pack (by omega) (incr_fits (mantOf_le a) (by omega) _ _ _ _ _ rfl), rfl⟩

theorem normValue_ends {a : PackedBits} (ha : isValid a = true) :
    ∃ v, isValid v = true ∧ normValue a = .succeed v := by
  have h1 := scaleOf_le_of_valid ha
  obtain ⟨_, h2, _⟩ := strip_spec (m := mantOf a) (Nat.zero_le (scaleOf a))
  unfold normValue
  split_ifs
  · exact ⟨_, isValid_canonicalZero, rfl⟩
  · exact ⟨_, isValid_pack (by omega) (strip_fits (Nat.zero_le _) (mantOf_le a)), rfl⟩

theorem mant_div_fits (a : PackedBits) (k : Nat) : fits96 (mantOf a / 10 ^ k) :=
  (Nat.div_le_self _ _).trans (mantOf_le a)

theorem isValid_truncOf (a : PackedBits) : isValid (truncOf a) = true :=
  isValid_pack (by omega) (mant_div_fits a _)

/-- The adjusted integer part of a valid value fits (43_rounding.md R188, R189). -/
theorem mant_div_succ_fits {a : PackedBits} (h : mantOf a % 10 ^ scaleOf a ≠ 0) :
    fits96 (mantOf a / 10 ^ scaleOf a + 1) := by
  refine div_pow_succ_fits (mantOf_le a) ?_
  by_contra hk
  have h0 : scaleOf a = 0 := by omega
  simp [h0, Nat.mod_one] at h

/-- FRACT's subtraction never overflows: the difference is `m mod 10^e` at scale `e`, with the sign of `a`
(43_rounding.md R187). -/
theorem fractValue_eq {a : PackedBits} (ha : isValid a = true) (hm : mantOf a ≠ 0) :
    fractValue a = .succeed (pack (signOf a) (scaleOf a) (mantOf a % 10 ^ scaleOf a)) := by
  have h1 := scaleOf_le_of_valid ha
  have hfit : fits96 (mantOf a % 10 ^ scaleOf a) := (Nat.mod_le _ _).trans (mantOf_le a)
  have hq := mant_div_fits a (scaleOf a)
  have hts : scaleOf (truncOf a) = 0 := scaleOf_pack (by omega) hq
  have htm : mantOf (truncOf a) = mantOf a / 10 ^ scaleOf a := mantOf_pack (by omega) hq
  have htg : signOf (truncOf a) = signOf a := signOf_pack (by omega) hq
  have hdm := Nat.div_add_mod (mantOf a) (10 ^ scaleOf a)
  unfold fractValue addsub
  rw [if_neg hm]
  split_ifs with h0
  · rw [htm] at h0
    have : mantOf a % 10 ^ scaleOf a = mantOf a := by
      rw [h0] at hdm; omega
    rw [this, pack_fields ha]
  · have hS : commonScale a (truncOf a) = scaleOf a := by simp [commonScale, hts]
    have hX : alignedLeft a (truncOf a) = mantOf a := by simp [alignedLeft, alignUp, hS]
    have hY : alignedRight a (truncOf a) = mantOf a / 10 ^ scaleOf a * 10 ^ scaleOf a := by
      simp [alignedRight, alignUp, hS, hts, htm]
    have hsum : signedSum (signOf a) (xor (signOf (truncOf a)) true) (alignedLeft a (truncOf a))
        (alignedRight a (truncOf a)) = (signOf a, mantOf a % 10 ^ scaleOf a) := by
      rw [hX, hY, htg, signedSum]
      have hne : signOf a ≠ (signOf a ^^ true) := by cases signOf a <;> simp
      have hle : mantOf a ≥ mantOf a / 10 ^ scaleOf a * 10 ^ scaleOf a := Nat.div_mul_le_self _ _
      rw [if_neg hne, if_pos hle]
      congr 1
      rw [mul_comm] at hdm; omega
    have hred : reduceFit (mantOf a % 10 ^ scaleOf a) (scaleOf a) rne 0 =
        some (scaleOf a, mantOf a % 10 ^ scaleOf a) := by
      have := reduceFit_of_fits (rho := rne) (v := mantOf a % 10 ^ scaleOf a) (Nat.zero_le (scaleOf a))
        (by rw [pow_zero, rne_one]; exact hfit)
      rwa [pow_zero, rne_one] at this
    simp only [hsum, hS, hred, endReduced]

theorem fractValue_ends {a : PackedBits} (ha : isValid a = true) :
    ∃ v, isValid v = true ∧ fractValue a = .succeed v := by
  by_cases hm : mantOf a = 0
  · refine ⟨truncOf a, isValid_truncOf a, ?_⟩
    have : mantOf (truncOf a) = 0 := by
      rw [truncOf, alignDown, mantOf_pack (by omega) (mant_div_fits a _), hm, Nat.zero_div]
    simp [fractValue, addsub, hm, this]
  · exact ⟨_, isValid_pack (scaleOf_le_of_valid ha) ((Nat.mod_le _ _).trans (mantOf_le a)),
      fractValue_eq ha hm⟩

theorem floorValue_ends (a : PackedBits) : ∃ v, isValid v = true ∧ floorValue a = .succeed v := by
  refine ⟨_, isValid_pack (by omega) ?_, rfl⟩
  by_cases h : signOf a = true ∧ (alignDown (mantOf a) (scaleOf a)).2 ≠ 0
  · rw [if_pos h]; exact mant_div_succ_fits h.2
  · rw [if_neg h]; exact mant_div_fits a _

theorem ceilValue_ends (a : PackedBits) : ∃ v, isValid v = true ∧ ceilValue a = .succeed v := by
  refine ⟨_, isValid_pack (by omega) ?_, rfl⟩
  by_cases h : signOf a = false ∧ (alignDown (mantOf a) (scaleOf a)).2 ≠ 0
  · rw [if_pos h]; exact mant_div_succ_fits h.2
  · rw [if_neg h]; exact mant_div_fits a _

theorem negValue_ends {a : PackedBits} (ha : isValid a = true) :
    ∃ v, isValid v = true ∧ negValue a = .succeed v :=
  ⟨_, isValid_pack (scaleOf_le_of_valid ha) (mantOf_le a), rfl⟩

theorem absValue_ends {a : PackedBits} (ha : isValid a = true) :
    ∃ v, isValid v = true ∧ absValue a = .succeed v :=
  ⟨_, isValid_pack (scaleOf_le_of_valid ha) (mantOf_le a), rfl⟩

theorem setscaleValue_ends (a : PackedBits) (imm : Nat) :
    (∃ v, isValid v = true ∧ setscaleValue imm a = .succeed v) ∨
      (28 < imm ∧ setscaleValue imm a = .raise .scaleOutOfRange) := by
  unfold setscaleValue
  split_ifs with h
  · exact .inr ⟨h, rfl⟩
  · exact .inl ⟨_, isValid_pack (by simp only [Config.maxScale] at h; omega) (mantOf_le a), rfl⟩

/-! ### The meaning of each command over the operand checks -/

theorem exec_add (s : State) : exec .add s = withAB (fun a b => addsub a b false) s := rfl
theorem exec_sub (s : State) : exec .sub s = withAB (fun a b => addsub a b true) s := rfl
theorem exec_mul (s : State) : exec .mul s = withAB mulValues s := rfl
theorem exec_div (s : State) : exec .div s = withAB divValues s := rfl
theorem exec_rem (s : State) : exec .rem s = withAB remValues s := rfl
theorem exec_cmp (s : State) :
    exec .cmp s = withAB (fun a b => .compared (CmpResult.ofOrdering (cmpValues a b))) s := rfl
theorem exec_rescale (n : Nat) (s : State) : exec (.rescale n) s = withA (rescaleValue n) s := rfl
theorem exec_roundRne (n : Nat) (s : State) : exec (.roundRne n) s = withA (roundValue .rne n) s := rfl
theorem exec_roundRhaz (n : Nat) (s : State) : exec (.roundRhaz n) s = withA (roundValue .rhaz n) s := rfl
theorem exec_roundRhtz (n : Nat) (s : State) : exec (.roundRhtz n) s = withA (roundValue .rhtz n) s := rfl
theorem exec_roundRtz (n : Nat) (s : State) : exec (.roundRtz n) s = withA (roundValue .rtz n) s := rfl
theorem exec_roundRaz (n : Nat) (s : State) : exec (.roundRaz n) s = withA (roundValue .raz n) s := rfl
theorem exec_roundRfloor (n : Nat) (s : State) : exec (.roundRfloor n) s = withA (roundValue .rfloor n) s := rfl
theorem exec_roundRceil (n : Nat) (s : State) : exec (.roundRceil n) s = withA (roundValue .rceil n) s := rfl
theorem exec_norm (s : State) : exec .norm s = withA normValue s := rfl
theorem exec_trunc (s : State) : exec .trunc s = withA truncValue s := rfl
theorem exec_fract (s : State) : exec .fract s = withA fractValue s := rfl
theorem exec_floor (s : State) : exec .floor s = withA floorValue s := rfl
theorem exec_ceil (s : State) : exec .ceil s = withA ceilValue s := rfl
theorem exec_neg (s : State) : exec .neg s = withA negValue s := rfl
theorem exec_abs (s : State) : exec .abs s = withA absValue s := rfl
theorem exec_setscale (n : Nat) (s : State) : exec (.setscale n) s = withA (setscaleValue n) s := rfl
theorem exec_movra (s : State) : exec .movra s = .next (s.setA s.r).succeedNoR := rfl
theorem exec_movrb (s : State) : exec .movrb s = .next (s.setB s.r).succeedNoR := rfl

/-! ### The inversion of exec -/

/-- The ways a command can end: a valid result in `R`, a comparison, a register move, or an error report. -/
inductive ExecEnds (i : Instr) (s : State) : Prop where
  | succeeds (v : PackedBits) (hv : isValid v = true) (hi : i ≠ .cmp ∧ i ≠ .movra ∧ i ≠ .movrb)
      (h : exec i s = .next (s.succeed v))
  | compares (c : CmpResult) (hi : i = .cmp) (h : exec i s = .next (s.setCmp c).succeedNoR)
  | movesToA (hi : i = .movra) (h : exec i s = .next (s.setA s.r).succeedNoR)
  | movesToB (hi : i = .movrb) (h : exec i s = .next (s.setB s.r).succeedNoR)
  | errs (e : ErrorCode) (he : e ≠ .none ∧ e ≠ .illegalCommand) (h : exec i s = .next (s.raise e))

theorem withA_ends {i : Instr} {s : State} {op : PackedBits → Ending} (hi : i ≠ .cmp ∧ i ≠ .movra ∧ i ≠ .movrb)
    (hx : exec i s = withA op s)
    (hop : isValid s.opA = true → (∃ v, isValid v = true ∧ op s.opA = .succeed v) ∨
      ∃ e, (e ≠ .none ∧ e ≠ .illegalCommand) ∧ op s.opA = .raise e) : ExecEnds i s := by
  cases h : isValid s.opA with
  | false => exact .errs .invalidA (by decide) (hx.trans (withA_of_invalid h))
  | true =>
    rcases hop h with ⟨v, hv, ho⟩ | ⟨e, he, ho⟩
    · exact .succeeds v hv hi (by rw [hx, withA_of_valid h, ho]; rfl)
    · exact .errs e he (by rw [hx, withA_of_valid h, ho]; rfl)

theorem withAB_ends {i : Instr} {s : State} {op : PackedBits → PackedBits → Ending}
    (hi : i ≠ .cmp ∧ i ≠ .movra ∧ i ≠ .movrb) (hx : exec i s = withAB op s)
    (hop : isValid s.opA = true → isValid s.opB = true →
      (∃ v, isValid v = true ∧ op s.opA s.opB = .succeed v) ∨
      ∃ e, (e ≠ .none ∧ e ≠ .illegalCommand) ∧ op s.opA s.opB = .raise e) : ExecEnds i s := by
  cases ha : isValid s.opA with
  | false => exact .errs .invalidA (by decide) (hx.trans (withAB_of_invalidA ha))
  | true =>
    cases hb : isValid s.opB with
    | false => exact .errs .invalidB (by decide) (hx.trans (withAB_of_invalidB ha hb))
    | true =>
      rcases hop ha hb with ⟨v, hv, ho⟩ | ⟨e, he, ho⟩
      · exact .succeeds v hv hi (by rw [hx, withAB_of_valid ha hb, ho]; rfl)
      · exact .errs e he (by rw [hx, withAB_of_valid ha hb, ho]; rfl)

/-- Everything `exec` can answer, for every command and every state (40_value_ops.md R100). -/
theorem exec_ends (i : Instr) (s : State) : ExecEnds i s := by
  cases i with
  | add =>
    exact withAB_ends (op := fun a b => addsub a b false) (by simp) rfl fun ha hb =>
      (addsub_ends ha hb false).imp_right fun h => ⟨.overflow, by decide, h⟩
  | sub =>
    exact withAB_ends (op := fun a b => addsub a b true) (by simp) rfl fun ha hb =>
      (addsub_ends ha hb true).imp_right fun h => ⟨.overflow, by decide, h⟩
  | mul =>
    exact withAB_ends (by simp) rfl fun ha hb => (mulValues_ends ha hb).imp_right fun h => ⟨_, by decide, h⟩
  | div =>
    refine withAB_ends (by simp) rfl fun ha _ => (divValues_ends ha).imp_right fun h => ?_
    rcases h with h | h
    · exact ⟨_, by decide, h.2⟩
    · exact ⟨_, by decide, h.2⟩
  | rem =>
    exact withAB_ends (by simp) rfl fun ha hb => (remValues_ends ha hb).imp_right fun h => ⟨_, by decide, h.2⟩
  | cmp =>
    have hx : exec .cmp s = withAB (fun a b => .compared (CmpResult.ofOrdering (cmpValues a b))) s := rfl
    cases ha : isValid s.opA with
    | false => exact .errs .invalidA (by decide) (hx.trans (withAB_of_invalidA ha))
    | true =>
      cases hb : isValid s.opB with
      | false => exact .errs .invalidB (by decide) (hx.trans (withAB_of_invalidB ha hb))
      | true => exact .compares _ rfl (hx.trans (withAB_of_valid ha hb))
  | rescale t => exact withA_ends (by simp) rfl fun ha => .inl (rescaleValue_ends ha t)
  | roundRne dp => exact withA_ends (by simp) rfl fun ha => .inl (roundValue_ends ha _ dp)
  | roundRhaz dp => exact withA_ends (by simp) rfl fun ha => .inl (roundValue_ends ha _ dp)
  | roundRhtz dp => exact withA_ends (by simp) rfl fun ha => .inl (roundValue_ends ha _ dp)
  | roundRtz dp => exact withA_ends (by simp) rfl fun ha => .inl (roundValue_ends ha _ dp)
  | roundRaz dp => exact withA_ends (by simp) rfl fun ha => .inl (roundValue_ends ha _ dp)
  | roundRfloor dp => exact withA_ends (by simp) rfl fun ha => .inl (roundValue_ends ha _ dp)
  | roundRceil dp => exact withA_ends (by simp) rfl fun ha => .inl (roundValue_ends ha _ dp)
  | norm => exact withA_ends (by simp) rfl fun ha => .inl (normValue_ends ha)
  | trunc => exact withA_ends (by simp) rfl fun _ => .inl ⟨_, isValid_truncOf _, rfl⟩
  | fract => exact withA_ends (by simp) rfl fun ha => .inl (fractValue_ends ha)
  | floor => exact withA_ends (by simp) rfl fun _ => .inl (floorValue_ends _)
  | ceil => exact withA_ends (by simp) rfl fun _ => .inl (ceilValue_ends _)
  | neg => exact withA_ends (by simp) rfl fun ha => .inl (negValue_ends ha)
  | abs => exact withA_ends (by simp) rfl fun ha => .inl (absValue_ends ha)
  | setscale t =>
    exact withA_ends (by simp) rfl fun _ => (setscaleValue_ends _ t).imp_right fun h => ⟨_, by decide, h.2⟩
  | movra => exact .movesToA rfl rfl
  | movrb => exact .movesToB rfl rfl

end Sys2Proof.Machine
end

