-- ==== Sys2Proof/Laws/Decode.lean ====
section
/-!
SUPPORT. The fields of a command word and of an encoded command as numbers (30_encoding.md R71, R78), and the bytes
of a word (20_memory.md R52).
-/
namespace Sys2Proof

theorem opcField_eq_mod (w : Word) : opcField w = w.toNat % 2 ^ 5 := by
  simp [opcField, BitVec.extractLsb'_toNat]

theorem rmField_eq_div (w : Word) : rmField w = w.toNat / 2 ^ 5 % 2 ^ 3 := by
  simp [rmField, BitVec.extractLsb'_toNat, Nat.shiftRight_eq_div_pow]

theorem immField_eq_div (w : Word) : immField w = w.toNat / 2 ^ 8 % 2 ^ 8 := by
  simp [immField, BitVec.extractLsb'_toNat, Nat.shiftRight_eq_div_pow]

theorem resvField_eq_div (w : Word) : resvField w = w.toNat / 2 ^ 16 := by
  have h := w.isLt
  simp only [resvField, BitVec.extractLsb'_toNat, Nat.shiftRight_eq_div_pow]
  omega

/-- The four fields make up the word (30_encoding.md R70). -/
theorem fields_make_word (w : Word) :
    w.toNat = resvField w * 2 ^ 16 + immField w * 2 ^ 8 + rmField w * 2 ^ 5 + opcField w := by
  rw [opcField_eq_mod, rmField_eq_div, immField_eq_div, resvField_eq_div]
  omega

theorem rmCode_lt (i : Instr) : i.rmCode < 7 := by
  cases i <;> simp [Instr.rmCode, Instr.mode?, RoundMode.code]

theorem opcode_lt (i : Instr) : i.opcode < 0x13 := by cases i <;> simp [Instr.opcode]

/-- A well-formed immediate fits the field IMM (30_encoding.md R75). -/
theorem immCode_le {i : Instr} (h : i.WellFormed) : i.immCode ≤ 255 := by
  cases i <;> simp [Instr.immCode, Instr.imm?] <;> simpa [Instr.WellFormed, Instr.wellFormed] using h

theorem encode_toNat {i : Instr} (h : i.WellFormed) :
    (encode i).toNat = i.immCode * 2 ^ 8 + i.rmCode * 2 ^ 5 + i.opcode := by
  have h1 := immCode_le h
  have h2 := rmCode_lt i
  have h3 := opcode_lt i
  rw [encode, BitVec.toNat_ofNat]
  omega

/-- The fields of an encoded command (30_encoding.md R78). -/
theorem encode_fields {i : Instr} (h : i.WellFormed) :
    opcField (encode i) = i.opcode ∧ rmField (encode i) = i.rmCode ∧ immField (encode i) = i.immCode ∧
      resvField (encode i) = 0 := by
  have h1 := immCode_le h
  have h2 := rmCode_lt i
  have h3 := opcode_lt i
  rw [opcField_eq_mod, rmField_eq_div, immField_eq_div, resvField_eq_div, encode_toNat h]
  omega

/-- The bytes of a word put together again are the word (20_memory.md R52). -/
theorem wordOfBytes_byteOfWord (w : Word) :
    wordOfBytes (byteOfWord w 0) (byteOfWord w 1) (byteOfWord w 2) (byteOfWord w 3) = w := by
  apply BitVec.eq_of_getLsbD_eq
  intro i hi
  simp only [wordOfBytes, byteOfWord, BitVec.getLsbD_append, BitVec.getLsbD_extractLsb']
  repeat' split
  all_goals
    rw [decide_eq_true (by omega), Bool.true_and]
    exact congrArg _ (by omega)

end Sys2Proof
end

