-- ==== Sys2Proof/Laws/PerInstr.lean ====
section
/-!
SUPPORT. The per-command family RowMatch: a well-formed command's word lies in the row of spec/opcode_table.json that
bears its mnemonic (30_encoding.md R72, R77, R78).
-/
namespace Sys2Proof.Laws.RowMatch

/-- The word of `i` matches a row of the table with `i`'s mnemonic (30_encoding.md R77). -/
def Statement (i : Instr) : Prop :=
  i.WellFormed → ∃ row ∈ opcodeTable, row.mnemonic = i.mnemonic ∧ row.matchesWord (encode i) = true

/-- A row with a free immediate holds every word that sets nothing else. -/
theorem immediate_row_holds : ∀ row ∈ immediateRows, ∀ n : Fin 256,
    row.matchesWord (BitVec.ofNat 32 (n.val * 2 ^ 8 + row.pattern.toNat)) = true := by decide +kernel

theorem of_immediate_row {i : Instr} {row : OpcodeRow} (hr : row ∈ immediateRows)
    (hm : row.mnemonic = i.mnemonic) (hp : i.rmCode * 2 ^ 5 + i.opcode = row.pattern.toNat) : Statement i := by
  intro h
  have h1 := immCode_le h
  refine ⟨row, List.mem_append_right _ hr, hm, ?_⟩
  have := immediate_row_holds row hr ⟨i.immCode, by omega⟩
  rwa [← hp, ← Nat.add_assoc] at this

theorem of_fixed_row {i : Instr} {row : OpcodeRow} (hr : row ∈ fixedRows)
    (hm : row.mnemonic = i.mnemonic) (hw : row.matchesWord (encode i) = true) : Statement i :=
  fun _ => ⟨row, List.mem_append_left _ hr, hm, hw⟩

theorem add : Statement .add := of_fixed_row (row := ⟨"ADD", 0x00000001, 0xFFFFFFFF⟩) (by decide) rfl (by decide)
theorem sub : Statement .sub := of_fixed_row (row := ⟨"SUB", 0x00000002, 0xFFFFFFFF⟩) (by decide) rfl (by decide)
theorem mul : Statement .mul := of_fixed_row (row := ⟨"MUL", 0x00000003, 0xFFFFFFFF⟩) (by decide) rfl (by decide)
theorem div : Statement .div := of_fixed_row (row := ⟨"DIV", 0x00000004, 0xFFFFFFFF⟩) (by decide) rfl (by decide)
theorem rem : Statement .rem := of_fixed_row (row := ⟨"REM", 0x00000005, 0xFFFFFFFF⟩) (by decide) rfl (by decide)
theorem cmp : Statement .cmp := of_fixed_row (row := ⟨"CMP", 0x00000006, 0xFFFFFFFF⟩) (by decide) rfl (by decide)
theorem rescale (target : Nat) : Statement (.rescale target) :=
  of_immediate_row (row := ⟨"RESCALE", 0x00000007, 0xFFFF00FF⟩) (by decide) rfl rfl
theorem roundRne (dp : Nat) : Statement (.roundRne dp) :=
  of_immediate_row (row := ⟨"ROUND.RNE", 0x00000008, 0xFFFF00FF⟩) (by decide) rfl rfl
theorem roundRhaz (dp : Nat) : Statement (.roundRhaz dp) :=
  of_immediate_row (row := ⟨"ROUND.RHAZ", 0x00000028, 0xFFFF00FF⟩) (by decide) rfl rfl
theorem roundRhtz (dp : Nat) : Statement (.roundRhtz dp) :=
  of_immediate_row (row := ⟨"ROUND.RHTZ", 0x00000048, 0xFFFF00FF⟩) (by decide) rfl rfl
theorem roundRtz (dp : Nat) : Statement (.roundRtz dp) :=
  of_immediate_row (row := ⟨"ROUND.RTZ", 0x00000068, 0xFFFF00FF⟩) (by decide) rfl rfl
theorem roundRaz (dp : Nat) : Statement (.roundRaz dp) :=
  of_immediate_row (row := ⟨"ROUND.RAZ", 0x00000088, 0xFFFF00FF⟩) (by decide) rfl rfl
theorem roundRfloor (dp : Nat) : Statement (.roundRfloor dp) :=
  of_immediate_row (row := ⟨"ROUND.RFLOOR", 0x000000A8, 0xFFFF00FF⟩) (by decide) rfl rfl
theorem roundRceil (dp : Nat) : Statement (.roundRceil dp) :=
  of_immediate_row (row := ⟨"ROUND.RCEIL", 0x000000C8, 0xFFFF00FF⟩) (by decide) rfl rfl
theorem norm : Statement .norm := of_fixed_row (row := ⟨"NORM", 0x00000009, 0xFFFFFFFF⟩) (by decide) rfl (by decide)
theorem trunc : Statement .trunc :=
  of_fixed_row (row := ⟨"TRUNC", 0x0000000A, 0xFFFFFFFF⟩) (by decide) rfl (by decide)
theorem fract : Statement .fract :=
  of_fixed_row (row := ⟨"FRACT", 0x0000000B, 0xFFFFFFFF⟩) (by decide) rfl (by decide)
theorem floor : Statement .floor :=
  of_fixed_row (row := ⟨"FLOOR", 0x0000000C, 0xFFFFFFFF⟩) (by decide) rfl (by decide)
theorem ceil : Statement .ceil := of_fixed_row (row := ⟨"CEIL", 0x0000000D, 0xFFFFFFFF⟩) (by decide) rfl (by decide)
theorem neg : Statement .neg := of_fixed_row (row := ⟨"NEG", 0x0000000E, 0xFFFFFFFF⟩) (by decide) rfl (by decide)
theorem abs : Statement .abs := of_fixed_row (row := ⟨"ABS", 0x0000000F, 0xFFFFFFFF⟩) (by decide) rfl (by decide)
theorem setscale (scale : Nat) : Statement (.setscale scale) :=
  of_immediate_row (row := ⟨"SETSCALE", 0x00000010, 0xFFFF00FF⟩) (by decide) rfl rfl
theorem movra : Statement .movra :=
  of_fixed_row (row := ⟨"MOVRA", 0x00000011, 0xFFFFFFFF⟩) (by decide) rfl (by decide)
theorem movrb : Statement .movrb :=
  of_fixed_row (row := ⟨"MOVRB", 0x00000012, 0xFFFFFFFF⟩) (by decide) rfl (by decide)

end Sys2Proof.Laws.RowMatch
end

