-- ==== Sys2Proof/Laws/Window.lean ====
section
/-!
SUPPORT. The register window and the turn of the machine: where an access lands, everything a host slot can do, and
everything a step can do (20_memory.md R51 to R57, 70_reset_and_hazards.md R257 to R261).
-/
namespace Sys2Proof.Machine

/-! ### Where an access lands -/

@[simp] theorem rowAt_rowOffset (w : WindowRow) : rowAt (rowOffset w) = some w := by cases w <;> rfl

theorem rowOffset_lt (w : WindowRow) : rowOffset w < 64 := by cases w <;> decide

theorem rowOffset_mod (w : WindowRow) : rowOffset w % 4 = 0 := by cases w <;> decide

theorem rowOffset_of_rowAt {o : Nat} {w : WindowRow} (h : rowAt o = some w) : o = rowOffset w := by
  unfold rowAt at h
  split at h <;> first | (cases h; rfl) | (cases h)

/-- The window accepts exactly the multiples of 4 below 64 (20_memory.md R51, R54). -/
theorem rowAt_isSome_iff (o : Nat) : (rowAt o).isSome ↔ o < 64 ∧ o % 4 = 0 := by
  constructor
  · intro h
    obtain ⟨w, hw⟩ := Option.isSome_iff_exists.1 h
    rw [rowOffset_of_rowAt hw]
    exact ⟨rowOffset_lt w, rowOffset_mod w⟩
  · rintro ⟨h1, h2⟩
    interval_cases o <;> first | rfl | (exfalso; omega)

@[simp] theorem locate_rowAddress (w : WindowRow) : locate (rowAddress w) 4 = some w := by
  simp [locate, rowAddress]

theorem eq_of_locate {addr width : Nat} {w : WindowRow} (h : locate addr width = some w) :
    width = 4 ∧ addr = rowAddress w := by
  unfold locate at h
  split at h
  · rename_i hc
    have := rowOffset_of_rowAt h
    exact ⟨hc.1, by unfold rowAddress; omega⟩
  · cases h

/-- `WAIT` tests the `DONE` bit of the word read (30_encoding.md R80). -/
theorem doneBit_word (st : Status) : doneBit st.word = st.done := by
  obtain ⟨busy, done, err, pv, ecode, cmpres⟩ := st
  cases busy <;> cases done <;> cases err <;> cases pv <;> cases ecode <;> cases cmpres <;> rfl

theorem pollDone_of_done {rest : List HostOp} {s : State} (h : s.status.done = true) :
    pollDone rest s = (s.setProgram rest).receive s.status.word := by
  simp [pollDone, readRow, doneBit_word, h]

theorem pollDone_of_not_done {rest : List HostOp} {s : State} (h : s.status.done = false) :
    pollDone rest s = s.receive s.status.word := by
  simp [pollDone, readRow, doneBit_word, h]

/-! ### The host's slot -/

/-- Everything a host slot can do when it answers a next state. -/
inductive HostTurn (s : State) : State → Prop where
  | quiet (h : s.program = []) : HostTurn s s
  | idles {rest} (h : s.program = .idle :: rest) : HostTurn s (s.setProgram rest)
  | reads {w rest} (h : s.program = .read (rowAddress w) 4 :: rest) :
      HostTurn s ((s.setProgram rest).receive (readRow s w))
  | polls {rest} (h : s.program = .waitDone :: rest) : HostTurn s (pollDone rest s)
  | writes {w v rest} (h : s.program = .write (rowAddress w) 4 v :: rest) (hd : isDropped s w = false) :
      HostTurn s (acceptWrite w v (s.setProgram rest))
  | resets {rest} (h : s.program = .reset :: rest) : HostTurn s (s.setProgram rest).applyReset

theorem isDropped_setProgram (s : State) (p : List HostOp) (w : WindowRow) :
    isDropped (s.setProgram p) w = isDropped s w := rfl

theorem readRow_setProgram (s : State) (p : List HostOp) (w : WindowRow) :
    readRow (s.setProgram p) w = readRow s w := by cases w <;> rfl

/-- The inversion of the host's slot. -/
theorem hostTurn_of_next {s t : State} (h : hostSlot s = .next t) : HostTurn s t := by
  unfold hostSlot at h
  split at h
  · cases h; exact .quiet ‹_›
  · rename_i addr width rest hp
    unfold busRead at h
    split at h
    · cases h
    · rename_i w hw
      obtain ⟨rfl, rfl⟩ := eq_of_locate hw
      cases h
      rw [readRow_setProgram]
      exact .reads hp
  · rename_i addr width v rest hp
    unfold busWrite at h
    split at h
    · cases h
    · rename_i w hw
      obtain ⟨rfl, rfl⟩ := eq_of_locate hw
      split at h
      · cases h
      · rename_i hd
        rw [isDropped_setProgram] at hd
        cases h
        simp only [writeRow, isDropped_setProgram, hd, if_false, Bool.false_eq_true]
        exact .writes hp (by simpa using hd)
  · cases h; exact .polls ‹_›
  · cases h; exact .idles ‹_›
  · cases h; exact .resets ‹_›

/-- A host slot never refuses and never meets a divider. -/
theorem hostSlot_ends (s : State) : (∃ t, hostSlot s = .next t) ∨ hostSlot s = .fault .busError ∨
    hostSlot s = .fault .protocolViolation := by
  unfold hostSlot busRead busWrite
  split <;> first | exact .inl ⟨_, rfl⟩ | skip
  all_goals
    split
    · exact .inr (.inl rfl)
    · first
        | exact .inl ⟨_, rfl⟩
        | (split
           · exact .inr (.inr rfl)
           · exact .inl ⟨_, rfl⟩)

/-! ### The turn -/

theorem step_of_idle {s : State} (h : s.inFlight = none) : step s = hostSlot s := by
  simp [step, turn, h]

theorem step_of_ready {s : State} {f : InFlight} (h : s.inFlight = some f) (hw : f.wait = 0) :
    step s = runWord f.cmd s := by
  simp [step, turn, h, hw]

theorem step_of_waiting {s : State} {f : InFlight} {left : Nat} (h : s.inFlight = some f)
    (hw : f.wait = left + 1) : step s = hostSlot (s.tick f left) := by
  simp [step, turn, h, hw]

/-- Everything a step can be: the completion of the command in flight, or a host slot. -/
inductive StepKind (s : State) : Prop where
  | completes (f : InFlight) (hf : s.inFlight = some f) (hw : f.wait = 0) (h : step s = runWord f.cmd s)
  | waits (f : InFlight) (left : Nat) (hf : s.inFlight = some f) (hw : f.wait = left + 1)
      (h : step s = hostSlot (s.tick f left))
  | hosts (hf : s.inFlight = none) (h : step s = hostSlot s)

theorem step_kind (s : State) : StepKind s := by
  cases hf : s.inFlight with
  | none => exact .hosts hf (step_of_idle hf)
  | some f =>
    cases hw : f.wait with
    | zero => exact .completes f hf hw (step_of_ready hf hw)
    | succ left => exact .waits f left hf hw (step_of_waiting hf hw)

/-- The word in flight, legal or not, ends in one of the ways of a command or in `ILLEGAL_COMMAND`. -/
theorem runWord_ends (w : Word) (s : State) :
    (∃ i, decodeWord w = .legal i ∧ runWord w s = exec i s) ∨
    (∃ why, decodeWord w = .illegal why ∧ runWord w s = .next (s.raise .illegalCommand)) := by
  unfold runWord
  cases h : decodeWord w with
  | legal i => exact .inl ⟨i, rfl, rfl⟩
  | illegal why => exact .inr ⟨why, rfl, rfl⟩

end Sys2Proof.Machine
end

