-- ==== Sys2Proof/Laws/Run.lean ====
section
/-!
SUPPORT. The host's turn as one host slot, and runs of several steps, one step at a time (70_reset_and_hazards.md R258).
-/
namespace Sys2Proof.Machine

/-- A host turn is the host's slot, with one slot less for the command in flight to wait. -/
theorem step_of_hostMoves {s : State} (h : s.HostMoves) :
    step s = hostSlot { s with inFlight := s.waited } := by
  cases hf : s.inFlight with
  | none =>
    have hw : s.waited = s.inFlight := by simp [State.waited, hf]
    rw [step_of_idle hf, hw]
  | some f =>
    obtain ⟨left, hl⟩ := Nat.exists_eq_succ_of_ne_zero (h f hf)
    rw [step_of_waiting hf hl]
    simp [State.waited, State.tick, hf, hl]

theorem run_zero (s : State) : Host.Core.run core 0 s = .next s := rfl

theorem run_succ_of_next {k : Nat} {s t : State} (h : step s = .next t) :
    Host.Core.run core (k + 1) s = Host.Core.run core k t := by
  have hs : core.step s = .next t := h
  simp only [Host.Core.run, hs]

/-- One step is a run of one step. -/
theorem run_one (s : State) : Host.Core.run core 1 s = step s := by
  cases h : step s with
  | next t => exact run_succ_of_next h
  | fault r =>
    have hs : core.step s = .fault r := h
    simp only [Host.Core.run, hs]
    rfl
  | refused r =>
    have hs : core.step s = .refused r := h
    simp only [Host.Core.run, hs]
    rfl

end Sys2Proof.Machine
end

