-- ==== Sys2Proof/Tests/Slice0.lean ====
section
/-!
SUPPORT. Tests: the well-formedness smoke test, decoding of words written out from the spec, one step of each command
with results from 95_test_vectors.md, the window and the protocol, and a witness for the hypotheses of every statement
of Sys2Proof/Certificates/Slice0/Obligations.lean.
-/
namespace Sys2Proof.Tests

open Sys2Proof.Machine

/-! ### Helpers -/

/-- Reset, with `A` and `B` loaded and the command word `w` placed. -/
def placed (a b : PackedBits) (w : Nat) : State :=
  ({ State.reset with a := a, b := b } : State).withFetchWord 32 w

/-- Reset, with `A`, `B` and `R` as given and a host program. -/
def hosted (a b r : PackedBits) (program : List HostOp) : State :=
  { State.reset with a := a, b := b, r := r, program := program }

/-- `R` and the `STATUS` word after one step, if it answers a next state. -/
def outcome (s : State) : Option (PackedBits × Word) :=
  match step s with
  | .next t => some (t.r, t.status.word)
  | .fault _ => none
  | .refused _ => none

/-- A host write of a row on an idle core, in one step. -/
theorem step_hosted_write (a b r : PackedBits) (w : WindowRow) (v : Word) (rest : List HostOp) :
    step (hosted a b r (opWr w v :: rest)) = .next (acceptWrite w v (hosted a b r rest)) := by
  rw [step_of_idle rfl]
  have h : isDropped (hosted a b r rest) w = false := by cases w <;> rfl
  have e : (hosted a b r (opWr w v :: rest)).setProgram rest = hosted a b r rest := rfl
  show busWrite (rowAddress w) 4 v ((hosted a b r (opWr w v :: rest)).setProgram rest) = _
  rw [e, busWrite, locate_rowAddress]
  simp [h, writeRow]

/-- `1`, a small operand. -/
def one : PackedBits := pack false 0 1

/-- `-2.5`, a tie at 0 places. -/
def negTie : PackedBits := pack true 1 25

/-- Scale 29, not a valid value (95_test_vectors.md L2.18). -/
def scale29 : PackedBits := ofWords 0x001D0000 0x00000001 0 0

/-- An ADD of `1` and `-2.5` in flight, with `wait` slots to go, and a host program. -/
def busy (wait : Nat) (program : List HostOp) : State :=
  (hosted one negTie 0 program).issueAfter 0x00000001 wait

/-- Two operands placed for any command with operands. -/
def pair (a b : PackedBits) : State := placed a b 0x00000001

/-! ### Well-formedness: an ill-formed command for each check (30_encoding.md R71, R75) -/

theorem test_wellFormed_rescale : (Instr.rescale 255).WellFormed ∧ ¬ (Instr.rescale 256).WellFormed := by decide
theorem test_wellFormed_setscale : (Instr.setscale 255).WellFormed ∧ ¬ (Instr.setscale 256).WellFormed := by decide
theorem test_wellFormed_round :
    ∀ m ∈ [RoundMode.rne, .rhaz, .rhtz, .rtz, .raz, .rfloor, .rceil],
      (Instr.round m 255).WellFormed ∧ ¬ (Instr.round m 256).WellFormed := by decide

/-! ### Decoding: each command's word, written as RESV_IMM_RM_OPC (30_encoding.md R70 to R75) -/

theorem test_decode_arithmetic :
    decodeWord 0b0000000000000000_00000000_000_00001 = .legal .add ∧
    decodeWord 0b0000000000000000_00000000_000_00010 = .legal .sub ∧
    decodeWord 0b0000000000000000_00000000_000_00011 = .legal .mul ∧
    decodeWord 0b0000000000000000_00000000_000_00100 = .legal .div ∧
    decodeWord 0b0000000000000000_00000000_000_00101 = .legal .rem := by decide
theorem test_decode_compare : decodeWord 0b0000000000000000_00000000_000_00110 = .legal .cmp := by decide
theorem test_decode_rescale :
    decodeWord 0b0000000000000000_11111111_000_00111 = .legal (.rescale 255) := by decide
theorem test_decode_round :
    decodeWord 0b0000000000000000_00000001_000_01000 = .legal (.roundRne 1) ∧
    decodeWord 0b0000000000000000_00000010_001_01000 = .legal (.roundRhaz 2) ∧
    decodeWord 0b0000000000000000_00000100_010_01000 = .legal (.roundRhtz 4) ∧
    decodeWord 0b0000000000000000_00001000_011_01000 = .legal (.roundRtz 8) ∧
    decodeWord 0b0000000000000000_00010000_100_01000 = .legal (.roundRaz 16) ∧
    decodeWord 0b0000000000000000_00100000_101_01000 = .legal (.roundRfloor 32) ∧
    decodeWord 0b0000000000000000_10000000_110_01000 = .legal (.roundRceil 128) := by decide
theorem test_decode_integer_parts :
    decodeWord 0b0000000000000000_00000000_000_01001 = .legal .norm ∧
    decodeWord 0b0000000000000000_00000000_000_01010 = .legal .trunc ∧
    decodeWord 0b0000000000000000_00000000_000_01011 = .legal .fract ∧
    decodeWord 0b0000000000000000_00000000_000_01100 = .legal .floor ∧
    decodeWord 0b0000000000000000_00000000_000_01101 = .legal .ceil := by decide
theorem test_decode_value_and_moves :
    decodeWord 0b0000000000000000_00000000_000_01110 = .legal .neg ∧
    decodeWord 0b0000000000000000_00000000_000_01111 = .legal .abs ∧
    decodeWord 0b0000000000000000_00000011_000_10000 = .legal (.setscale 3) ∧
    decodeWord 0b0000000000000000_00000000_000_10001 = .legal .movra ∧
    decodeWord 0b0000000000000000_00000000_000_10010 = .legal .movrb := by decide

/-- The bytes of ROUND.RFLOOR #2 in window order (20_memory.md R52). -/
theorem test_decode_bytes :
    decodeBytes [0xA8, 0x02, 0x00, 0x00, 0x77] = (.legal (.roundRfloor 2), [0x77]) ∧
    decodeBytes [0xA8, 0x02, 0x00] = (.illegal .incompleteWord, [0xA8, 0x02, 0x00]) := by decide

/-- The illegal words of 95_test_vectors.md L2.18. -/
theorem test_decode_illegal :
    decodeWord 0x00000000 = .illegal .opcode ∧ decodeWord 0x00000013 = .illegal .opcode ∧
    decodeWord 0x0000001F = .illegal .opcode ∧ decodeWord 0x00010001 = .illegal .reservedBits ∧
    decodeWord 0x80000001 = .illegal .reservedBits ∧ decodeWord 0x00000021 = .illegal .roundingModeUnused ∧
    decodeWord 0x000000E8 = .illegal .roundingModeReserved ∧
    decodeWord 0x00000101 = .illegal .immediateUnused ∧
    decodeWord 0x00000106 = .illegal .immediateUnused := by decide

/-- The host's view of the decoder, on a word of the table and on an illegal one. -/
theorem test_decodeTableWord :
    decodeTableWord 32 0x00001C10 = some (.setscale 28) ∧ decodeTableWord 32 0x000000E8 = none := by decide

/-- The assembler line of a command (30_encoding.md R78). -/
theorem test_line : (Instr.roundRfloor 2).line = "ROUND.RFLOOR #2" ∧ Instr.add.line = "ADD" := by decide

/-! ### Each command: one step from reset with the command placed

The expected words are those of the tables of 95_test_vectors.md named at each test. -/

/-- 95_test_vectors.md L2.1, 2^96 at scale 1. -/
theorem test_add_reduces_to_scale_0 :
    outcome (placed (pack false 1 Config.maxMant) (pack false 1 1) 0x00000001) =
      some (ofWords 0x00000000 0x9999999A 0x99999999 0x19999999, 0x00000002) := by decide +kernel
/-- 95_test_vectors.md L2.1, an odd MAX rounds up. -/
theorem test_add_overflow_on_a_tie :
    outcome (placed (pack false 0 Config.maxMant) (pack false 1 5) 0x00000001) =
      some (0, 0x00000016) := by decide +kernel
/-- 95_test_vectors.md L2.2, the sign of A. -/
theorem test_sub_negative_zero :
    outcome (placed (pack true 0 1) (pack true 0 1) 0x00000002) =
      some (ofWords 0x80000000 0x00000000 0x00000000 0x00000000, 0x00000002) := by decide +kernel
/-- 95_test_vectors.md L2.2, the zero short-cut. -/
theorem test_sub_zero_minus_value :
    outcome (placed (pack false 0 0) (pack false 2 250) 0x00000002) =
      some (ofWords 0x80020000 0x000000FA 0x00000000 0x00000000, 0x00000002) := by decide +kernel
/-- 95_test_vectors.md L2.3, MUL_TIE. -/
theorem test_mul_tie_away :
    outcome (placed (pack false 28 1) (pack false 1 5) 0x00000003) =
      some (ofWords 0x001C0000 0x00000001 0x00000000 0x00000000, 0x00000002) := by decide +kernel
/-- 95_test_vectors.md L2.3. -/
theorem test_mul_reduces_one_digit :
    outcome (placed (pack false 0 Config.maxMant) (pack false 1 10) 0x00000003) =
      some (ofWords 0x00000000 0xFFFFFFFF 0xFFFFFFFF 0xFFFFFFFF, 0x00000002) := by decide +kernel
/-- 95_test_vectors.md L2.4, scale 25. -/
theorem test_div_largest_scale :
    outcome (placed (pack false 0 10000) (pack false 0 3) 0x00000004) =
      some (ofWords 0x00190000 0x35555555 0xCF2607EE 0x6BB4AFE4, 0x00000002) := by decide +kernel
/-- 95_test_vectors.md L2.4. -/
theorem test_div_strips :
    outcome (placed (pack false 0 1) (pack false 0 4) 0x00000004) =
      some (ofWords 0x00020000 0x00000019 0x00000000 0x00000000, 0x00000002) := by decide +kernel
/-- 95_test_vectors.md L2.5, the 192-bit datapath. -/
theorem test_rem_wide :
    outcome (placed (pack false 0 Config.maxMant) (pack false 28 3) 0x00000005) =
      some (ofWords 0x00000000 0x00000000 0x00000000 0x00000000, 0x00000002) := by decide +kernel
/-- 95_test_vectors.md L2.5. -/
theorem test_rem_sign_of_a :
    outcome (placed (pack true 0 7) (pack false 0 2) 0x00000005) =
      some (ofWords 0x80000000 0x00000001 0x00000000 0x00000000, 0x00000002) := by decide +kernel
/-- 95_test_vectors.md L2.6. -/
theorem test_cmp_signed_zeros :
    outcome (placed (pack false 0 0) (pack true 3 0) 0x00000006) =
      some (0, 0x00000202) := by decide +kernel
/-- 95_test_vectors.md L2.6. -/
theorem test_cmp_two_negatives :
    outcome (placed (pack true 0 1) (pack true 1 15) 0x00000006) =
      some (0, 0x00000302) := by decide +kernel
/-- 95_test_vectors.md L2.7, RESCALE #40. -/
theorem test_rescale_capped :
    outcome (placed (pack false 1 15) (pack false 0 0) 0x00002807) =
      some (ofWords 0x001C0000 0x98000000 0x5D378391 0x3077B58D, 0x00000002) := by decide +kernel
/-- 95_test_vectors.md L2.7, RESCALE #1. -/
theorem test_rescale_tie_away :
    outcome (placed (pack true 2 125) (pack false 0 0) 0x00000107) =
      some (ofWords 0x80010000 0x0000000D 0x00000000 0x00000000, 0x00000002) := by decide +kernel
/-- 95_test_vectors.md L2.8, ROUND.RNE #2. -/
theorem test_round_rne_keeps_scale :
    outcome (placed (pack false 3 9999) (pack false 0 0) 0x00000208) =
      some (ofWords 0x00020000 0x000003E8 0x00000000 0x00000000, 0x00000002) := by decide +kernel
/-- 95_test_vectors.md L2.8. -/
theorem test_round_rne_tie_even :
    outcome (placed (pack false 1 25) (pack false 0 0) 0x00000008) =
      some (ofWords 0x00000000 0x00000002 0x00000000 0x00000000, 0x00000002) := by decide +kernel
/-- 95_test_vectors.md L2.8. -/
theorem test_round_rhaz_tie :
    outcome (placed (pack true 1 25) (pack false 0 0) 0x00000028) =
      some (ofWords 0x80000000 0x00000003 0x00000000 0x00000000, 0x00000002) := by decide +kernel
/-- 95_test_vectors.md L2.8. -/
theorem test_round_rhtz_tie :
    outcome (placed (pack true 1 25) (pack false 0 0) 0x00000048) =
      some (ofWords 0x80000000 0x00000002 0x00000000 0x00000000, 0x00000002) := by decide +kernel
/-- 95_test_vectors.md L2.8. -/
theorem test_round_rhtz_above_tie :
    outcome (placed (pack false 2 251) (pack false 0 0) 0x00000048) =
      some (ofWords 0x00000000 0x00000003 0x00000000 0x00000000, 0x00000002) := by decide +kernel
/-- 95_test_vectors.md L2.8. -/
theorem test_round_rtz :
    outcome (placed (pack false 28 Config.maxMant) (pack false 0 0) 0x00000068) =
      some (ofWords 0x00000000 0x00000007 0x00000000 0x00000000, 0x00000002) := by decide +kernel
/-- 95_test_vectors.md L2.8. -/
theorem test_round_raz :
    outcome (placed (pack true 1 25) (pack false 0 0) 0x00000088) =
      some (ofWords 0x80000000 0x00000003 0x00000000 0x00000000, 0x00000002) := by decide +kernel
/-- 95_test_vectors.md L2.8, ROUND.RFLOOR #2. -/
theorem test_round_rfloor :
    outcome (placed (pack true 3 4) (pack false 0 0) 0x000002A8) =
      some (ofWords 0x80020000 0x00000001 0x00000000 0x00000000, 0x00000002) := by decide +kernel
/-- 95_test_vectors.md L2.8. -/
theorem test_round_rceil :
    outcome (placed (pack true 2 251) (pack false 0 0) 0x000000C8) =
      some (ofWords 0x80000000 0x00000002 0x00000000 0x00000000, 0x00000002) := by decide +kernel
/-- 95_test_vectors.md L2.9. -/
theorem test_norm_strips :
    outcome (placed (pack true 4 123400) (pack false 0 0) 0x00000009) =
      some (ofWords 0x80020000 0x000004D2 0x00000000 0x00000000, 0x00000002) := by decide +kernel
/-- 95_test_vectors.md L2.9. -/
theorem test_norm_canonical_zero :
    outcome (placed (pack true 3 0) (pack false 0 0) 0x00000009) =
      some (ofWords 0x00000000 0x00000000 0x00000000 0x00000000, 0x00000002) := by decide +kernel
/-- 95_test_vectors.md L2.10. -/
theorem test_trunc_keeps_sign :
    outcome (placed (pack true 1 5) (pack false 0 0) 0x0000000A) =
      some (ofWords 0x80000000 0x00000000 0x00000000 0x00000000, 0x00000002) := by decide +kernel
/-- 95_test_vectors.md L2.11. -/
theorem test_fract_full_precision :
    outcome (placed (pack false 28 Config.maxMant) (pack false 0 0) 0x0000000B) =
      some (ofWords 0x001C0000 0x8FFFFFFF 0x4CFCEF58 0x1DD15B6C, 0x00000002) := by decide +kernel
/-- 95_test_vectors.md L2.11. -/
theorem test_fract_negative_zero :
    outcome (placed (pack true 2 500) (pack false 0 0) 0x0000000B) =
      some (ofWords 0x80020000 0x00000000 0x00000000 0x00000000, 0x00000002) := by decide +kernel
/-- 95_test_vectors.md L2.12. -/
theorem test_floor_least_negative :
    outcome (placed (pack true 28 1) (pack false 0 0) 0x0000000C) =
      some (ofWords 0x80000000 0x00000001 0x00000000 0x00000000, 0x00000002) := by decide +kernel
/-- 95_test_vectors.md L2.13. -/
theorem test_ceil_negative_zero :
    outcome (placed (pack true 1 5) (pack false 0 0) 0x0000000D) =
      some (ofWords 0x80000000 0x00000000 0x00000000 0x00000000, 0x00000002) := by decide +kernel
/-- 95_test_vectors.md L2.13. -/
theorem test_ceil_full_precision :
    outcome (placed (pack false 28 Config.maxMant) (pack false 0 0) 0x0000000D) =
      some (ofWords 0x00000000 0x00000008 0x00000000 0x00000000, 0x00000002) := by decide +kernel
/-- 95_test_vectors.md L2.14. -/
theorem test_neg_zero :
    outcome (placed (pack false 0 0) (pack false 0 0) 0x0000000E) =
      some (ofWords 0x80000000 0x00000000 0x00000000 0x00000000, 0x00000002) := by decide +kernel
/-- 95_test_vectors.md L2.15. -/
theorem test_abs_keeps_scale :
    outcome (placed (pack true 2 250) (pack false 0 0) 0x0000000F) =
      some (ofWords 0x00020000 0x000000FA 0x00000000 0x00000000, 0x00000002) := by decide +kernel
/-- 95_test_vectors.md L2.16, SETSCALE #28. -/
theorem test_setscale_28 :
    outcome (placed (pack false 0 1) (pack false 0 0) 0x00001C10) =
      some (ofWords 0x001C0000 0x00000001 0x00000000 0x00000000, 0x00000002) := by decide +kernel
/-- 95_test_vectors.md L2.16, SETSCALE #29. -/
theorem test_setscale_29 :
    outcome (placed (pack false 0 1) (pack false 0 0) 0x00001D10) =
      some (0, 0x00000066) := by decide +kernel

/-- 95_test_vectors.md L2.17: `R` is 5.15 and `A` is 2.01. -/
theorem test_movra :
    ∃ t, step ((hosted (pack false 2 201) one (ofWords 0x00020000 0x00000203 0 0) []).withFetchWord 32 0x11) = .next t ∧
      t.a = ofWords 0x00020000 0x00000203 0 0 ∧ t.r = t.a ∧ t.b = one ∧ t.status.word = 0x00000002 :=
  ⟨_, rfl, by decide, by decide, by decide, by decide⟩

/-- 95_test_vectors.md L2.17: `R` is 5.15 and `B` is 1. -/
theorem test_movrb :
    ∃ t, step ((hosted (pack false 2 201) one (ofWords 0x00020000 0x00000203 0 0) []).withFetchWord 32 0x12) = .next t ∧
      t.b = ofWords 0x00020000 0x00000203 0 0 ∧ t.r = t.b ∧ t.a = pack false 2 201 ∧
      t.status.word = 0x00000002 :=
  ⟨_, rfl, by decide, by decide, by decide, by decide⟩

/-- 95_test_vectors.md L2.17: MOVRA over an invalid `A`. -/
theorem test_movra_validates_nothing : outcome (placed scale29 scale29 0x11) = some (0, 0x00000002) := by
  decide +kernel

/-- 95_test_vectors.md L2.18, the order of the errors. -/
theorem test_error_priority :
    outcome (placed scale29 one 0x00000013) = some (0, 0x00000056) ∧
    outcome (placed scale29 0 0x00000004) = some (0, 0x00000036) ∧
    outcome (placed one (ofWords 0x01000000 1 0 0) 0x00000004) = some (0, 0x00000046) ∧
    outcome (placed one 0 0x00000004) = some (0, 0x00000026) ∧
    outcome (placed scale29 one 0x00001D10) = some (0, 0x00000036) := by decide +kernel

/-- 95_test_vectors.md L2.18, the three reserved-bit and scale checks of one operand. -/
theorem test_invalid_operand :
    outcome (placed (ofWords 0x01000000 1 0 0) one 0x00000001) = some (0, 0x00000036) ∧
    outcome (placed (ofWords 0x00000001 1 0 0) one 0x00000001) = some (0, 0x00000036) ∧
    outcome (placed one scale29 0x0000000E) = some (ofWords 0x80000000 1 0 0, 0x00000002) := by decide +kernel

/-- The shifter's constants are the powers of ten 0 to 28 (41_limb_units.md R129). -/
theorem test_tenPowers :
    tenPowers.map (fun p => p.k) = List.range 29 ∧ ∀ p ∈ tenPowers, limbsValue p.limbs = 10 ^ p.k := by
  decide +kernel

/-- A host write is in the window at the next read (20_memory.md R55, R56). -/
theorem test_host_write :
    ∃ t, step (hosted one 0 0 [opWr .aHi 7]) = .next t ∧ readRow t .aHi = 7 ∧ readRow t .aLo = 1 :=
  ⟨_, step_hosted_write .., by decide, by decide⟩

/-- 95_test_vectors.md T2, T3: writes of `STATUS` and `R` are ignored. -/
theorem test_ignored_writes :
    step (hosted one 0 0 [opWr .status 0xFFFFFFFF]) = .next (hosted one 0 0 []) ∧
    step (hosted one 0 0 [opWr .rLo 5]) = .next (hosted one 0 0 []) :=
  ⟨step_hosted_write .., step_hosted_write ..⟩

/-- 95_test_vectors.md T5, T7: the dropped write, as `STATUS` would read it while busy and after completion, and the
model's fault. -/
theorem test_protocol_violation :
    (writeRow .aLo 7 (busy 1 [])).status.word = 0x00000009 ∧ (writeRow .aLo 7 (busy 1 [])).a = one ∧
    ((writeRow .aLo 7 (busy 1 [])).succeed one).status.word = 0x0000000A ∧
    step (busy 1 [opWr .aLo 7]) = .fault .protocolViolation := by
  refine ⟨by decide, by decide, by decide, ?_⟩
  rw [step_of_waiting rfl rfl]
  show busWrite (rowAddress .aLo) 4 7 _ = _
  rw [busWrite, locate_rowAddress]
  rfl

/-- A misaligned access, a byte access, and one past the window (20_memory.md R54). -/
theorem test_bus_error (s : State) :
    busRead (Config.base + 2) 4 s = .fault .busError ∧ busRead Config.base 1 s = .fault .busError ∧
    busWrite (Config.base + 0x40) 4 7 s = .fault .busError := by
  simp [busRead, busWrite, locate, rowAt]

/-- 95_test_vectors.md T8, T9: issue clears the report of the last command. -/
theorem test_issue_clears :
    (((pair one one).setCmp .equal).succeedNoR.issueAfter 0x1 0).status.word = 0x00000001 ∧
    (((pair one one).raise .overflow).issueAfter 0x1 0).status.word = 0x00000001 := by decide

/-! ### Witnesses: states and operands that meet the hypotheses of each statement

Each name is `witness_` and the statement's. Statements without hypotheses have none. -/

/-- `MAX` at scale 1, the largest one-digit fraction. -/
def maxAt1 : PackedBits := pack false 1 Config.maxMant

/-- `10^-28`. -/
def least : PackedBits := pack false 28 1

theorem witness_DecodeOfEncodeIsIdentity : (Instr.roundRceil 255).WellFormed := by decide

theorem witness_EncodeOfDecodeIsIdentity : decodeWord 0x0000FF07 = .legal (.rescale 255) := by decide

theorem witness_IllegalWordsAreExactlyTheListedOnes :
    decodeWord 0x000000E8 = .illegal .roundingModeReserved ∧ decodeWord 0x00000012 = .legal .movrb := by decide

theorem witness_LegalWordsMatchExactlyOneTableRow :
    decodeWord 0x0000FFC8 = .legal (.roundRceil 255) ∧ decodeWord 0x00000013 = .illegal .opcode := by decide

theorem witness_StepRunsTheDecodedCommand :
    (∃ f, (placed one negTie 0x00000006).inFlight = some f ∧ f.wait = 0 ∧ decodeWord f.cmd = .legal .cmp) ∧
    (∃ f why, (placed one negTie 0x00000013).inFlight = some f ∧ f.wait = 0 ∧ decodeWord f.cmd = .illegal why) ∧
    (Instr.setscale 255).WellFormed :=
  ⟨⟨_, rfl, rfl, by decide⟩, ⟨_, _, rfl, rfl, rfl⟩, by decide⟩

theorem witness_WriteOfCmdIssuesTheCommand :
    let s := hosted one negTie 0 [opWr .cmd 0x00000013, .waitDone]
    s.program = opWr .cmd 0x00000013 :: [.waitDone] ∧ s.inFlight = none ∧ s.status.busy = false := ⟨rfl, rfl, rfl⟩

theorem witness_RowWritesFollowTheMap :
    ((busy 1 []).status.busy = true ∧
      WindowRow.aFlags ∈ [.aFlags, .aLo, .aMid, .aHi, .bFlags, .bLo, .bMid, .bHi, .cmd]) ∧
    ((pair one one).succeedNoR.status.busy = false ∧
      WindowRow.bHi ∈ [.aFlags, .aLo, .aMid, .aHi, .bFlags, .bLo, .bMid, .bHi]) ∧
    WindowRow.rHi ∈ [.status, .reserved28, .reserved2C, .rFlags, .rLo, .rMid, .rHi] := by decide

/-- The step clause: an idle core and a host about to write the first word of `A`, or `CMD`. -/
theorem witness_RowWritesFollowTheMap_step :
    (hosted one one 0 [opWr .aFlags 7]).HostMoves ∧ (hosted one one 0 [opWr .aFlags 7]).status.busy = false ∧
    (hosted one one 0 [opWr .aFlags 7]).program = opWr .aFlags 7 :: [] ∧
    (hosted one one 0 [opWr .cmd 1]).HostMoves ∧ (hosted one one 0 [opWr .cmd 1]).status.busy = false ∧
    (hosted one one 0 [opWr .cmd 1]).program = opWr .cmd 1 :: [] :=
  ⟨fun f h => (nomatch (h : none = some f)), rfl, rfl, fun f h => (nomatch (h : none = some f)), rfl, rfl⟩

theorem witness_WritesWhileBusyAreDroppedAndFault :
    (busy 1 [opWr .cmd 0x2]).HostMoves ∧ (busy 1 [opWr .cmd 0x2]).program = opWr .cmd 0x2 :: [] ∧
    (busy 1 [opWr .cmd 0x2]).status.busy = true ∧
    WindowRow.cmd ∈ [.aFlags, .aLo, .aMid, .aHi, .bFlags, .bLo, .bMid, .bHi, .cmd] ∧
    (busy 1 [opWr .status 0x2]).program = opWr .status 0x2 :: [] ∧
    WindowRow.status ∈ [.status, .reserved28, .reserved2C, .rFlags, .rLo, .rMid, .rHi] :=
  ⟨fun f h => by cases h; decide, rfl, rfl, by decide, rfl, by decide⟩

theorem witness_ReadsReturnTheRowAndChangeNothing :
    (busy 1 [opRd .rHi]).HostMoves ∧ (busy 1 [opRd .rHi]).program = opRd .rHi :: [] ∧
    (hosted one one 0 [opRd .aLo]).HostMoves ∧ (hosted one one 0 [opRd .aLo]).program = opRd .aLo :: [] :=
  ⟨fun f h => by cases h; decide, rfl, fun f h => (nomatch (h : none = some f)), rfl⟩

/-- The clauses at the ends of the ranges: the last byte of a word and of a register. -/
theorem witness_WindowBytesAreLittleEndian :
    windowByte (hosted 0 0 (ofWords 0 0 0 0x80000000) []) (rowOffset .rHi + 3) = some 0x80 ∧ (3 : Nat) < 4 ∧
    (15 : Nat) < 16 := by decide

theorem witness_ResetInputRestoresTheResetState :
    (busy 1 [.reset, .waitDone]).HostMoves ∧ (busy 1 [.reset, .waitDone]).program = .reset :: [.waitDone] :=
  ⟨fun f h => by cases h; decide, rfl⟩

theorem witness_CommandCompletesWhenItsSlotsHavePassed :
    (∃ f, (busy 0 []).inFlight = some f ∧ f.wait = 0) ∧ (∃ f, (busy 5 []).inFlight = some f ∧ f.wait = 5) ∧
    (busy 0 []).program = [] ∧ (busy 5 []).program = [] :=
  ⟨⟨_, rfl, rfl⟩, ⟨_, rfl, rfl⟩, rfl, rfl⟩

theorem witness_ExecThenWaitGivesTheCommandsResult :
    (Instr.roundRne 255).WellFormed ∧
    (hosted one negTie 0 (opsExec (.roundRne 255) ++ opsGetr)).program = opsExec (.roundRne 255) ++ opsGetr ∧
    (hosted one negTie 0 (opsExec (.roundRne 255) ++ opsGetr)).inFlight = none ∧
    (hosted one negTie 0 (opsExec (.roundRne 255) ++ opsGetr)).status.busy = false :=
  ⟨by decide, rfl, rfl, rfl⟩

theorem witness_ResultChangesOnlyAtCompletion :
    (∃ t, step (pair one negTie) = .next t ∧ t.r ≠ (pair one negTie).r) ∧
    (∃ t, step (hosted 0 0 one [.reset]) = .next t ∧ t.r ≠ (hosted 0 0 one [.reset]).r) :=
  ⟨⟨_, rfl, by decide⟩, ⟨_, rfl, by decide⟩⟩

/-- The moves, host writes and a reset. -/
theorem witness_OperandsChangeOnlyByHostWritesAndMoves :
    (∃ t, step ((hosted 0 0 one []).withFetchWord 32 0x11) = .next t ∧ t.a ≠ 0) ∧
    (∃ t, step ((hosted 0 0 one []).withFetchWord 32 0x12) = .next t ∧ t.b ≠ 0) ∧
    (∃ t, step (hosted one one 0 [opWr .aLo 7]) = .next t ∧ t.a ≠ one) ∧
    (∃ t, step (hosted one one 0 [opWr .bHi 7]) = .next t ∧ t.b ≠ one) ∧
    (∃ t, step (hosted one one 0 [.reset]) = .next t ∧ t.a ≠ one ∧ t.b ≠ one) :=
  ⟨⟨_, rfl, by decide⟩, ⟨_, rfl, by decide⟩, ⟨_, step_hosted_write .., by decide⟩,
    ⟨_, step_hosted_write .., by decide⟩, ⟨_, rfl, by decide, by decide⟩⟩

theorem witness_CmdIsTheHostsAndViolationIsSticky :
    (∃ t, step (hosted one one 0 [opWr .cmd 7]) = .next t ∧ t.cmd ≠ 0) ∧
    (∃ t, step { busy 1 [.reset] with cmd := 0x00000006 } = .next t ∧ t.cmd ≠ 0x00000006) ∧
    (∃ t, step (busy 0 []).dropWrite = .next t ∧ (busy 0 []).dropWrite.status.pv = true ∧ t.status.pv = true) :=
  ⟨⟨_, step_hosted_write .., by decide⟩, ⟨_, rfl, by decide⟩, ⟨_, rfl, rfl, rfl⟩⟩

/-- The invariant holds of a busy state and of an idle one, and both step. -/
theorem witness_EveryStepKeepsTheInvariant :
    ((busy 0 []).Inv ∧ ∃ t, step (busy 0 []) = .next t) ∧
    ((hosted one negTie one [.idle]).Inv ∧ ∃ t, step (hosted one negTie one [.idle]) = .next t) := by
  refine ⟨⟨⟨rfl, fun f h => by cases h; decide, by decide, by decide, by decide, by decide, by decide⟩, _, rfl⟩,
    ⟨⟨rfl, fun f h => (nomatch (h : none = some f)), by decide, by decide, by decide, by decide, by decide⟩, _, rfl⟩⟩

/-- Two states that agree on the sample and differ in CMD, the time waited and the host. -/
theorem witness_EffectDependsOnlyOnTheSample :
    let s := busy 0 []
    let s' := { busy 7 [.idle] with cmd := 0x00000012, scratch := 3 }
    s ≠ s' ∧ s.opA = s'.opA ∧ s.opB = s'.opB ∧ s.r = s'.r ∧ s.a = s'.a ∧ s.b = s'.b ∧ s.status = s'.status ∧
      (∃ t, exec .add s = .next t) ∧ ∃ t, exec .add s' = .next t :=
  ⟨by decide, rfl, rfl, rfl, rfl, rfl, rfl, ⟨_, rfl⟩, ⟨_, rfl⟩⟩

theorem witness_OneOperandCommandsIgnoreB :
    let s := placed negTie one 0x0000000E
    let s' := placed negTie scale29 0x0000000E
    Instr.neg.readsA = true ∧ Instr.neg.readsB = false ∧ s.opA = s'.opA ∧ s.opB ≠ s'.opB ∧ s.r = s'.r ∧
      s.status = s'.status ∧ (∃ t, exec .neg s = .next t) ∧ ∃ t, exec .neg s' = .next t :=
  ⟨rfl, rfl, rfl, by decide, rfl, rfl, ⟨_, rfl⟩, ⟨_, rfl⟩⟩

theorem witness_ErrorsFollowThePriority :
    decodeWord 0x00000000 = .illegal .opcode ∧
    (Instr.setscale 29).readsA = true ∧ isValid (placed scale29 0 0x00001D10).opA = false ∧
    Instr.div.readsB = true ∧ isValid (pair one scale29).opA = true ∧ isValid (pair one scale29).opB = false ∧
    (pair one 0).ValidAB ∧ mantOf (pair one 0).opB = 0 ∧
    isValid (placed one scale29 0x00001D10).opA = true ∧ (28 : Nat) < 29 ∧
    (∃ t, exec .add (pair maxValue one) = .next t ∧ t.status.ecode = .overflow) := by
  refine ⟨by decide, rfl, by decide, rfl, by decide, by decide, by decide, by decide, by decide, by decide, _, rfl, ?_⟩
  decide +kernel

theorem witness_ErrorsArePrecise :
    ∃ t, exec .rem (pair one 0) = .next t ∧ t.status.err = true := ⟨_, rfl, by decide⟩

/-- Each code is reported somewhere. -/
theorem witness_ErrorCodesBelongToTheirCommands :
    (∃ t, exec .mul (pair maxValue maxValue) = .next t ∧ t.status.ecode = .overflow) ∧
    (∃ t, exec .div (pair 0 0) = .next t ∧ t.status.ecode = .divByZero) ∧
    (∃ t, exec .cmp (pair scale29 one) = .next t ∧ t.status.ecode = .invalidA) ∧
    (∃ t, exec .cmp (pair one scale29) = .next t ∧ t.status.ecode = .invalidB) ∧
    (∃ t, exec (.setscale 29) (pair one one) = .next t ∧ t.status.ecode = .scaleOutOfRange) := by
  refine ⟨⟨_, rfl, ?_⟩, ⟨_, rfl, ?_⟩, ⟨_, rfl, ?_⟩, ⟨_, rfl, ?_⟩, ⟨_, rfl, ?_⟩⟩ <;> decide +kernel

/-- A command that writes `R`, the two moves, and one that writes only `STATUS`. -/
theorem witness_CommandsChangeOnlyTheirDestination :
    (∃ t, exec .abs (pair negTie one) = .next t) ∧ (∃ t, exec .movra (pair negTie one) = .next t) ∧
    (∃ t, exec .movrb (pair negTie one) = .next t) ∧ (∃ t, exec .cmp (pair negTie one) = .next t) :=
  ⟨⟨_, rfl⟩, ⟨_, rfl⟩, ⟨_, rfl⟩, ⟨_, rfl⟩⟩

/-- A valid and an invalid `A` for the one-operand commands: NEG, ABS, NORM, TRUNC, FRACT, FLOOR, CEIL. -/
theorem witness_NegFlipsTheSign : isValid (pair negTie 0).opA = true ∧ isValid (pair scale29 0).opA = false := by
  decide
theorem witness_AbsClearsTheSign : isValid (pair minValue 0).opA = true ∧ isValid (pair scale29 0).opA = false := by
  decide
theorem witness_NormStripsTrailingZeros :
    isValid (pair (pack true 3 0) 0).opA = true ∧ mantOf (pair (pack true 3 0) 0).opA = 0 ∧
    isValid (pair (pack true 28 1000) 0).opA = true ∧ mantOf (pair (pack true 28 1000) 0).opA ≠ 0 := by decide
theorem witness_IntegerPartsOfTheValue :
    isValid (pair negTie 0).opA = true ∧ isValid (pair maxValue 0).opA = true ∧
    isValid (pair scale29 0).opA = false := by decide
theorem witness_FractIsTheRestOfTrunc :
    isValid (pair negTie 0).opA = true ∧ isValid (pair (pack true 2 0) 0).opA = true ∧
    isValid (pair scale29 0).opA = false := by decide

/-- Both sides of the bound 28, and the largest immediate. -/
theorem witness_SetscaleReplacesTheScale :
    isValid (pair negTie 0).opA = true ∧ (28 : Nat) ≤ 28 ∧ (28 : Nat) < 29 ∧ (255 : Nat) ≤ 255 := by decide

/-- Zero and nonzero operands, each on either side. -/
theorem witness_AddSubShortcutsAZero :
    ((pair 0 one).ValidAB ∧ mantOf (pair 0 one).opA = 0 ∧ mantOf (pair 0 one).opB ≠ 0) ∧
    ((pair 0 0).ValidAB ∧ mantOf (pair 0 0).opA = 0 ∧ mantOf (pair 0 0).opB = 0) ∧
    ((pair one 0).ValidAB ∧ mantOf (pair one 0).opA ≠ 0 ∧ mantOf (pair one 0).opB = 0) := by decide

/-- The overflow clause with `MAX + 1` (no `k` up to the scale 0 fits); the result clause at `k = 0` with a sum of zero
and at the last `k` with `MAX` at scale 1 and `0.1`, where `k = 0` does not fit (95_test_vectors.md L2.1). -/
theorem witness_AddSubRoundsTheExactSum :
    ((pair maxValue one).ValidAB ∧ mantOf (pair maxValue one).opA ≠ 0 ∧ mantOf (pair maxValue one).opB ≠ 0 ∧
      max (scaleOf maxValue) (scaleOf one) = 0 ∧ ¬ fits96 (rne (Config.maxMant + 1) (10 ^ 0))) ∧
    ((pair one one).ValidAB ∧ fits96 (rne ((1 : ℤ) + -1).natAbs (10 ^ 0))) ∧
    ((pair maxAt1 (pack false 1 1)).ValidAB ∧ mantOf maxAt1 ≠ 0 ∧ max (scaleOf maxAt1) 1 = 1 ∧
      ¬ fits96 (rne (Config.maxMant + 1) (10 ^ 0)) ∧ fits96 (rne (Config.maxMant + 1) (10 ^ 1))) := by
  decide +kernel

/-- `1 - 2.5` and `MAX - 0` are within the range. -/
theorem witness_AddSubIsExactWhenItFits :
    (pair one (pack false 1 25)).ValidAB ∧
    |valOf (pair one (pack false 1 25)).opA + (if true then -1 else 1) * valOf (pair one (pack false 1 25)).opB| *
      10 ^ max (scaleOf (pair one (pack false 1 25)).opA) (scaleOf (pair one (pack false 1 25)).opB)
        ≤ (Config.maxMant : ℚ) := by
  decide +kernel

/-- A zero product; `2^96` at scale 0, which overflows; `10^-28 * 0.5` at scale 29, where `k` starts at 1; and
`MAX * 1.0`, which fits at `k = 1` and not at `k = 0` (95_test_vectors.md L2.3). -/
theorem witness_MulRoundsTheExactProduct :
    ((pair 0 negTie).ValidAB ∧ mantOf (pair 0 negTie).opA * mantOf (pair 0 negTie).opB = 0) ∧
    ((pair (pack false 0 (2 ^ 95)) (pack false 0 2)).ValidAB ∧ 2 ^ 95 * 2 ≠ 0 ∧
      ¬ fits96 (rhaz (2 ^ 95 * 2) (10 ^ 0))) ∧
    ((pair least (pack false 1 5)).ValidAB ∧ (max 0 (((28 + 1 : Nat) : ℤ) - 28)).toNat = 1 ∧
      fits96 (rhaz (1 * 5) (10 ^ 1))) ∧
    ((pair maxValue (pack false 1 10)).ValidAB ∧ ¬ fits96 (rhaz (Config.maxMant * 10) (10 ^ 0)) ∧
      fits96 (rhaz (Config.maxMant * 10) (10 ^ 1))) := by
  decide +kernel

theorem witness_DivRemZeroOperands :
    ((pair 0 0).ValidAB ∧ mantOf (pair 0 0).opB = 0) ∧
    ((pair 0 one).ValidAB ∧ mantOf (pair 0 one).opB ≠ 0 ∧ mantOf (pair 0 one).opA = 0) := by decide

/-- `12.88 / 5.6` is exact at scale 1; `MAX / 0.1` is exact and does not fit (95_test_vectors.md L2.4). -/
theorem witness_DivGivesTheExactQuotient :
    ((pair (pack false 2 1288) (pack false 1 56)).ValidAB ∧ 1288 * 10 ^ 0 % 56 = 0 ∧ fits96 (1288 / 56)) ∧
    ((pair maxValue (pack false 1 1)).ValidAB ∧ Config.maxMant * 10 ^ (0 - ((0 : ℤ) - 1)).toNat % 1 = 0 ∧
      ¬ fits96 (Config.maxMant * 10 ^ (0 - ((0 : ℤ) - 1)).toNat / 1)) := by
  decide +kernel

/-- `1 / 3` fits at scale 28; `10000 / 3` fits at scale 25 and not above (95_test_vectors.md L2.4); `MAX / 0.11` fits
at no scale. -/
theorem witness_DivRoundsAndStripsTheInexactQuotient :
    ((pair one (pack false 0 3)).ValidAB ∧ 1 % 3 ≠ 0 ∧ fits96 (rne (1 * 10 ^ 28) 3)) ∧
    ((pair (pack false 0 10000) (pack false 0 3)).ValidAB ∧ 10000 % 3 ≠ 0 ∧ fits96 (rne (10000 * 10 ^ 25) 3) ∧
      ∀ u ∈ [26, 27, 28], ¬ fits96 (rne (10000 * 10 ^ u) 3)) ∧
    ((pair maxValue (pack false 2 11)).ValidAB ∧ Config.maxMant * 10 ^ 2 % 11 ≠ 0 ∧
      ∀ t ∈ List.range 29, ¬ fits96 (rne (Config.maxMant * 10 ^ (t + 2)) 11)) := by
  decide +kernel

theorem witness_RemIsTheRemainderOfA :
    ((pair negTie (pack false 28 3)).ValidAB ∧ mantOf (pair negTie (pack false 28 3)).opB ≠ 0 ∧
      mantOf (pair negTie (pack false 28 3)).opA ≠ 0) ∧
    ((pair 0 one).ValidAB ∧ mantOf (pair 0 one).opB ≠ 0) := by decide

theorem witness_CmpOrdersByValue :
    isValid (pair scale29 one).opA = false ∧
    (isValid (pair one scale29).opA = true ∧ isValid (pair one scale29).opB = false) ∧
    (pair negTie one).ValidAB := by decide

theorem witness_CmpSwapsItsAnswer :
    (pair negTie one).ValidAB ∧ (pair one negTie).opA = (pair negTie one).opB ∧
    (pair one negTie).opB = (pair negTie one).opA ∧ (∃ t, exec .cmp (pair negTie one) = .next t) ∧
    ∃ t, exec .cmp (pair one negTie) = .next t :=
  ⟨by decide, rfl, rfl, ⟨_, rfl⟩, ⟨_, rfl⟩⟩

/-- The scale equal to the target, a zero, one digit down, one digit up, and the cap at 28 with immediates 28, 29 and
255. -/
theorem witness_RescaleMovesTheScale :
    isValid (pair scale29 0).opA = false ∧ isValid (pair negTie 0).opA = true ∧
    scaleOf (pair negTie 0).opA = min 1 28 ∧
    (isValid (pair (pack true 3 0) 0).opA = true ∧ scaleOf (pair (pack true 3 0) 0).opA ≠ min 29 28 ∧
      mantOf (pair (pack true 3 0) 0).opA = 0) ∧
    (min 0 28 < scaleOf (pair negTie 0).opA ∧ mantOf (pair negTie 0).opA ≠ 0) ∧
    (scaleOf (pair negTie 0).opA < min 2 28 ∧ scaleOf (pair negTie 0).opA < min 255 28) ∧
    scaleOf (pair least 0).opA = min 28 28 ∧ scaleOf (pair least 0).opA = min 255 28 := by decide

/-- `-2.5` to scale 28 and back, and `MAX`, which no digit fits, to scale 5 and back. -/
theorem witness_RescaleUpAndBackIsIdentity :
    (∃ t t', isValid (pair negTie 0).opA = true ∧ exec (.rescale 28) (pair negTie 0) = .next t ∧
      scaleOf (pair negTie 0).opA ≤ scaleOf t.r ∧ (pair t.r 0).opA = t.r ∧
      exec (.rescale (scaleOf (pair negTie 0).opA)) (pair t.r 0) = .next t') ∧
    (∃ t t', isValid (pair maxValue 0).opA = true ∧ exec (.rescale 5) (pair maxValue 0) = .next t ∧
      scaleOf (pair maxValue 0).opA ≤ scaleOf t.r ∧ (pair t.r 0).opA = t.r ∧
      exec (.rescale (scaleOf (pair maxValue 0).opA)) (pair t.r 0) = .next t') := by
  refine ⟨⟨_, _, by decide, rfl, ?_, rfl, rfl⟩, ⟨_, _, by decide, rfl, ?_, rfl, rfl⟩⟩ <;> decide +kernel

theorem witness_RoundInventsNoDigits :
    isValid (pair least 0).opA = true ∧ scaleOf (pair least 0).opA ≤ 28 ∧ (28 : Nat) ≤ 255 ∧
    isValid (pair scale29 0).opA = false := by decide

/-- A tie, one place less than the scale; all 28 digits dropped. -/
theorem witness_NearestModesRoundToNearest :
    (isValid (pair negTie 0).opA = true ∧ 0 < scaleOf (pair negTie 0).opA ∧
      2 * |(2 : ℤ) * 10 ^ (scaleOf (pair negTie 0).opA - 0) - mantOf (pair negTie 0).opA| =
        10 ^ (scaleOf (pair negTie 0).opA - 0)) ∧
    (isValid (pair least 0).opA = true ∧ 0 < scaleOf (pair least 0).opA ∧ 27 < scaleOf (pair least 0).opA) := by
  decide +kernel

theorem witness_DirectedModesRoundTheirWay :
    (isValid (pair negTie 0).opA = true ∧ 0 < scaleOf (pair negTie 0).opA) ∧
    (isValid (pair least 0).opA = true ∧ 0 < scaleOf (pair least 0).opA ∧ 27 < scaleOf (pair least 0).opA) := by
  decide

theorem witness_AdderAddsWithCarry :
    ([0xFFFFFFFF] : Limbs).length ≤ ([0xFFFFFFFF, 0xFFFFFFFF] : Limbs).length ∧
    2 ^ (32 * 2) ≤ limbsValue [0xFFFFFFFF, 0xFFFFFFFF] + limbsValue [0xFFFFFFFF] := by decide

theorem witness_SubtractorSubtractsWithBorrow :
    ([1] : Limbs).length ≤ ([0, 0] : Limbs).length ∧ limbsValue [0, 0] < limbsValue [1] := by decide

theorem witness_MultipliersAreExact :
    ([0xFFFFFFFF, 0xFFFFFFFF, 0xFFFFFFFF] : Limbs).length = 3 ∧ ([2, 0, 0] : Limbs).length = 3 := by decide

/-- Zero and nonzero divisors, the largest 32-bit one and the next. -/
theorem witness_DividersAreExact :
    (0xFFFFFFFF : Word) ≠ 0 ∧ ([0, 1, 0] : Limbs).length ≤ 3 ∧ limbsValue [0, 0, 0] = 0 ∧
    limbsValue [0xFFFFFFFF, 0, 0] ≠ 0 ∧ limbsValue [0, 1, 0] ≠ 0 := by decide

theorem witness_ComparatorOrdersByValue : 3 ≤ ([0, 0, 0] : Limbs).length := by decide

theorem witness_ShiftersScaleByPowersOfTen : ([1, 2, 3, 4, 5, 6] : Limbs).length ≤ 6 := by decide

theorem witness_WideDatapathComputesTheSum : scaleOf least ≤ 28 ∧ scaleOf maxValue ≤ 28 := by decide

end Sys2Proof.Tests
end

section
/-!
PROOFS. How a command ends and what its effect depends on (O23, O25).
-/
namespace Sys2Proof.Machine

/-! ### A command is one ending computed from its sampled operands -/

/-- The operand form of a command: one operand, two operands, or a register move (40_value_ops.md R100, R105, R106). -/
inductive ExecForm (i : Instr) : Prop where
  | oneOperand (op : PackedBits → Ending) (hA : i.readsA = true) (hB : i.readsB = false)
      (h : ∀ s, exec i s = withA op s)
  | twoOperands (op : PackedBits → PackedBits → Ending) (hA : i.readsA = true) (hB : i.readsB = true)
      (h : ∀ s, exec i s = withAB op s)
  | movesToA (hi : i = .movra)
  | movesToB (hi : i = .movrb)

theorem exec_form (i : Instr) : ExecForm i := by
  cases i with
  | add => exact .twoOperands _ rfl rfl exec_add
  | sub => exact .twoOperands _ rfl rfl exec_sub
  | mul => exact .twoOperands _ rfl rfl exec_mul
  | div => exact .twoOperands _ rfl rfl exec_div
  | rem => exact .twoOperands _ rfl rfl exec_rem
  | cmp => exact .twoOperands _ rfl rfl exec_cmp
  | rescale n => exact .oneOperand _ rfl rfl (exec_rescale n)
  | roundRne n => exact .oneOperand _ rfl rfl (exec_roundRne n)
  | roundRhaz n => exact .oneOperand _ rfl rfl (exec_roundRhaz n)
  | roundRhtz n => exact .oneOperand _ rfl rfl (exec_roundRhtz n)
  | roundRtz n => exact .oneOperand _ rfl rfl (exec_roundRtz n)
  | roundRaz n => exact .oneOperand _ rfl rfl (exec_roundRaz n)
  | roundRfloor n => exact .oneOperand _ rfl rfl (exec_roundRfloor n)
  | roundRceil n => exact .oneOperand _ rfl rfl (exec_roundRceil n)
  | norm => exact .oneOperand _ rfl rfl exec_norm
  | trunc => exact .oneOperand _ rfl rfl exec_trunc
  | fract => exact .oneOperand _ rfl rfl exec_fract
  | floor => exact .oneOperand _ rfl rfl exec_floor
  | ceil => exact .oneOperand _ rfl rfl exec_ceil
  | neg => exact .oneOperand _ rfl rfl exec_neg
  | abs => exact .oneOperand _ rfl rfl exec_abs
  | setscale n => exact .oneOperand _ rfl rfl (exec_setscale n)
  | movra => exact .movesToA rfl
  | movrb => exact .movesToB rfl

theorem withA_eq_finish (op : PackedBits → Ending) (s : State) :
    withA op s = s.finish (if isValid s.opA then op s.opA else .raise .invalidA) := by
  unfold withA; split <;> rfl

theorem withAB_eq_finish (op : PackedBits → PackedBits → Ending) (s : State) :
    withAB op s = s.finish (if isValid s.opA then
      if isValid s.opB then op s.opA s.opB else .raise .invalidB else .raise .invalidA) := by
  unfold withAB; split
  · split <;> rfl
  · rfl

/-! ### States that agree on the registers -/

/-- Two states agree on `A`, `B`, `R` and `STATUS`, the registers a command can write (10_state.md R27 to R31). -/
structure RegistersAgree (s s' : State) : Prop where
  regA : s.a = s'.a
  regB : s.b = s'.b
  result : s.r = s'.r
  report : s.status = s'.status

theorem RegistersAgree.succeedNoR {s s' : State} (h : RegistersAgree s s') :
    RegistersAgree s.succeedNoR s'.succeedNoR :=
  ⟨h.regA, h.regB, h.result, congrArg Status.atSuccess h.report⟩

theorem RegistersAgree.setA {s s' : State} (h : RegistersAgree s s') (v : PackedBits) :
    RegistersAgree (s.setA v) (s'.setA v) := ⟨rfl, h.regB, h.result, h.report⟩

theorem RegistersAgree.setB {s s' : State} (h : RegistersAgree s s') (v : PackedBits) :
    RegistersAgree (s.setB v) (s'.setB v) := ⟨h.regA, rfl, h.result, h.report⟩

theorem RegistersAgree.setR {s s' : State} (h : RegistersAgree s s') (v : PackedBits) :
    RegistersAgree (s.setR v) (s'.setR v) := ⟨h.regA, h.regB, rfl, h.report⟩

theorem RegistersAgree.setCmp {s s' : State} (h : RegistersAgree s s') (c : CmpResult) :
    RegistersAgree (s.setCmp c) (s'.setCmp c) :=
  ⟨h.regA, h.regB, h.result, congrArg (Status.setCmp c) h.report⟩

theorem RegistersAgree.raise {s s' : State} (h : RegistersAgree s s') (e : ErrorCode) :
    RegistersAgree (s.raise e) (s'.raise e) :=
  ⟨h.regA, h.regB, h.result, congrArg (Status.atError e) h.report⟩

/-- One ending leaves agreeing states in agreeing states (40_value_ops.md R101, 60_exceptions.md R222). -/
theorem RegistersAgree.finish {s s' t t' : State} {e : Ending} (h : RegistersAgree s s')
    (ht : s.finish e = .next t) (ht' : s'.finish e = .next t') : RegistersAgree t t' := by
  cases e with
  | succeed v => cases ht; cases ht'; exact (h.setR v).succeedNoR
  | compared c => cases ht; cases ht'; exact (h.setCmp c).succeedNoR
  | raise c => cases ht; cases ht'; exact h.raise c
  | internalDivZero => cases ht

theorem RegistersAgree.exec {i : Instr} {s s' t t' : State} (h : RegistersAgree s s') (hA : s.opA = s'.opA)
    (hB : s.opB = s'.opB) (ht : Machine.exec i s = .next t) (ht' : Machine.exec i s' = .next t') :
    RegistersAgree t t' := by
  cases exec_form i with
  | oneOperand op _ _ hx =>
    rw [hx, withA_eq_finish] at ht ht'
    rw [hA] at ht
    exact h.finish ht ht'
  | twoOperands op _ _ hx =>
    rw [hx, withAB_eq_finish] at ht ht'
    rw [hA, hB] at ht
    exact h.finish ht ht'
  | movesToA hi =>
    subst hi
    cases ht; cases ht'
    exact h.result ▸ (h.setA s.r).succeedNoR
  | movesToB hi =>
    subst hi
    cases ht; cases ht'
    exact h.result ▸ (h.setB s.r).succeedNoR

/-- Settles O25: the command's ending is a function of the sampled operands alone, and one ending, or one move of
`R`, leaves agreeing registers agreeing. -/
theorem effectDependsOnlyOnTheSample : Obligations.EffectDependsOnlyOnTheSample := by
  intro i s s' t t' hA hB hr ha hb hst ht ht'
  have hagree : RegistersAgree s s' := ⟨ha, hb, hr, hst⟩
  obtain ⟨ha', hb', hr', hst'⟩ := hagree.exec hA hB ht ht'
  exact ⟨ha', hb', hr', hst'⟩

/-! ### Every command completes -/

/-- A completed command: nothing in flight, `DONE` set and `BUSY` clear, `ERR` exactly when `ECODE` is nonzero
(70_reset_and_hazards.md R259, 10_state.md R31). -/
structure Completed (t : State) : Prop where
  nothingInFlight : t.inFlight = none
  idle : t.status.busy = false
  done : t.status.done = true
  errIffCode : t.status.err = true ↔ t.status.ecode ≠ .none

theorem completed_succeedNoR (s : State) : Completed s.succeedNoR := ⟨rfl, rfl, rfl, by simp⟩

theorem completed_raise {e : ErrorCode} (he : e ≠ .none) (s : State) : Completed (s.raise e) :=
  ⟨rfl, rfl, rfl, by simp [he]⟩

theorem exec_completes (i : Instr) (s : State) : ∃ t, exec i s = .next t ∧ Completed t := by
  cases exec_ends i s with
  | succeeds v _ _ h => exact ⟨_, h, completed_succeedNoR _⟩
  | compares c _ h => exact ⟨_, h, completed_succeedNoR _⟩
  | movesToA _ h => exact ⟨_, h, completed_succeedNoR _⟩
  | movesToB _ h => exact ⟨_, h, completed_succeedNoR _⟩
  | errs e he h => exact ⟨_, h, completed_raise he.1 s⟩

/-- Settles O23, by the inversion of `exec`: each of its endings is a completed next state. -/
theorem everyCommandCompletes : Obligations.EveryCommandCompletes := by
  intro i s
  obtain ⟨t, ht, hflight, hidle, hdone, herr⟩ := exec_completes i s
  exact ⟨t, ht, hflight, hidle, hdone, herr⟩

end Sys2Proof.Machine
end

section
/-!
PROOFS. The limb units compute on values (41_limb_units.md R120 to R130), and the 192-bit datapath of ADD and SUB
computes the aligned sum (O60).
-/
namespace Sys2Proof.Machine

/-! ### The value of an array (41_limb_units.md R120) -/

@[simp] theorem limbsValue_nil : limbsValue [] = 0 := rfl

@[simp] theorem limbsValue_cons (x : Word) (xs : Limbs) :
    limbsValue (x :: xs) = x.toNat + 2 ^ 32 * limbsValue xs := rfl

theorem limbsValue_eq_headD_tail (ys : Limbs) :
    limbsValue ys = (ys.headD 0).toNat + 2 ^ 32 * limbsValue ys.tail := by
  cases ys <;> rfl

/-- The weight of the limb above an array of one limb more. -/
theorem two_pow_limbs_succ (n : Nat) : 2 ^ (32 * (n + 1)) = 2 ^ 32 * 2 ^ (32 * n) := by
  rw [← pow_add]; congr 1; omega

theorem limbsValue_lt (xs : Limbs) : limbsValue xs < 2 ^ (32 * xs.length) := by
  induction xs with
  | nil => simp
  | cons x xs ih =>
    have hx := x.isLt
    rw [limbsValue_cons, List.length_cons, two_pow_limbs_succ]
    omega

theorem limbsValue_append_zeros (xs : Limbs) (n : Nat) :
    limbsValue (xs ++ List.replicate n 0) = limbsValue xs := by
  induction xs with
  | nil =>
    induction n with
    | zero => rfl
    | succ n ih => simpa [List.replicate_succ] using ih
  | cons x xs ih => rw [List.cons_append, limbsValue_cons, limbsValue_cons, ih]

@[simp] theorem limbsValue_extendLimbs (n : Nat) (xs : Limbs) : limbsValue (extendLimbs n xs) = limbsValue xs :=
  limbsValue_append_zeros xs _

@[simp] theorem length_extendLimbs (n : Nat) (xs : Limbs) : (extendLimbs n xs).length = max xs.length n := by
  rw [extendLimbs, List.length_append, List.length_replicate]; omega

/-- The mantissa limbs of an operand stand for its mantissa (10_state.md R22, R37). -/
theorem limbsValue_mantLimbs (x : PackedBits) : limbsValue (mantLimbs x) = mantOf x := by
  have hx := x.isLt
  simp only [mantLimbs, limbsValue_cons, limbsValue_nil, BitVec.extractLsb'_toNat, Nat.shiftRight_eq_div_pow,
    mantOf_eq_div]
  omega

/-! ### Adder, subtractor and multiplier: what goes in comes out, in the array or above it -/

theorem length_addFrom (xs : Limbs) : ∀ ys c, (addFrom xs ys c).1.length = xs.length := by
  induction xs with
  | nil => intro ys c; rfl
  | cons x xs ih => intro ys c; simp [addFrom, ih]

/-- The sum and its carry together are the exact sum (41_limb_units.md R123). -/
theorem addFrom_value (xs : Limbs) : ∀ ys c, ys.length ≤ xs.length →
    limbsValue (addFrom xs ys c).1 + 2 ^ (32 * xs.length) * (addFrom xs ys c).2 =
      limbsValue xs + limbsValue ys + c := by
  induction xs with
  | nil =>
    intro ys c h
    obtain rfl : ys = [] := by simpa using h
    simp [addFrom]
  | cons x xs ih =>
    intro ys c h
    have hrest := ih ys.tail ((x.toNat + (ys.headD 0).toNat + c) / 2 ^ 32) (by simp at h ⊢; omega)
    simp only [addFrom, limbsValue_cons, List.length_cons, two_pow_limbs_succ, BitVec.toNat_ofNat, mul_assoc,
      limbsValue_eq_headD_tail ys]
    omega

theorem length_addLimbs (xs ys : Limbs) : (addLimbs xs ys).1.length = xs.length := length_addFrom xs ys 0

theorem addLimbs_value {xs ys : Limbs} (h : ys.length ≤ xs.length) :
    limbsValue (addLimbs xs ys).1 + 2 ^ (32 * xs.length) * (addLimbs xs ys).2 = limbsValue xs + limbsValue ys :=
  addFrom_value xs ys 0 h

theorem length_subFrom (xs : Limbs) : ∀ ys b, (subFrom xs ys b).1.length = xs.length := by
  induction xs with
  | nil => intro ys b; rfl
  | cons x xs ih => intro ys b; simp [subFrom, ih]

/-- One limb of the subtractor: the limb it leaves makes up for what is subtracted, with a borrow of one limb
above when it is too much (41_limb_units.md R124). -/
theorem toNat_ofInt_sub {x y b : Nat} (hx : x < 2 ^ 32) (hy : y < 2 ^ 32) (hb : b ≤ 1) :
    (BitVec.ofInt 32 ((x : ℤ) - y - b)).toNat + y + b =
      x + 2 ^ 32 * (if (x : ℤ) - y - b < 0 then 1 else 0) := by
  rw [BitVec.toNat_ofInt]
  split <;> omega

/-- The difference, the subtrahend and the borrow-in add up to the minuend and the borrow-out
(41_limb_units.md R124). -/
theorem subFrom_value (xs : Limbs) : ∀ ys b, ys.length ≤ xs.length → b ≤ 1 →
    limbsValue (subFrom xs ys b).1 + limbsValue ys + b =
      limbsValue xs + 2 ^ (32 * xs.length) * (subFrom xs ys b).2 ∧ (subFrom xs ys b).2 ≤ 1 := by
  induction xs with
  | nil =>
    intro ys b h hb
    obtain rfl : ys = [] := by simpa using h
    simpa [subFrom] using hb
  | cons x xs ih =>
    intro ys b h hb
    have hlimb := toNat_ofInt_sub x.isLt (ys.headD 0).isLt hb
    obtain ⟨hrest, hborrow⟩ := ih ys.tail
      (if (x.toNat : ℤ) - (ys.headD 0).toNat - b < 0 then 1 else 0) (by simp at h ⊢; omega) (by split <;> omega)
    refine ⟨?_, hborrow⟩
    simp only [subFrom, limbsValue_cons, List.length_cons, two_pow_limbs_succ, mul_assoc,
      limbsValue_eq_headD_tail ys]
    omega

theorem length_subLimbs (xs ys : Limbs) : (subLimbs xs ys).1.length = xs.length := length_subFrom xs ys 0

theorem subLimbs_value {xs ys : Limbs} (h : ys.length ≤ xs.length) :
    limbsValue (subLimbs xs ys).1 + limbsValue ys = limbsValue xs + 2 ^ (32 * xs.length) * (subLimbs xs ys).2 ∧
      (subLimbs xs ys).2 ≤ 1 :=
  subFrom_value xs ys 0 h (Nat.zero_le 1)

theorem length_mulSmallFrom (xs : Limbs) (k : Word) : ∀ c, (mulSmallFrom xs k c).1.length = xs.length := by
  induction xs with
  | nil => intro c; rfl
  | cons x xs ih => intro c; simp [mulSmallFrom, ih]

/-- The product and its overflow limb together are the exact product (41_limb_units.md R125). -/
theorem mulSmallFrom_value (xs : Limbs) (k : Word) : ∀ c,
    limbsValue (mulSmallFrom xs k c).1 + 2 ^ (32 * xs.length) * (mulSmallFrom xs k c).2 =
      limbsValue xs * k.toNat + c := by
  induction xs with
  | nil => intro c; simp [mulSmallFrom]
  | cons x xs ih =>
    intro c
    have hrest := ih ((x.toNat * k.toNat + c) / 2 ^ 32)
    simp only [mulSmallFrom, limbsValue_cons, List.length_cons, two_pow_limbs_succ, BitVec.toNat_ofNat, mul_assoc,
      add_mul]
    omega

theorem length_mulBySmall (xs : Limbs) (k : Word) : (mulBySmall xs k).1.length = xs.length :=
  length_mulSmallFrom xs k 0

theorem mulBySmall_value (xs : Limbs) (k : Word) :
    limbsValue (mulBySmall xs k).1 + 2 ^ (32 * xs.length) * (mulBySmall xs k).2 = limbsValue xs * k.toNat :=
  mulSmallFrom_value xs k 0

/-! ### Comparator (41_limb_units.md R122) -/

/-- The limb below decides only where the limbs above are equal. -/
theorem compare_add_limbs_above {x y : Nat} (hx : x < 2 ^ 32) (hy : y < 2 ^ 32) (u v : Nat) :
    compare (x + 2 ^ 32 * u) (y + 2 ^ 32 * v) = (compare u v).then (compare x y) := by
  rcases lt_trichotomy u v with huv | rfl | huv
  · rw [compare_lt_iff_lt.2 huv, compare_lt_iff_lt.2 (by omega)]; rfl
  · rw [compare_eq_iff_eq.2 (rfl : u = u), Ordering.eq_then]
    rcases lt_trichotomy x y with hxy | rfl | hxy
    · rw [compare_lt_iff_lt.2 hxy, compare_lt_iff_lt.2 (by omega)]
    · rw [compare_eq_iff_eq.2 rfl, compare_eq_iff_eq.2 rfl]
    · rw [compare_gt_iff_gt.2 hxy, compare_gt_iff_gt.2 (by omega)]
  · rw [compare_gt_iff_gt.2 huv, compare_gt_iff_gt.2 (by omega)]; rfl

theorem compareScan_eq (xs : Limbs) : ∀ ys, xs.length = ys.length →
    compareScan xs ys = compare (limbsValue xs) (limbsValue ys) := by
  induction xs with
  | nil =>
    intro ys h
    obtain rfl : ys = [] := by simpa using h.symm
    rfl
  | cons x xs ih =>
    intro ys h
    cases ys with
    | nil => simp at h
    | cons y ys =>
      rw [compareScan, ih ys (by simpa using h), limbsValue_cons, limbsValue_cons,
        compare_add_limbs_above x.isLt y.isLt]
      cases compare (limbsValue xs) (limbsValue ys) <;> rfl

theorem compareLimbs_eq (xs ys : Limbs) : compareLimbs xs ys = compare (limbsValue xs) (limbsValue ys) := by
  rw [compareLimbs, compareScan_eq _ _ (by simp [max_comm]), limbsValue_extendLimbs, limbsValue_extendLimbs]

/-! ### Shifter (41_limb_units.md R130) -/

theorem toNat_smallTenPower {j : Nat} (h : j ≤ 9) : (smallTenPower j).toNat = 10 ^ j := by
  rw [smallTenPower, BitVec.toNat_ofNat]
  exact Nat.mod_eq_of_lt ((Nat.pow_le_pow_right (by omega) h).trans_lt (by norm_num))

/-- One step of the shifter appends up to nine zeros (41_limb_units.md R130). -/
theorem mulBySmall_tenPower_value (xs : Limbs) {j : Nat} (h : j ≤ 9) :
    limbsValue (mulBySmall xs (smallTenPower j)).1 +
      2 ^ (32 * xs.length) * (mulBySmall xs (smallTenPower j)).2 = limbsValue xs * 10 ^ j := by
  rw [mulBySmall_value, toNat_smallTenPower h]

/-- With `v` kept of a first product and `c` carried out of the range `w`, the whole product is out of range exactly
when there was a carry or what was kept gives a product out of range. -/
theorem overflow_mul_iff {v w c p : Nat} (hp : 0 < p) :
    (c ≠ 0 ∨ w ≤ v * p) ↔ w ≤ (v + w * c) * p := by
  rcases Nat.eq_zero_or_pos c with rfl | hc
  · simp
  · have hwc : w * 1 * 1 ≤ (v + w * c) * p :=
      Nat.mul_le_mul ((Nat.mul_le_mul_left w hc).trans (Nat.le_add_left _ _)) hp
    exact iff_of_true (.inl hc.ne') (by omega)

/-- What shifting `xs` up by `k` digits from flag `ovf` answers: the product by `10^k` modulo the array's range, and
the flag raised exactly when it was before or the product is out of that range (41_limb_units.md R130). -/
structure ShiftsUp (xs : Limbs) (k : Nat) (ovf : Bool) (res : Limbs × Bool) : Prop where
  length : res.1.length = xs.length
  value : limbsValue res.1 = limbsValue xs * 10 ^ k % 2 ^ (32 * xs.length)
  overflow : res.2 = true ↔ ovf = true ∨ 2 ^ (32 * xs.length) ≤ limbsValue xs * 10 ^ k

theorem ShiftsUp.zero (xs : Limbs) (ovf : Bool) : ShiftsUp xs 0 ovf (xs, ovf) := by
  have hlt := limbsValue_lt xs
  exact ⟨rfl, by simp [Nat.mod_eq_of_lt hlt], by simp [hlt]⟩

/-- A step of up to nine digits, then the rest. -/
theorem ShiftsUp.step {xs : Limbs} {j k : Nat} {ovf : Bool} {res : Limbs × Bool} (hj : j ≤ 9) (hjk : j ≤ k)
    (h : ShiftsUp (mulBySmall xs (smallTenPower j)).1 (k - j)
      (ovf || decide ((mulBySmall xs (smallTenPower j)).2 ≠ 0)) res) : ShiftsUp xs k ovf res := by
  obtain ⟨hlen, hval, hovf⟩ := h
  rw [length_mulBySmall] at hlen hval hovf
  have hprod : limbsValue xs * 10 ^ k = (limbsValue (mulBySmall xs (smallTenPower j)).1 +
      2 ^ (32 * xs.length) * (mulBySmall xs (smallTenPower j)).2) * 10 ^ (k - j) := by
    rw [mulBySmall_tenPower_value xs hj, mul_assoc, ← pow_add, Nat.add_sub_cancel' hjk]
  refine ⟨hlen, ?_, ?_⟩
  · rw [hval, hprod, add_mul, mul_assoc (2 ^ _), Nat.add_mul_mod_self_left]
  · rw [hovf, hprod, Bool.or_eq_true, decide_eq_true_eq, or_assoc, overflow_mul_iff (Nat.pow_pos (by omega))]

theorem alignUpLoop_shiftsUp : ∀ (fuel : Nat) (xs : Limbs) (k : Nat) (ovf : Bool), k ≤ fuel →
    ShiftsUp xs k ovf (alignUpLoop fuel xs k ovf) := by
  intro fuel
  induction fuel with
  | zero =>
    intro xs k ovf hk
    obtain rfl : k = 0 := by omega
    exact .zero xs ovf
  | succ fuel ih =>
    intro xs k ovf hk
    rw [alignUpLoop]
    split
    next h0 => subst h0; exact .zero xs ovf
    next h0 => exact .step (Nat.min_le_left 9 k) (Nat.min_le_right 9 k) (ih _ _ _ (by omega))

/-- The shifter in six limbs (41_limb_units.md R130). -/
theorem alignUpLimbs_spec {xs : Limbs} (h : xs.length ≤ 6) (k : Nat) :
    (alignUpLimbs xs k).1.length = 6 ∧
    limbsValue (alignUpLimbs xs k).1 = limbsValue xs * 10 ^ k % 2 ^ 192 ∧
    ((alignUpLimbs xs k).2 = true ↔ 2 ^ 192 ≤ limbsValue xs * 10 ^ k) := by
  have hlen : (extendLimbs Config.wideLimbs xs).length = 6 := by
    rw [length_extendLimbs]; exact max_eq_right h
  obtain ⟨h1, h2, h3⟩ := alignUpLoop_shiftsUp k (extendLimbs Config.wideLimbs xs) k false le_rfl
  rw [hlen] at h1 h2 h3
  rw [limbsValue_extendLimbs] at h2 h3
  exact ⟨h1, h2, h3.trans (by simp)⟩

/-! ### The units when the result fits -/

theorem alignUpLimbs_of_fits {xs : Limbs} {k : Nat} (h : xs.length ≤ 6) (hfit : limbsValue xs * 10 ^ k < 2 ^ 192) :
    ∃ zs, alignUpLimbs xs k = (zs, false) ∧ zs.length = 6 ∧ limbsValue zs = limbsValue xs * 10 ^ k := by
  obtain ⟨hlen, hval, hovf⟩ := alignUpLimbs_spec h k
  have hflag : (alignUpLimbs xs k).2 = false := by
    rw [← Bool.not_eq_true, hovf]; omega
  exact ⟨_, Prod.ext rfl hflag, hlen, by rw [hval, Nat.mod_eq_of_lt hfit]⟩

theorem addLimbs_of_fits {xs ys : Limbs} (h : ys.length ≤ xs.length)
    (hfit : limbsValue xs + limbsValue ys < 2 ^ (32 * xs.length)) :
    ∃ zs, addLimbs xs ys = (zs, 0) ∧ zs.length = xs.length ∧ limbsValue zs = limbsValue xs + limbsValue ys := by
  have hval := addLimbs_value h
  have hcarry : (addLimbs xs ys).2 = 0 := by
    by_contra hne
    have := Nat.mul_le_mul_left (2 ^ (32 * xs.length)) (Nat.one_le_iff_ne_zero.2 hne)
    omega
  rw [hcarry, mul_zero, add_zero] at hval
  exact ⟨_, Prod.ext rfl hcarry, length_addLimbs xs ys, hval⟩

theorem subLimbs_of_le {xs ys : Limbs} (h : ys.length ≤ xs.length) (hle : limbsValue ys ≤ limbsValue xs) :
    ∃ zs, subLimbs xs ys = (zs, 0) ∧ zs.length = xs.length ∧ limbsValue zs = limbsValue xs - limbsValue ys := by
  obtain ⟨hval, hborrow⟩ := subLimbs_value h
  have hlt := limbsValue_lt (subLimbs xs ys).1
  rw [length_subLimbs] at hlt
  have hnone : (subLimbs xs ys).2 = 0 := by
    by_contra hne
    rw [show (subLimbs xs ys).2 = 1 by omega] at hval
    omega
  rw [hnone, mul_zero, add_zero] at hval
  exact ⟨_, Prod.ext rfl hnone, length_subLimbs xs ys, Nat.eq_sub_of_add_eq hval⟩

/-! ### The wide datapath (42_arithmetic.md R152) -/

/-- The datapath on mantissas whose aligned values add up to less than `2^192`: sign and magnitude of the sum, and no
unit overflows. -/
theorem addSubDatapath_of_fits (sa sb : Bool) {ma mb : Limbs} {ka kb : Nat} (ha : ma.length ≤ 6)
    (hb : mb.length ≤ 6) (hfit : limbsValue ma * 10 ^ ka + limbsValue mb * 10 ^ kb < 2 ^ 192) :
    ∃ sign sum, addSubDatapath sa sb ma mb ka kb = (sign, sum, false) ∧ sum.length = 6 ∧
      (sign, limbsValue sum) = signedSum sa sb (limbsValue ma * 10 ^ ka) (limbsValue mb * 10 ^ kb) := by
  obtain ⟨xs, hxs, hxlen, hx⟩ := alignUpLimbs_of_fits (k := ka) ha (by omega)
  obtain ⟨ys, hys, hylen, hy⟩ := alignUpLimbs_of_fits (k := kb) hb (by omega)
  rw [← hx, ← hy] at hfit ⊢
  simp only [addSubDatapath, hxs, hys, signedSum, compareLimbs_eq]
  by_cases hs : sa = sb
  · obtain ⟨zs, hzs, hzlen, hz⟩ := addLimbs_of_fits (xs := xs) (ys := ys) (by omega) (by simpa [hxlen] using hfit)
    exact ⟨sa, zs, by simp [hs, hzs], by omega, by simp [hs, hz]⟩
  · rw [if_neg hs, if_neg hs]
    by_cases hlt : limbsValue xs < limbsValue ys
    · obtain ⟨zs, hzs, hzlen, hz⟩ := subLimbs_of_le (xs := ys) (ys := xs) (by omega) hlt.le
      exact ⟨sb, zs, by simp [compare_lt_iff_lt.2 hlt, hzs], by omega, by simp [hlt, hz]⟩
    · obtain ⟨zs, hzs, hzlen, hz⟩ := subLimbs_of_le (xs := xs) (ys := ys) (by omega) (by omega)
      refine ⟨sa, zs, ?_, by omega, by simp [hlt, hz]⟩
      cases hcmp : compare (limbsValue xs) (limbsValue ys) with
      | lt => exact absurd (compare_lt_iff_lt.1 hcmp) hlt
      | eq => simp [hzs]
      | gt => simp [hzs]

/-- A mantissa aligned by at most 28 digits stays below half the datapath's range (00_scope.md R7 to R9). -/
theorem mant_mul_pow_lt (x : PackedBits) {k : Nat} (hk : k ≤ 28) : mantOf x * 10 ^ k < 2 ^ 191 := by
  have hm : mantOf x < 2 ^ 96 := by have := mantOf_le x; unfold Config.maxMant at this; omega
  have hpow : 10 ^ k ≤ 10 ^ 28 := Nat.pow_le_pow_right (by omega) hk
  calc mantOf x * 10 ^ k ≤ 2 ^ 96 * 10 ^ 28 := Nat.mul_le_mul hm.le hpow
    _ < 2 ^ 191 := by norm_num

/-- Settles O60: both aligned mantissas are below `2^191`, so every unit of the datapath is exact. -/
theorem wideDatapathComputesTheSum : Obligations.WideDatapathComputesTheSum := by
  intro a b nb ha hb
  have hc : commonScale a b ≤ 28 := by unfold commonScale; omega
  have hl := mant_mul_pow_lt a (k := commonScale a b - scaleOf a) (by omega)
  have hr := mant_mul_pow_lt b (k := commonScale a b - scaleOf b) (by omega)
  rw [← limbsValue_mantLimbs] at hl hr
  have hspec := addSubDatapath_of_fits (signOf a) (xor (signOf b) nb) (ma := mantLimbs a) (mb := mantLimbs b)
    (by simp [mantLimbs]) (by simp [mantLimbs]) (Nat.add_lt_add hl hr)
  rwa [limbsValue_mantLimbs, limbsValue_mantLimbs] at hspec

end Sys2Proof.Machine
end

section
/-!
PROOFS. The register state of the core: the `STATUS` word, what each command changes, and what each step keeps
(O12, O18, O19, O20, O21, O30).
-/
namespace Sys2Proof.Machine

/-! ### The `STATUS` word as a number (10_state.md R31) -/

theorem toNat_append_eq_add {m n : Nat} (x : BitVec m) (y : BitVec n) :
    (x ++ y).toNat = x.toNat * 2 ^ n + y.toNat := by
  rw [BitVec.toNat_append, ← Nat.shiftLeft_add_eq_or_of_lt y.isLt, Nat.shiftLeft_eq]

theorem getLsbD_eq_of_toNat {n i : Nat} {x : BitVec n} {b : Bool} (h : x.toNat / 2 ^ i % 2 = b.toNat) :
    x.getLsbD i = b := by
  rw [BitVec.getLsbD, Nat.testBit_eq_decide_div_mod_eq, h]
  cases b <;> rfl

theorem status_word_toNat (st : Status) : st.word.toNat =
    st.busy.toNat + 2 * st.done.toNat + 4 * st.err.toNat + 8 * st.pv.toNat + 16 * st.ecode.code.toNat +
      256 * st.cmpres.code.toNat := by
  have hreserved : (0 : BitVec 22).toNat = 0 := rfl
  simp only [Status.word, toNat_append_eq_add, BitVec.toNat_ofBool, hreserved]
  omega

/-- Settles O12: each field is read off the word as a number. -/
theorem statusWordHasItsFields : Obligations.StatusWordHasItsFields := by
  intro st
  have hword := status_word_toNat st
  have hbusy := Bool.toNat_lt st.busy
  have hdone := Bool.toNat_lt st.done
  have herr := Bool.toNat_lt st.err
  have hpv := Bool.toNat_lt st.pv
  have hecode := st.ecode.code.isLt
  have hcmpres := st.cmpres.code.isLt
  have hcode : (st.word.extractLsb' 8 2).toNat = st.cmpres.code.toNat := by
    rw [BitVec.extractLsb'_toNat, Nat.shiftRight_eq_div_pow]; omega
  refine ⟨getLsbD_eq_of_toNat (by omega), getLsbD_eq_of_toNat (by omega), getLsbD_eq_of_toNat (by omega),
    getLsbD_eq_of_toNat (by omega), ?_, ?_⟩
  · rw [hcode]
    cases st.cmpres <;> rfl
  · apply BitVec.eq_of_toNat_eq
    rw [BitVec.extractLsb'_toNat, Nat.shiftRight_eq_div_pow]
    change _ = 0
    omega

/-! ### What a command changes -/

/-- Everything a command can leave behind: `exec_ends` read on the state that follows (40_value_ops.md R101, R106,
R107; 44_compare.md R212; 60_exceptions.md R222). -/
inductive CommandEffect (i : Instr) (s : State) : State → Prop where
  | succeeds (v : PackedBits) (hv : isValid v = true) (hi : i.writesR = true) : CommandEffect i s (s.succeed v)
  | compares (c : CmpResult) (hi : i = .cmp) : CommandEffect i s (s.setCmp c).succeedNoR
  | movesToA (hi : i = .movra) : CommandEffect i s (s.setA s.r).succeedNoR
  | movesToB (hi : i = .movrb) : CommandEffect i s (s.setB s.r).succeedNoR
  | errs (e : ErrorCode) (he : e ≠ .none) : CommandEffect i s (s.raise e)

theorem writesR_of_ne {i : Instr} (h : i ≠ .cmp ∧ i ≠ .movra ∧ i ≠ .movrb) : i.writesR = true := by
  cases i <;> simp [Instr.writesR] at h ⊢

theorem commandEffect_of_exec {i : Instr} {s t : State} (h : exec i s = .next t) : CommandEffect i s t := by
  cases exec_ends i s with
  | succeeds v hv hi hx => cases hx.symm.trans h; exact .succeeds v hv (writesR_of_ne hi)
  | compares c hi hx => cases hx.symm.trans h; exact .compares c hi
  | movesToA hi hx => cases hx.symm.trans h; exact .movesToA hi
  | movesToB hi hx => cases hx.symm.trans h; exact .movesToB hi
  | errs e he hx => cases hx.symm.trans h; exact .errs e he.1

/-- The frame of a command: every register but its destination (10_state.md R27 to R31, 60_exceptions.md R222). -/
structure CommandFrame (i : Instr) (s t : State) : Prop where
  command : t.cmd = s.cmd
  violation : t.status.pv = s.status.pv
  hostProgram : t.program = s.program
  hostReceived : t.received = s.received
  regA : i ≠ .movra → t.a = s.a
  regB : i ≠ .movrb → t.b = s.b
  result : i.writesR = false ∨ t.status.err = true → t.r = s.r
  comparison : i ≠ .cmp → t.status.err = false → t.status.cmpres = s.status.cmpres

theorem CommandEffect.frame {i : Instr} {s t : State} (h : CommandEffect i s t) : CommandFrame i s t := by
  cases h with
  | succeeds v _ hi => constructor <;> simp [hi]
  | compares c hi => constructor <;> simp [hi]
  | movesToA hi => constructor <;> simp [hi]
  | movesToB hi => constructor <;> simp [hi]
  | errs e _ => constructor <;> simp

/-! ### Bytes of the window that keep their register (20_memory.md R51, R52) -/

theorem readRow_eq_of_registers {s t : State} {w : WindowRow} (ha : rowOffset w < 0x10 → t.a = s.a)
    (hb : 0x10 ≤ rowOffset w → rowOffset w < 0x20 → t.b = s.b) (hcmd : t.cmd = s.cmd)
    (hst : rowOffset w = 0x24 → t.status = s.status) (hr : 0x30 ≤ rowOffset w → t.r = s.r) :
    readRow t w = readRow s w := by
  cases w with
  | aFlags | aLo | aMid | aHi => simp only [readRow, ha (by decide)]
  | bFlags | bLo | bMid | bHi => simp only [readRow, hb (by decide) (by decide)]
  | cmd => exact hcmd
  | status => simp only [readRow, hst rfl]
  | reserved28 | reserved2C => rfl
  | rFlags | rLo | rMid | rHi => simp only [readRow, hr (by decide)]

theorem windowByte_eq_of_registers {s t : State} {o : Nat} (ha : o < 0x10 → t.a = s.a)
    (hb : 0x10 ≤ o → o < 0x20 → t.b = s.b) (hcmd : t.cmd = s.cmd)
    (hst : 0x24 ≤ o → o < 0x28 → t.status = s.status) (hr : 0x30 ≤ o → t.r = s.r) :
    windowByte t o = windowByte s o := by
  unfold windowByte
  cases hw : rowAt (o / 4 * 4) with
  | none => rfl
  | some w =>
    have ho := rowOffset_of_rowAt hw
    have hrow : readRow t w = readRow s w := readRow_eq_of_registers (fun _ => ha (by omega))
      (fun _ _ => hb (by omega) (by omega)) hcmd (fun _ => hst (by omega) (by omega)) (fun _ => hr (by omega))
    rw [Option.map_some, Option.map_some, hrow]

/-- Settles O30: the frame of the command, and each byte of the window belongs to one register. -/
theorem commandsChangeOnlyTheirDestination : Obligations.CommandsChangeOnlyTheirDestination := by
  intro i s t h
  obtain ⟨hcmd, hpv, hprog, hrecv, ha, hb, hr, hcmp⟩ := (commandEffect_of_exec h).frame
  refine ⟨hcmd, hpv, hprog, hrecv, ha, hb, hr, hcmp, fun o _ hstatus hmovra hmovrb hwrites => ?_⟩
  exact windowByte_eq_of_registers (fun ho => ha fun hi => hmovra ⟨hi, ho⟩)
    (fun ho ho' => hb fun hi => hmovrb ⟨hi, ho, ho'⟩) hcmd (fun ho ho' => absurd ⟨ho, ho'⟩ hstatus)
    (fun ho => hr (.inl (Bool.eq_false_iff.2 fun hi => hwrites ⟨hi, ho⟩)))

/-! ### What a host turn changes -/

/-- `t` differs from `s` at most in the working buffers and on the host's side: the core's registers and its command
in flight are kept. -/
structure CoreKept (s t : State) : Prop where
  regA : t.a = s.a
  regB : t.b = s.b
  result : t.r = s.r
  command : t.cmd = s.cmd
  report : t.status = s.status
  flight : t.inFlight = s.inFlight

/-- Everything a host slot can do to the core: nothing, a write of a word of `A` or `B`, an issue, or a reset
(20_memory.md R55 to R57, 70_reset_and_hazards.md R250). -/
inductive HostEffect (s t : State) : Prop where
  | keepsCore (h : CoreKept s t)
  | writesA (w : WindowRow) (v : Word) (rest : List HostOp) (x : PackedBits) (hp : s.program = opWr w v :: rest)
      (hw : w ∈ [.aFlags, .aLo, .aMid, .aHi]) (hidle : s.status.busy = false) (h : CoreKept (s.setA x) t)
  | writesB (w : WindowRow) (v : Word) (rest : List HostOp) (x : PackedBits) (hp : s.program = opWr w v :: rest)
      (hw : w ∈ [.bFlags, .bLo, .bMid, .bHi]) (hidle : s.status.busy = false) (h : CoreKept (s.setB x) t)
  | issues (v : Word) (rest : List HostOp) (hp : s.program = opWr .cmd v :: rest) (hidle : s.status.busy = false)
      (h : CoreKept (s.issue v) t)
  | resets (rest : List HostOp) (hp : s.program = .reset :: rest) (h : CoreKept s.applyReset t)

theorem busy_eq_false_of_not_dropped {s : State} {w : WindowRow} (hd : isDropped s w = false)
    (hw : guardedRow w = true) : s.status.busy = false := by
  simpa [isDropped, hw] using hd

theorem coreKept_pollDone (rest : List HostOp) (s : State) : CoreKept s (pollDone rest s) := by
  cases h : s.status.done with
  | true => rw [pollDone_of_done h]; constructor <;> rfl
  | false => rw [pollDone_of_not_done h]; constructor <;> rfl

/-- A write that is not dropped, row by row (20_memory.md R56, R57). -/
theorem hostEffect_of_write {s : State} {w : WindowRow} {v : Word} {rest : List HostOp}
    (hp : s.program = opWr w v :: rest) (hd : isDropped s w = false) :
    HostEffect s (acceptWrite w v (s.setProgram rest)) := by
  cases w with
  | aFlags | aLo | aMid | aHi =>
    exact .writesA _ v rest _ hp (by simp) (busy_eq_false_of_not_dropped hd rfl) ⟨rfl, rfl, rfl, rfl, rfl, rfl⟩
  | bFlags | bLo | bMid | bHi =>
    exact .writesB _ v rest _ hp (by simp) (busy_eq_false_of_not_dropped hd rfl) ⟨rfl, rfl, rfl, rfl, rfl, rfl⟩
  | cmd => exact .issues v rest hp (busy_eq_false_of_not_dropped hd rfl) ⟨rfl, rfl, rfl, rfl, rfl, rfl⟩
  | status | reserved28 | reserved2C | rFlags | rLo | rMid | rHi => exact .keepsCore ⟨rfl, rfl, rfl, rfl, rfl, rfl⟩

theorem hostEffect_of_hostSlot {s t : State} (h : hostSlot s = .next t) : HostEffect s t := by
  cases hostTurn_of_next h with
  | quiet _ => exact .keepsCore ⟨rfl, rfl, rfl, rfl, rfl, rfl⟩
  | idles _ => exact .keepsCore ⟨rfl, rfl, rfl, rfl, rfl, rfl⟩
  | reads _ => exact .keepsCore ⟨rfl, rfl, rfl, rfl, rfl, rfl⟩
  | polls _ => exact .keepsCore (coreKept_pollDone _ s)
  | writes hp hd => exact hostEffect_of_write hp hd
  | resets hp => exact .resets _ hp ⟨rfl, rfl, rfl, rfl, rfl, rfl⟩

/-! ### What a step changes -/

/-- A host turn's state before the host's own operation: one slot has passed for the command in flight. -/
def State.slotPassed (s : State) : State := { s with inFlight := s.waited }

@[simp] theorem State.slotPassed_a (s : State) : s.slotPassed.a = s.a := rfl
@[simp] theorem State.slotPassed_b (s : State) : s.slotPassed.b = s.b := rfl
@[simp] theorem State.slotPassed_r (s : State) : s.slotPassed.r = s.r := rfl
@[simp] theorem State.slotPassed_cmd (s : State) : s.slotPassed.cmd = s.cmd := rfl
@[simp] theorem State.slotPassed_status (s : State) : s.slotPassed.status = s.status := rfl
@[simp] theorem State.slotPassed_inFlight (s : State) : s.slotPassed.inFlight = s.waited := rfl
@[simp] theorem State.slotPassed_program (s : State) : s.slotPassed.program = s.program := rfl

/-- Everything a step can do to the core when it answers a next state (70_reset_and_hazards.md R257 to R261,
30_encoding.md R73). -/
inductive StepEffect (s t : State) : Prop where
  | completes (f : InFlight) (i : Instr) (hf : s.inFlight = some f) (hw : f.wait = 0)
      (hd : decodeWord f.cmd = .legal i) (h : CommandEffect i s t)
  | rejects (f : InFlight) (why : IllegalReason) (hf : s.inFlight = some f) (hw : f.wait = 0)
      (hd : decodeWord f.cmd = .illegal why) (h : t = s.raise .illegalCommand)
  | hosts (h : HostEffect s.slotPassed t)

/-- The inversion of a step. -/
theorem stepEffect_of_next {s t : State} (h : step s = .next t) : StepEffect s t := by
  by_cases hmoves : s.HostMoves
  · rw [step_of_hostMoves hmoves] at h
    exact .hosts (hostEffect_of_hostSlot h)
  · obtain ⟨f, hf, hw⟩ : ∃ f, s.inFlight = some f ∧ f.wait = 0 := by
      simpa [State.HostMoves] using hmoves
    rw [step_of_ready hf hw] at h
    rcases runWord_ends f.cmd s with ⟨i, hd, hx⟩ | ⟨why, hd, hx⟩
    · exact .completes f i hf hw hd (commandEffect_of_exec (hx.symm.trans h))
    · cases hx.symm.trans h
      exact .rejects f why hf hw hd rfl

/-- Settles O18: of the effects of a step, only a success and a reset write `R`. -/
theorem resultChangesOnlyAtCompletion : Obligations.ResultChangesOnlyAtCompletion := by
  intro s t hstep hne
  cases stepEffect_of_next hstep with
  | completes f i hf hw hd h =>
    cases h with
    | succeeds v _ hi => exact .inl ⟨f, i, hf, hw, hd, hi, rfl, rfl, rfl⟩
    | compares | movesToA | movesToB | errs => exact absurd rfl hne
  | rejects _ _ _ _ _ h => exact absurd (congrArg State.r h) hne
  | hosts h =>
    cases h with
    | resets rest hp h => exact .inr ⟨rest, hp, h.result⟩
    | keepsCore h | writesA _ _ _ _ _ _ _ h | writesB _ _ _ _ _ _ _ h | issues _ _ _ _ h =>
      exact absurd h.result hne

theorem regA_changes {s t : State} (h : StepEffect s t) (hne : t.a ≠ s.a) :
    (∃ f, s.inFlight = some f ∧ f.wait = 0 ∧ decodeWord f.cmd = .legal .movra ∧ t.a = s.r) ∨
    (∃ w v rest, s.program = opWr w v :: rest ∧ w ∈ [.aFlags, .aLo, .aMid, .aHi] ∧ s.status.busy = false) ∨
    (∃ rest, s.program = .reset :: rest ∧ t.a = 0) := by
  cases h with
  | completes f i hf hw hd h =>
    cases h with
    | movesToA hi => exact .inl ⟨f, hf, hw, hi ▸ hd, rfl⟩
    | succeeds | compares | movesToB | errs => exact absurd rfl hne
  | rejects _ _ _ _ _ h => exact absurd (congrArg State.a h) hne
  | hosts h =>
    cases h with
    | writesA w v rest _ hp hw hidle _ => exact .inr (.inl ⟨w, v, rest, hp, hw, hidle⟩)
    | resets rest hp h => exact .inr (.inr ⟨rest, hp, h.regA⟩)
    | keepsCore h | writesB _ _ _ _ _ _ _ h | issues _ _ _ _ h => exact absurd h.regA hne

theorem regB_changes {s t : State} (h : StepEffect s t) (hne : t.b ≠ s.b) :
    (∃ f, s.inFlight = some f ∧ f.wait = 0 ∧ decodeWord f.cmd = .legal .movrb ∧ t.b = s.r) ∨
    (∃ w v rest, s.program = opWr w v :: rest ∧ w ∈ [.bFlags, .bLo, .bMid, .bHi] ∧ s.status.busy = false) ∨
    (∃ rest, s.program = .reset :: rest ∧ t.b = 0) := by
  cases h with
  | completes f i hf hw hd h =>
    cases h with
    | movesToB hi => exact .inl ⟨f, hf, hw, hi ▸ hd, rfl⟩
    | succeeds | compares | movesToA | errs => exact absurd rfl hne
  | rejects _ _ _ _ _ h => exact absurd (congrArg State.b h) hne
  | hosts h =>
    cases h with
    | writesB w v rest _ hp hw hidle _ => exact .inr (.inl ⟨w, v, rest, hp, hw, hidle⟩)
    | resets rest hp h => exact .inr (.inr ⟨rest, hp, h.regB⟩)
    | keepsCore h | writesA _ _ _ _ _ _ _ h | issues _ _ _ _ h => exact absurd h.regB hne

/-- Settles O19, operand by operand over the effects of a step. -/
theorem operandsChangeOnlyByHostWritesAndMoves : Obligations.OperandsChangeOnlyByHostWritesAndMoves := by
  intro s t hstep
  have heffect := stepEffect_of_next hstep
  exact ⟨regA_changes heffect, regB_changes heffect⟩

/-- Settles O20: a completion keeps `CMD` and `PV` by the command's frame, and of the host's effects only an issue or a
reset writes `CMD` and only a reset clears `PV`. -/
theorem cmdIsTheHostsAndViolationIsSticky : Obligations.CmdIsTheHostsAndViolationIsSticky := by
  intro s t hstep
  cases stepEffect_of_next hstep with
  | completes f i _ _ _ h =>
    obtain ⟨hcmd, hpv, -⟩ := h.frame
    exact ⟨fun hne => absurd hcmd hne, fun hset => .inl (hpv.trans hset)⟩
  | rejects _ _ _ _ _ h => subst h; exact ⟨fun hne => absurd rfl hne, fun hset => .inl hset⟩
  | hosts h =>
    cases h with
    | keepsCore h | writesA _ _ _ _ _ _ _ h | writesB _ _ _ _ _ _ _ h =>
      exact ⟨fun hne => absurd h.command hne, fun hset => .inl ((congrArg Status.pv h.report).trans hset)⟩
    | issues v rest hp hidle h =>
      exact ⟨fun _ => .inl ⟨v, rest, hp, hidle, h.command⟩,
        fun hset => .inl ((congrArg Status.pv h.report).trans hset)⟩
    | resets rest hp h => exact ⟨fun _ => .inr ⟨rest, hp, h.command⟩, fun _ => .inr ⟨rest, hp⟩⟩

/-! ### The invariant -/

theorem CoreKept.inv {s t : State} (h : CoreKept s t) (hs : s.Inv) : t.Inv := by
  obtain ⟨ha, hb, hr, hcmd, hst, hfl⟩ := h
  obtain ⟨hbusy, hcopy, hvalid, herr, hcleared, hcmp, hpv⟩ := hs
  constructor <;> simpa only [ha, hb, hr, hcmd, hst, hfl]

/-- The invariant of an idle core: nothing in flight, so only `R` and the report of the last command are left to
check. -/
theorem Completed.inv {t : State} (h : Completed t) (hr : isValid t.r = true) (hpv : t.status.pv = false)
    (hcmp : t.status.cmpres ≠ .none → t.status.err = false ∧ decodeWord t.cmd = .legal .cmp) : t.Inv where
  busyWhileInFlight := by rw [h.idle, h.nothingInFlight]; rfl
  copyIsRegisters f hf := by rw [h.nothingInFlight] at hf; cases hf
  resultValid := hr
  errIffCode := h.errIffCode
  clearedWhileBusy hbusy := by rw [h.idle] at hbusy; cases hbusy
  compareOnlyAfterCmp hne := ⟨h.done, hcmp hne⟩
  noViolation := hpv

theorem inv_applyReset (s : State) : s.applyReset.Inv where
  busyWhileInFlight := rfl
  copyIsRegisters _ hf := nomatch hf
  resultValid := show isValid 0 = true by decide
  errIffCode := by simp [Status.reset]
  clearedWhileBusy := by simp [Status.reset]
  compareOnlyAfterCmp := by simp [Status.reset]
  noViolation := rfl

section
variable {s : State} (hinv : s.Inv)
include hinv

theorem State.Inv.nothingInFlight (hidle : s.status.busy = false) : s.inFlight = none := by
  have hbusy := hinv.busyWhileInFlight
  rwa [hidle, eq_comm, Option.isSome_eq_false_iff, Option.isNone_iff_eq_none] at hbusy

theorem State.Inv.cmpres_of_inFlight {f : InFlight} (hf : s.inFlight = some f) : s.status.cmpres = .none := by
  have hbusy : s.status.busy = true := by rw [hinv.busyWhileInFlight, hf]; rfl
  obtain ⟨-, -, hcmp⟩ := hinv.clearedWhileBusy hbusy
  exact hcmp

theorem State.Inv.slotPassed : s.slotPassed.Inv where
  busyWhileInFlight := by simp [State.waited, hinv.busyWhileInFlight]
  copyIsRegisters f hf := by
    obtain ⟨g, hg, rfl⟩ := Option.map_eq_some_iff.1 hf
    exact hinv.copyIsRegisters g hg
  resultValid := hinv.resultValid
  errIffCode := hinv.errIffCode
  clearedWhileBusy := hinv.clearedWhileBusy
  compareOnlyAfterCmp := hinv.compareOnlyAfterCmp
  noViolation := hinv.noViolation

/-- `A` is free to change while idle: only the in-flight copy is tied to it. -/
theorem State.Inv.setA (hidle : s.status.busy = false) (x : PackedBits) : (s.setA x).Inv where
  __ := hinv
  copyIsRegisters f hf := by
    rw [State.setA_inFlight, hinv.nothingInFlight hidle] at hf; cases hf

theorem State.Inv.setB (hidle : s.status.busy = false) (x : PackedBits) : (s.setB x).Inv where
  __ := hinv
  copyIsRegisters f hf := by
    rw [State.setB_inFlight, hinv.nothingInFlight hidle] at hf; cases hf

/-- An issue samples the registers and clears the report (70_reset_and_hazards.md R257). -/
theorem State.Inv.issue (v : Word) : (s.issue v).Inv where
  busyWhileInFlight := rfl
  copyIsRegisters f hf := by cases hf; exact ⟨rfl, rfl, rfl⟩
  resultValid := hinv.resultValid
  errIffCode := by simp
  clearedWhileBusy _ := ⟨rfl, rfl, rfl⟩
  compareOnlyAfterCmp := by simp
  noViolation := hinv.noViolation

theorem State.Inv.raise {e : ErrorCode} (he : e ≠ .none) : (s.raise e).Inv :=
  (completed_raise he s).inv hinv.resultValid hinv.noViolation (by simp)

/-- Completing the command in flight keeps the invariant: what it writes to `R` is valid, and `CMPRES`, cleared at
issue, is written by CMP alone. -/
theorem State.Inv.command {f : InFlight} {i : Instr} {t : State} (hf : s.inFlight = some f)
    (hd : decodeWord f.cmd = .legal i) (h : CommandEffect i s t) : t.Inv := by
  have hcleared := hinv.cmpres_of_inFlight hf
  cases h with
  | succeeds v hv _ => exact (completed_succeedNoR _).inv hv hinv.noViolation fun hne => absurd hcleared hne
  | movesToA | movesToB =>
    exact (completed_succeedNoR _).inv hinv.resultValid hinv.noViolation fun hne => absurd hcleared hne
  | compares c hi =>
    obtain ⟨hcmd, -, -⟩ := hinv.copyIsRegisters f hf
    rw [hcmd, hi] at hd
    exact (completed_succeedNoR _).inv hinv.resultValid hinv.noViolation fun _ => ⟨rfl, hd⟩
  | errs e he => exact hinv.raise he

theorem State.Inv.host {t : State} (h : HostEffect s t) : t.Inv := by
  cases h with
  | keepsCore h => exact h.inv hinv
  | writesA _ _ _ x _ _ hidle h => exact h.inv (hinv.setA hidle x)
  | writesB _ _ _ x _ _ hidle h => exact h.inv (hinv.setB hidle x)
  | issues v _ _ _ h => exact h.inv (hinv.issue v)
  | resets _ _ h => exact h.inv (inv_applyReset s)

end

/-- Settles O21: the completion of the command in flight and each effect of a host turn keep the invariant. -/
theorem everyStepKeepsTheInvariant : Obligations.EveryStepKeepsTheInvariant := by
  intro s t hinv hstep
  cases stepEffect_of_next hstep with
  | completes f i hf _ hd h => exact hinv.command hf hd h
  | rejects _ _ _ _ _ h => exact h ▸ hinv.raise (by decide)
  | hosts h => exact hinv.slotPassed.host h

end Sys2Proof.Machine
end

section
/-!
PROOFS. The register window: which accesses land, the bytes of words and registers, and what a host turn that reads
or writes a row does (O8, O10, O11, O13).
-/
namespace Sys2Proof.Machine

/-! ### Accesses that land (20_memory.md R50, R54) -/

theorem locate_isSome_iff (addr width : Nat) : (locate addr width).isSome ↔
    width = 4 ∧ addr % 4 = 0 ∧ Config.base ≤ addr ∧ addr < Config.base + 64 := by
  have hbase : Config.base % 4 = 0 := by unfold Config.base; omega
  unfold locate
  split
  · rw [rowAt_isSome_iff]; omega
  · rw [Option.isSome_none, Bool.false_eq_true, false_iff]; omega

theorem busRead_rowAddress (w : WindowRow) (s : State) :
    busRead (rowAddress w) 4 s = .next (s.receive (readRow s w)) := by
  rw [busRead, locate_rowAddress]

theorem busWrite_rowAddress {s : State} {w : WindowRow} (hd : isDropped s w = false) (v : Word) :
    busWrite (rowAddress w) 4 v s = .next (writeRow w v s) := by
  simp only [busWrite, locate_rowAddress, hd, Bool.false_eq_true, if_false]

theorem busRead_busError_iff (addr width : Nat) (s : State) :
    busRead addr width s = .fault .busError ↔ ¬ (locate addr width).isSome := by
  cases h : locate addr width with
  | none => simp [busRead, h]
  | some w => simp [busRead, h]

theorem busWrite_busError_iff (addr width : Nat) (v : Word) (s : State) :
    busWrite addr width v s = .fault .busError ↔ ¬ (locate addr width).isSome := by
  cases h : locate addr width with
  | none => simp [busWrite, h]
  | some w => cases hd : isDropped s w <;> simp [busWrite, h, hd]

/-- Settles O10: an access faults exactly when it lands on no row. -/
theorem onlyAlignedWordAccessesAreAccepted : Obligations.OnlyAlignedWordAccessesAreAccepted := by
  intro addr width v s
  rw [busRead_busError_iff, busWrite_busError_iff, locate_isSome_iff]
  exact ⟨Iff.rfl, Iff.rfl⟩

/-! ### Bytes of the window (20_memory.md R52) -/

theorem windowByte_rowOffset_add (s : State) (w : WindowRow) {i : Nat} (hi : i < 4) :
    windowByte s (rowOffset w + i) = some (byteOfWord (readRow s w) i) := by
  have hmod := rowOffset_mod w
  have hrow : (rowOffset w + i) / 4 * 4 = rowOffset w := by omega
  have hbyte : (rowOffset w + i) % 4 = i := by omega
  rw [windowByte, hrow, hbyte, rowAt_rowOffset, Option.map_some]

theorem byteOfWord_wordOf (x : PackedBits) (j : Nat) {i : Nat} (hi : i < 4) :
    byteOfWord (wordOf x j) i = x.extractLsb' (8 * (4 * j + i)) 8 := by
  apply BitVec.eq_of_getLsbD_eq
  intro k hk
  have hin : 8 * i + k < 32 := by omega
  have hpos : 32 * j + (8 * i + k) = 8 * (4 * j + i) + k := by omega
  simp only [byteOfWord, wordOf, BitVec.getLsbD_extractLsb', hin, hpos, decide_true, Bool.true_and]

/-- The four rows from offset `o` on hold the words of the register image `x`, low first (20_memory.md R51). -/
def HoldsImage (s : State) (o : Nat) (x : PackedBits) : Prop :=
  ∀ j, j < 4 → ∃ w, rowOffset w = o + 4 * j ∧ readRow s w = wordOf x j

theorem holdsImage_of_rows {s : State} {o : Nat} {x : PackedBits} (w0 w1 w2 w3 : WindowRow)
    (hoff : [w0, w1, w2, w3].map rowOffset = [o, o + 4, o + 8, o + 12])
    (hrow : [w0, w1, w2, w3].map (readRow s) = [wordOf x 0, wordOf x 1, wordOf x 2, wordOf x 3]) :
    HoldsImage s o x := by
  simp only [List.map_cons, List.map_nil, List.cons.injEq, and_true] at hoff hrow
  obtain ⟨ho0, ho1, ho2, ho3⟩ := hoff
  obtain ⟨hr0, hr1, hr2, hr3⟩ := hrow
  intro j hj
  obtain rfl | rfl | rfl | rfl : j = 0 ∨ j = 1 ∨ j = 2 ∨ j = 3 := by omega
  · exact ⟨w0, ho0, hr0⟩
  · exact ⟨w1, ho1, hr1⟩
  · exact ⟨w2, ho2, hr2⟩
  · exact ⟨w3, ho3, hr3⟩

theorem holdsImage_a (s : State) : HoldsImage s 0 s.a := holdsImage_of_rows .aFlags .aLo .aMid .aHi rfl rfl
theorem holdsImage_b (s : State) : HoldsImage s 0x10 s.b := holdsImage_of_rows .bFlags .bLo .bMid .bHi rfl rfl
theorem holdsImage_r (s : State) : HoldsImage s 0x30 s.r := holdsImage_of_rows .rFlags .rLo .rMid .rHi rfl rfl

/-- Byte `i` of a register is byte `i % 4` of its word `i / 4`. -/
theorem HoldsImage.windowByte {s : State} {o : Nat} {x : PackedBits} (h : HoldsImage s o x) {i : Nat}
    (hi : i < 16) : windowByte s (o + i) = some (x.extractLsb' (8 * i) 8) := by
  obtain ⟨w, hoff, hrow⟩ := h (i / 4) (by omega)
  have hlt : i % 4 < 4 := by omega
  have hbyte : 4 * (i / 4) + i % 4 = i := by omega
  have hoffset : o + i = rowOffset w + i % 4 := by omega
  rw [hoffset, windowByte_rowOffset_add s w hlt, hrow, byteOfWord_wordOf x _ hlt, hbyte]

/-- Settles O13: the bytes of one row, and the bytes of a register as bytes of its four rows. -/
theorem windowBytesAreLittleEndian : Obligations.WindowBytesAreLittleEndian := by
  intro s
  refine ⟨fun w i hi => windowByte_rowOffset_add s w hi, fun o ho => ⟨?_, ?_, ?_⟩⟩
  · have ha := (holdsImage_a s).windowByte ho
    rwa [Nat.zero_add] at ha
  · exact (holdsImage_b s).windowByte ho
  · exact (holdsImage_r s).windowByte ho

/-! ### Writes of a row (20_memory.md R56, R57) -/

theorem rowOffset_inj {w w' : WindowRow} : rowOffset w' = rowOffset w ↔ w' = w := by
  refine ⟨fun h => ?_, congrArg rowOffset⟩
  have hrow := rowAt_rowOffset w'
  rw [h, rowAt_rowOffset] at hrow
  exact (Option.some.inj hrow).symm

theorem guardedRow_iff {w : WindowRow} :
    guardedRow w = true ↔ w ∈ [.aFlags, .aLo, .aMid, .aHi, .bFlags, .bLo, .bMid, .bHi, .cmd] := by
  cases w <;> decide

theorem not_guardedRow_iff {w : WindowRow} :
    guardedRow w = false ↔ w ∈ [.status, .reserved28, .reserved2C, .rFlags, .rLo, .rMid, .rHi] := by
  cases w <;> decide

theorem isDropped_of_idle {s : State} (h : s.status.busy = false) (w : WindowRow) : isDropped s w = false := by
  rw [isDropped, h, Bool.and_false]

theorem isDropped_of_not_guarded {w : WindowRow} (h : guardedRow w = false) (s : State) :
    isDropped s w = false := by
  rw [isDropped, h, Bool.false_and]

theorem isDropped_of_guarded {s : State} {w : WindowRow} (hw : guardedRow w = true)
    (hbusy : s.status.busy = true) : isDropped s w = true := by
  rw [isDropped, hw, hbusy, Bool.and_self]

theorem writeRow_of_dropped {s : State} {w : WindowRow} (h : isDropped s w = true) (v : Word) :
    writeRow w v s = s.dropWrite := by
  rw [writeRow, if_pos h]

theorem writeRow_of_not_dropped {s : State} {w : WindowRow} (h : isDropped s w = false) (v : Word) :
    writeRow w v s = acceptWrite w v s := by
  rw [writeRow, h, if_neg Bool.false_ne_true]

theorem acceptWrite_of_not_guarded {w : WindowRow} (h : guardedRow w = false) (v : Word) (s : State) :
    acceptWrite w v s = s := by
  cases w with
  | aFlags | aLo | aMid | aHi | bFlags | bLo | bMid | bHi | cmd => exact absurd h (by decide)
  | status | reserved28 | reserved2C | rFlags | rLo | rMid | rHi => rfl

/-- A new word `j` of `A` is seen in the row at offset `4 j` and in no other. -/
theorem readRow_setA_setWord (s : State) (v : Word) (w : WindowRow) {j : Nat} (hj : j < 4) :
    readRow (s.setA (setWord s.a j v)) w = if rowOffset w = 4 * j then v else readRow s w := by
  cases w with
  | aFlags | aLo | aMid | aHi =>
    simp only [readRow, State.setA_a, wordOf_setWord, Nat.reduceLT, rowOffset]
    exact if_congr (by omega) rfl rfl
  | bFlags | bLo | bMid | bHi | cmd | status | reserved28 | reserved2C | rFlags | rLo | rMid | rHi =>
    exact (if_neg (by simp only [rowOffset]; omega)).symm

/-- A new word `j` of `B` is seen in the row at offset `0x10 + 4 j` and in no other. -/
theorem readRow_setB_setWord (s : State) (v : Word) (w : WindowRow) {j : Nat} (hj : j < 4) :
    readRow (s.setB (setWord s.b j v)) w = if rowOffset w = 0x10 + 4 * j then v else readRow s w := by
  cases w with
  | bFlags | bLo | bMid | bHi =>
    simp only [readRow, State.setB_b, wordOf_setWord, Nat.reduceLT, rowOffset]
    exact if_congr (by omega) rfl rfl
  | aFlags | aLo | aMid | aHi | cmd | status | reserved28 | reserved2C | rFlags | rLo | rMid | rHi =>
    exact (if_neg (by simp only [rowOffset]; omega)).symm

/-- A write of a word of `A` or `B`, with the word's number in the register (20_memory.md R51, R56). -/
theorem acceptWrite_operandRow {w : WindowRow}
    (hw : w ∈ [.aFlags, .aLo, .aMid, .aHi, .bFlags, .bLo, .bMid, .bHi]) (v : Word) (s : State) :
    (∃ j < 4, rowOffset w = 4 * j ∧ acceptWrite w v s = s.setA (setWord s.a j v)) ∨
    (∃ j < 4, rowOffset w = 0x10 + 4 * j ∧ acceptWrite w v s = s.setB (setWord s.b j v)) := by
  cases w with
  | aFlags => exact .inl ⟨0, by decide, rfl, rfl⟩
  | aLo => exact .inl ⟨1, by decide, rfl, rfl⟩
  | aMid => exact .inl ⟨2, by decide, rfl, rfl⟩
  | aHi => exact .inl ⟨3, by decide, rfl, rfl⟩
  | bFlags => exact .inr ⟨0, by decide, rfl, rfl⟩
  | bLo => exact .inr ⟨1, by decide, rfl, rfl⟩
  | bMid => exact .inr ⟨2, by decide, rfl, rfl⟩
  | bHi => exact .inr ⟨3, by decide, rfl, rfl⟩
  | cmd | status | reserved28 | reserved2C | rFlags | rLo | rMid | rHi => exact absurd hw (by decide)

/-- What a write of a word of `A` or `B` does to the window, and the registers it keeps. -/
theorem acceptWrite_operandRow_effect {w : WindowRow}
    (hw : w ∈ [.aFlags, .aLo, .aMid, .aHi, .bFlags, .bLo, .bMid, .bHi]) (v : Word) (s : State) :
    (∀ w', readRow (acceptWrite w v s) w' = if w' = w then v else readRow s w') ∧
    (acceptWrite w v s).inFlight = s.inFlight ∧ (acceptWrite w v s).status = s.status ∧
    (acceptWrite w v s).r = s.r ∧ (acceptWrite w v s).cmd = s.cmd := by
  rcases acceptWrite_operandRow hw v s with ⟨j, hj, hoff, hwrite⟩ | ⟨j, hj, hoff, hwrite⟩ <;> rw [hwrite]
  · refine ⟨fun w' => ?_, rfl, rfl, rfl, rfl⟩
    rw [readRow_setA_setWord s v w' hj, ← hoff]
    exact if_congr rowOffset_inj rfl rfl
  · refine ⟨fun w' => ?_, rfl, rfl, rfl, rfl⟩
    rw [readRow_setB_setWord s v w' hj, ← hoff]
    exact if_congr rowOffset_inj rfl rfl

/-! ### Host turns that access a row (20_memory.md R55, R56) -/

theorem hostSlot_of_write {s : State} {addr width : Nat} {v : Word} {rest : List HostOp}
    (hp : s.program = .write addr width v :: rest) :
    hostSlot s = busWrite addr width v (s.setProgram rest) := by
  rw [hostSlot, hp]

theorem hostSlot_of_read {s : State} {addr width : Nat} {rest : List HostOp}
    (hp : s.program = .read addr width :: rest) :
    hostSlot s = busRead addr width (s.setProgram rest) := by
  rw [hostSlot, hp]

theorem step_of_opWr {s : State} {w : WindowRow} {v : Word} {rest : List HostOp} (hmoves : s.HostMoves)
    (hp : s.program = opWr w v :: rest) :
    step s = busWrite (rowAddress w) 4 v (s.slotPassed.setProgram rest) :=
  (step_of_hostMoves hmoves).trans (hostSlot_of_write (s := s.slotPassed) hp)

theorem step_of_opRd {s : State} {w : WindowRow} {rest : List HostOp} (hmoves : s.HostMoves)
    (hp : s.program = opRd w :: rest) :
    step s = busRead (rowAddress w) 4 (s.slotPassed.setProgram rest) :=
  (step_of_hostMoves hmoves).trans (hostSlot_of_read (s := s.slotPassed) hp)

theorem readRow_slotPassed (s : State) (w : WindowRow) : readRow s.slotPassed w = readRow s w := by
  cases w <;> rfl

/-- Settles O8: an idle host turn makes the write, and a write is dropped, changes one word of an operand, issues, or
has no effect, by its row and `BUSY`. -/
theorem rowWritesFollowTheMap : Obligations.RowWritesFollowTheMap := by
  refine ⟨fun s w v rest hmoves hp hidle => ?_, fun s w v =>
    ⟨fun hbusy hw => ?_, fun hidle hw => ?_, fun hidle hw => ?_, fun hw => ?_⟩⟩
  · rw [step_of_opWr hmoves hp]
    exact busWrite_rowAddress (s := s.slotPassed.setProgram rest) (isDropped_of_idle hidle w) v
  · exact writeRow_of_dropped (isDropped_of_guarded (guardedRow_iff.2 hw) hbusy) v
  · rw [writeRow_of_not_dropped (isDropped_of_idle hidle w)]
    exact acceptWrite_operandRow_effect hw v s
  · rw [writeRow_of_not_dropped (isDropped_of_idle hidle w), hw]
    exact ⟨rfl, rfl⟩
  · have hfree := not_guardedRow_iff.2 hw
    rw [writeRow_of_not_dropped (isDropped_of_not_guarded hfree s), acceptWrite_of_not_guarded hfree]

/-- Settles O11: a host turn receives the row it reads, and the rows of a register are its words. -/
theorem readsReturnTheRowAndChangeNothing : Obligations.ReadsReturnTheRowAndChangeNothing := by
  refine ⟨fun s w rest hmoves hp => ?_, fun s => ⟨rfl, rfl, rfl, rfl, rfl, rfl, rfl⟩⟩
  rw [step_of_opRd hmoves hp, busRead_rowAddress, readRow_setProgram, readRow_slotPassed]
  rfl

end Sys2Proof.Machine
end

section
/-!
PROOFS. The command decoder: decoding and encoding are inverse, the illegal words are the listed ones, and the opcode
table has one row for each legal word (O1 to O5).
-/
namespace Sys2Proof.Machine

/-! ### Running a decoded word (40_value_ops.md R100, 30_encoding.md R73) -/

theorem endsInError_raise (s : State) (e : ErrorCode) : EndsInError s e (s.raise e) := by
  constructor <;> rfl

theorem runWord_of_legal {w : Word} {i : Instr} (h : decodeWord w = .legal i) (s : State) :
    runWord w s = exec i s := by
  rw [runWord, h]

theorem runWord_of_illegal {w : Word} {why : IllegalReason} (h : decodeWord w = .illegal why) (s : State) :
    runWord w s = .next (s.raise .illegalCommand) := by
  rw [runWord, h]

end Sys2Proof.Machine

namespace Sys2Proof

/-! ### The decoder on fields (30_encoding.md R72 to R74) -/

theorem decodePlain_legal_iff {rm imm : Nat} {i j : Instr} :
    decodePlain rm imm i = .legal j ↔ rm = 0 ∧ imm = 0 ∧ i = j := by
  unfold decodePlain; split_ifs <;> simp_all

theorem decodeImm_legal_iff {rm : Nat} {i j : Instr} : decodeImm rm i = .legal j ↔ rm = 0 ∧ i = j := by
  unfold decodeImm; split_ifs <;> simp_all

theorem decodeRound_of_legal {rm imm : Nat} {i : Instr} (h : decodeRound rm imm = .legal i) :
    i.opcode = 0x08 ∧ i.rmCode = rm ∧ i.immCode = imm := by
  unfold decodeRound at h
  split at h <;> cases h <;> exact ⟨rfl, rfl, rfl⟩

theorem decodePlain_illegal_iff {rm imm : Nat} {i : Instr} :
    (∃ why, decodePlain rm imm i = .illegal why) ↔ rm ≠ 0 ∨ imm ≠ 0 := by
  unfold decodePlain; split_ifs <;> simp_all

theorem decodeImm_illegal_iff {rm : Nat} {i : Instr} : (∃ why, decodeImm rm i = .illegal why) ↔ rm ≠ 0 := by
  unfold decodeImm; split_ifs <;> simp_all

/-- Of the values of the 3-bit field RM, ROUND leaves one unused (30_encoding.md R74). -/
theorem decodeRound_illegal_iff {rm imm : Nat} (h : rm < 8) :
    (∃ why, decodeRound rm imm = .illegal why) ↔ rm = 7 := by
  interval_cases rm <;> simp [decodeRound]

/-- The four ways the opcode map reads RM and IMM: no command, a command that uses neither, one that uses IMM, ROUND
(30_encoding.md R72, R73). -/
inductive OpcodeClass (opc rm imm : Nat) : Decoded → Prop where
  | unassigned (h : opc = 0 ∨ 0x13 ≤ opc) : OpcodeClass opc rm imm (.illegal .opcode)
  | plain (i : Instr) (hopc : i.opcode = opc) (hrm : i.rmCode = 0) (himm : i.immCode = 0)
      (hrow : 1 ≤ opc ∧ opc < 0x13 ∧ ¬ (opc = 0x07 ∨ opc = 0x08 ∨ opc = 0x10)) :
      OpcodeClass opc rm imm (decodePlain rm imm i)
  | immediate (i : Instr) (hopc : i.opcode = opc) (hrm : i.rmCode = 0) (himm : i.immCode = imm)
      (hrow : opc = 0x07 ∨ opc = 0x10) : OpcodeClass opc rm imm (decodeImm rm i)
  | round (hrow : opc = 0x08) : OpcodeClass opc rm imm (decodeRound rm imm)

theorem decodeFields_class (opc rm imm : Nat) : OpcodeClass opc rm imm (decodeFields opc rm imm) := by
  unfold decodeFields
  split
  case h_7 | h_16 => exact .immediate _ rfl rfl rfl (by decide)
  case h_8 => exact .round rfl
  case h_19 =>
    simp only [imp_false] at *
    exact .unassigned (by omega)
  all_goals exact .plain _ rfl rfl rfl (by decide)

/-- The fields of a command select it (30_encoding.md R78). -/
theorem decodeFields_codes (i : Instr) : decodeFields i.opcode i.rmCode i.immCode = .legal i := by
  cases i <;> rfl

/-- A command that some fields select has those fields (30_encoding.md R77). -/
theorem codes_of_decodeFields {opc rm imm : Nat} {i : Instr} (h : decodeFields opc rm imm = .legal i) :
    i.opcode = opc ∧ i.rmCode = rm ∧ i.immCode = imm := by
  have hclass := decodeFields_class opc rm imm
  generalize decodeFields opc rm imm = d at h hclass
  cases hclass with
  | unassigned _ => cases h
  | plain j hopc hrm himm _ =>
    obtain ⟨rfl, rfl, rfl⟩ := decodePlain_legal_iff.1 h
    exact ⟨hopc, hrm, himm⟩
  | immediate j hopc hrm himm _ =>
    obtain ⟨rfl, rfl⟩ := decodeImm_legal_iff.1 h
    exact ⟨hopc, hrm, himm⟩
  | round hrow => rw [hrow]; exact decodeRound_of_legal h

/-- The list of 30_encoding.md R73 on the fields of a word without reserved bits. -/
theorem decodeFields_illegal_iff {opc rm imm : Nat} (hrm : rm < 8) :
    (∃ why, decodeFields opc rm imm = .illegal why) ↔
      opc = 0x00 ∨ opc ≥ 0x13 ∨ (rm ≠ 0 ∧ opc ≠ 0x08) ∨ (opc = 0x08 ∧ rm = 7) ∨
        (imm ≠ 0 ∧ ¬ (opc = 0x07 ∨ opc = 0x08 ∨ opc = 0x10)) := by
  have hclass := decodeFields_class opc rm imm
  generalize decodeFields opc rm imm = d at hclass ⊢
  cases hclass with
  | unassigned h => exact iff_of_true ⟨_, rfl⟩ (by omega)
  | plain i _ _ _ hrow => rw [decodePlain_illegal_iff]; omega
  | immediate i _ _ _ hrow => rw [decodeImm_illegal_iff]; omega
  | round hrow => rw [decodeRound_illegal_iff hrm]; omega

/-! ### The decoder on words (30_encoding.md R71, R77) -/

theorem rmField_lt (w : Word) : rmField w < 8 := BitVec.isLt _

theorem immField_le (w : Word) : immField w ≤ 255 := Nat.le_of_lt_succ (BitVec.isLt _)

theorem decodeWord_of_resv_eq_zero {w : Word} (h : resvField w = 0) :
    decodeWord w = decodeFields (opcField w) (rmField w) (immField w) := if_neg (not_not.2 h)

theorem decodeWord_of_resv_ne_zero {w : Word} (h : resvField w ≠ 0) : decodeWord w = .illegal .reservedBits :=
  if_pos h

/-- A legal word has no reserved bit set, and its fields are those of its command (30_encoding.md R73, R77). -/
theorem fields_of_decodeWord {w : Word} {i : Instr} (h : decodeWord w = .legal i) :
    resvField w = 0 ∧ i.opcode = opcField w ∧ i.rmCode = rmField w ∧ i.immCode = immField w := by
  by_cases hresv : resvField w = 0
  · rw [decodeWord_of_resv_eq_zero hresv] at h
    exact ⟨hresv, codes_of_decodeFields h⟩
  · rw [decodeWord_of_resv_ne_zero hresv] at h
    cases h

/-- The list of illegal words (30_encoding.md R73). -/
theorem decodeWord_illegal_iff (w : Word) : (∃ why, decodeWord w = .illegal why) ↔
    opcField w = 0x00 ∨ opcField w ≥ 0x13 ∨ resvField w ≠ 0 ∨ (rmField w ≠ 0 ∧ opcField w ≠ 0x08) ∨
      (opcField w = 0x08 ∧ rmField w = 7) ∨
      (immField w ≠ 0 ∧ ¬ (opcField w = 0x07 ∨ opcField w = 0x08 ∨ opcField w = 0x10)) := by
  by_cases hresv : resvField w = 0
  · rw [decodeWord_of_resv_eq_zero hresv, decodeFields_illegal_iff (rmField_lt w)]
    omega
  · exact iff_of_true ⟨_, decodeWord_of_resv_ne_zero hresv⟩ (.inr (.inr (.inl hresv)))

theorem decodeWord_encode {i : Instr} (h : i.WellFormed) : decodeWord (encode i) = .legal i := by
  obtain ⟨hopc, hrm, himm, hresv⟩ := encode_fields h
  rw [decodeWord_of_resv_eq_zero hresv, hopc, hrm, himm, decodeFields_codes]

/-- The window's bytes of a word, followed by any others, decode to the word's command (20_memory.md R52). -/
theorem decodeBytes_encodeBytes (i : Instr) (rest : List Byte) :
    decodeBytes (encodeBytes i ++ rest) = (decodeWord (encode i), rest) := by
  simp only [encodeBytes, List.cons_append, List.nil_append, decodeBytes, wordOfBytes_byteOfWord]

/-- Settles O1: an encoded command has the command's fields, and its four bytes make up its word. -/
theorem decodeOfEncodeIsIdentity : Obligations.DecodeOfEncodeIsIdentity := by
  intro i rest hwf
  rw [decodeBytes_encodeBytes, decodeWord_encode hwf]
  exact ⟨rfl, rfl⟩

theorem wellFormed_of_immCode_le {i : Instr} (h : i.immCode ≤ 255) : i.WellFormed := by
  cases i with
  | rescale _ | roundRne _ | roundRhaz _ | roundRhtz _ | roundRtz _ | roundRaz _ | roundRfloor _ | roundRceil _
  | setscale _ => exact decide_eq_true h
  | add | sub | mul | div | rem | cmp | norm | trunc | fract | floor | ceil | neg | abs | movra | movrb => rfl

theorem wellFormed_of_decodeWord {w : Word} {i : Instr} (h : decodeWord w = .legal i) : i.WellFormed := by
  obtain ⟨-, -, -, himm⟩ := fields_of_decodeWord h
  exact wellFormed_of_immCode_le (himm ▸ immField_le w)

theorem encode_of_decodeWord {w : Word} {i : Instr} (h : decodeWord w = .legal i) : encode i = w := by
  obtain ⟨hresv, hopc, hrm, himm⟩ := fields_of_decodeWord h
  apply BitVec.eq_of_toNat_eq
  rw [encode_toNat (wellFormed_of_decodeWord h), fields_make_word w, hresv, hopc, hrm, himm]
  omega

/-- Settles O2: a legal word has the fields of its command, and its fields make it up. -/
theorem encodeOfDecodeIsIdentity : Obligations.EncodeOfDecodeIsIdentity := fun _ _ h =>
  ⟨wellFormed_of_decodeWord h, encode_of_decodeWord h⟩

/-- Settles O3: the list is read off the classes of the opcode map, and an illegal word only raises its error. -/
theorem illegalWordsAreExactlyTheListedOnes : Obligations.IllegalWordsAreExactlyTheListedOnes := by
  intro w
  refine ⟨decodeWord_illegal_iff w,
    fun why s h => ⟨_, Machine.runWord_of_illegal h s, Machine.endsInError_raise s _⟩, fun i h => ?_⟩
  obtain ⟨-, hcodes⟩ := fields_of_decodeWord h
  exact hcodes

/-! ### The opcode table (30_encoding.md R77) -/

/-- No word belongs to two rows: their patterns differ in a bit that both masks hold. -/
theorem opcodeTable_disjoint : ∀ r ∈ opcodeTable, ∀ r' ∈ opcodeTable,
    r.pattern &&& r'.mask = r'.pattern &&& r.mask → r = r' := by decide

theorem matchesWord_iff {row : OpcodeRow} {w : Word} : row.matchesWord w = true ↔ w &&& row.mask = row.pattern :=
  beq_iff_eq

theorem row_unique {r r' : OpcodeRow} {w : Word} (hr : r ∈ opcodeTable) (hr' : r' ∈ opcodeTable)
    (h : r.matchesWord w = true) (h' : r'.matchesWord w = true) : r = r' := by
  rw [matchesWord_iff] at h h'
  refine opcodeTable_disjoint r hr r' hr' ?_
  rw [← h, ← h', BitVec.and_assoc, BitVec.and_comm r.mask, BitVec.and_assoc]

/-- The word of every command lies in the row of its mnemonic. -/
theorem encode_in_own_row (i : Instr) : Laws.RowMatch.Statement i := by
  cases i with
  | add => exact Laws.RowMatch.add
  | sub => exact Laws.RowMatch.sub
  | mul => exact Laws.RowMatch.mul
  | div => exact Laws.RowMatch.div
  | rem => exact Laws.RowMatch.rem
  | cmp => exact Laws.RowMatch.cmp
  | rescale t => exact Laws.RowMatch.rescale t
  | roundRne dp => exact Laws.RowMatch.roundRne dp
  | roundRhaz dp => exact Laws.RowMatch.roundRhaz dp
  | roundRhtz dp => exact Laws.RowMatch.roundRhtz dp
  | roundRtz dp => exact Laws.RowMatch.roundRtz dp
  | roundRaz dp => exact Laws.RowMatch.roundRaz dp
  | roundRfloor dp => exact Laws.RowMatch.roundRfloor dp
  | roundRceil dp => exact Laws.RowMatch.roundRceil dp
  | norm => exact Laws.RowMatch.norm
  | trunc => exact Laws.RowMatch.trunc
  | fract => exact Laws.RowMatch.fract
  | floor => exact Laws.RowMatch.floor
  | ceil => exact Laws.RowMatch.ceil
  | neg => exact Laws.RowMatch.neg
  | abs => exact Laws.RowMatch.abs
  | setscale t => exact Laws.RowMatch.setscale t
  | movra => exact Laws.RowMatch.movra
  | movrb => exact Laws.RowMatch.movrb

theorem filter_matches_eq_singleton {row : OpcodeRow} {w : Word} (hrow : row ∈ opcodeTable)
    (hmatch : row.matchesWord w = true) : opcodeTable.filter (fun r => r.matchesWord w) = [row] := by
  have honly : ∀ r ∈ opcodeTable, r.matchesWord w = decide (r = row) := fun r hr => by
    rw [Bool.eq_iff_iff, decide_eq_true_iff]
    exact ⟨fun h => row_unique hr hrow h hmatch, fun h => h ▸ hmatch⟩
  have honce : opcodeTable.count row = 1 := List.count_eq_one_of_mem (by decide) hrow
  rw [List.filter_congr honly, List.filter_eq, honce, List.replicate_one]

/-- A field that a mask holds whole is the same in a masked word as in the word. -/
theorem extractLsb'_of_mask {w mask p : Word} {start len : Nat} (h : w &&& mask = p)
    (hmask : mask.extractLsb' start len = BitVec.allOnes len) : w.extractLsb' start len = p.extractLsb' start len := by
  rw [← h, BitVec.extractLsb'_and, hmask, BitVec.and_allOnes]

theorem fixedRows_legal : ∀ row ∈ fixedRows, row.mask = BitVec.allOnes 32 ∧
    (decodeWord row.pattern).instr?.isSome = true := by decide

/-- A row with a free immediate fixes the other fields, and holds RESCALE, SETSCALE or a mode of ROUND
(30_encoding.md R72, R74). -/
theorem immediateRows_fields : ∀ row ∈ immediateRows, row.mask = 0xFFFF00FF ∧ resvField row.pattern = 0 ∧
    ((opcField row.pattern = 0x07 ∨ opcField row.pattern = 0x10) ∧ rmField row.pattern = 0 ∨
      opcField row.pattern = 0x08 ∧ rmField row.pattern < 7) := by decide

theorem fields_of_immediate_mask {w p : Word} (h : w &&& 0xFFFF00FF = p) :
    opcField w = opcField p ∧ rmField w = rmField p ∧ resvField w = resvField p :=
  ⟨congrArg BitVec.toNat (extractLsb'_of_mask h (by decide)),
    congrArg BitVec.toNat (extractLsb'_of_mask h (by decide)),
    congrArg BitVec.toNat (extractLsb'_of_mask h (by decide))⟩

theorem not_illegal_of_fixedRow {row : OpcodeRow} {w : Word} (hrow : row ∈ fixedRows)
    (hmatch : row.matchesWord w = true) (why : IllegalReason) : decodeWord w ≠ .illegal why := by
  obtain ⟨hmask, hlegal⟩ := fixedRows_legal row hrow
  rw [matchesWord_iff, hmask, BitVec.and_allOnes] at hmatch
  intro hw
  rw [← hmatch, hw] at hlegal
  cases hlegal

theorem not_illegal_of_immediateRow {row : OpcodeRow} {w : Word} (hrow : row ∈ immediateRows)
    (hmatch : row.matchesWord w = true) (why : IllegalReason) : decodeWord w ≠ .illegal why := by
  obtain ⟨hmask, hresv, hkind⟩ := immediateRows_fields row hrow
  rw [matchesWord_iff, hmask] at hmatch
  obtain ⟨hopc', hrm', hresv'⟩ := fields_of_immediate_mask hmatch
  intro hw
  have hlist := (decodeWord_illegal_iff w).1 ⟨why, hw⟩
  omega

/-- Settles O4: a legal word is the encoding of its command, which lies in the command's row, and rows are disjoint;
every word of a row is legal. -/
theorem legalWordsMatchExactlyOneTableRow : Obligations.LegalWordsMatchExactlyOneTableRow := by
  refine fun w => ⟨fun i h => ?_, fun why h => List.filter_eq_nil_iff.2 fun row hrow hmatch => ?_⟩
  · obtain ⟨row, hrow, hname, hmatch⟩ := encode_in_own_row i (wellFormed_of_decodeWord h)
    rw [encode_of_decodeWord h] at hmatch
    exact ⟨row, filter_matches_eq_singleton hrow hmatch, hname⟩
  · rcases List.mem_append.1 hrow with hfixed | himm
    · exact not_illegal_of_fixedRow hfixed hmatch why h
    · exact not_illegal_of_immediateRow himm hmatch why h

/-- Settles O5: each word's fields, written out, are those of its command. -/
theorem sampleWordsDecode : Obligations.SampleWordsDecode := by
  unfold Obligations.SampleWordsDecode
  decide

end Sys2Proof
end

section
/-!
PROOFS. `EXEC`: issue, a `WAIT` that polls until the command in flight completes, and the command's result (O17).
-/
namespace Sys2Proof.Machine

/-- A run that ends in a next state starts with a step that answers one. -/
theorem step_of_run_succ {k : Nat} {s t : State} (h : Host.Core.run core (k + 1) s = .next t) :
    ∃ u, step s = .next u ∧ Host.Core.run core k u = .next t := by
  simp only [Host.Core.run] at h
  split at h
  · exact ⟨_, ‹_›, h⟩
  · cases h
  · cases h

theorem run_add_of_next {k m : Nat} {s t : State} (h : Host.Core.run core k s = .next t) :
    Host.Core.run core (k + m) s = Host.Core.run core m t := by
  induction k generalizing s with
  | zero => cases h; rw [Nat.zero_add]
  | succ k ih =>
    obtain ⟨u, hs, hrun⟩ := step_of_run_succ h
    rw [Nat.succ_add, run_succ_of_next hs]
    exact ih hrun

theorem hostSlot_of_waitDone {s : State} {rest : List HostOp} (hp : s.program = .waitDone :: rest) :
    hostSlot s = .next (pollDone rest s) := by
  rw [hostSlot, hp]

/-- A poll of `WAIT` while the command in flight waits: a word is received, a slot passes, the host stays in its loop
(30_encoding.md R80, 70_reset_and_hazards.md R258). -/
theorem step_of_polling {s : State} {rest : List HostOp} (f : InFlight) (n : Nat)
    (hp : s.program = .waitDone :: rest) (hdone : s.status.done = false) :
    step (s.tick f (n + 1)) = .next ((s.receive s.status.word).tick f n) := by
  have hslot : step (s.tick f (n + 1)) = hostSlot (s.tick f n) :=
    step_of_waiting (f := { f with wait := n + 1 }) rfl rfl
  rw [hslot, hostSlot_of_waitDone (s := s.tick f n) hp, pollDone_of_not_done (s := s.tick f n) hdone]
  rfl

/-- `WAIT` polls through all the waiting slots of the command in flight, and only receives words. -/
theorem run_polling {s : State} {rest : List HostOp} (f : InFlight) (n : Nat)
    (hp : s.program = .waitDone :: rest) (hdone : s.status.done = false) :
    ∃ words, Host.Core.run core n (s.tick f n) = .next { s.tick f 0 with received := words } := by
  induction n generalizing s with
  | zero => exact ⟨s.received, rfl⟩
  | succ n ih =>
    rw [run_succ_of_next (step_of_polling f n hp hdone)]
    exact ih hp hdone

/-- The last poll of `WAIT`: the final `STATUS` is received and the host goes on. -/
theorem step_of_last_poll {s : State} {rest : List HostOp} (hidle : s.inFlight = none)
    (hp : s.program = .waitDone :: rest) (hdone : s.status.done = true) :
    step s = .next ((s.setProgram rest).receive s.status.word) := by
  rw [step_of_idle hidle, hostSlot_of_waitDone hp, pollDone_of_done hdone]

/-- A `CMD` write in an idle core issues its word. -/
theorem step_of_issue {s : State} {v : Word} {rest : List HostOp} (hp : s.program = opWr .cmd v :: rest)
    (hflight : s.inFlight = none) (hidle : s.status.busy = false) : step s = .next ((s.setProgram rest).issue v) := by
  have hdrop : isDropped (s.setProgram rest) .cmd = false := isDropped_of_idle hidle _
  rw [step_of_idle hflight, hostSlot_of_write hp, busWrite_rowAddress hdrop, writeRow_of_not_dropped hdrop]
  rfl

/-- The state in which the word `w`, issued by `EXEC`, runs: `WAIT` has polled and received `words`. -/
def State.polled (w : Word) (rest : List HostOp) (words : List Word) (s : State) : State :=
  { s.placeCommand w with program := .waitDone :: rest, received := words }

/-- `EXEC` from an idle core up to the turn on which its word runs: the issue, and a poll for each waiting slot. -/
theorem run_issue_then_polls {s : State} {w : Word} {rest : List HostOp}
    (hp : s.program = opWr .cmd w :: .waitDone :: rest) (hflight : s.inFlight = none)
    (hidle : s.status.busy = false) :
    ∃ words, Host.Core.run core (Config.lat w s.a s.b s.r + 1) s = .next (s.polled w rest words) := by
  rw [run_succ_of_next (step_of_issue hp hflight hidle)]
  exact run_polling (s := (s.setProgram (.waitDone :: rest)).issue w) ⟨w, s.a, s.b, 0⟩ _ rfl rfl

/-- The command runs from there as it does from the state where its word is only placed: the host's side is no
operand. -/
theorem exec_polled {i : Instr} {s u v : State} {w : Word} {rest : List HostOp} {words : List Word}
    (hu : exec i (s.placeCommand w) = .next u) (hv : exec i (s.polled w rest words) = .next v) :
    RegistersAgree v u ∧ v.cmd = u.cmd ∧ v.program = .waitDone :: rest := by
  have hframe := (commandEffect_of_exec hv).frame
  have hagree : RegistersAgree (s.polled w rest words) (s.placeCommand w) := ⟨rfl, rfl, rfl, rfl⟩
  exact ⟨hagree.exec rfl rfl hv hu, hframe.command.trans (commandEffect_of_exec hu).frame.command.symm,
    hframe.hostProgram⟩

/-- Settles O17: after the issue `WAIT` polls until the slots have passed, the command then runs on the operands it
sampled, and one more poll ends the loop. -/
theorem execThenWaitGivesTheCommandsResult : Obligations.ExecThenWaitGivesTheCommandsResult := by
  intro s i rest hwf hp hflight hidle
  obtain ⟨words, hpolls⟩ := run_issue_then_polls (rest := rest) hp hflight hidle
  obtain ⟨u, hu, -⟩ := exec_completes i (s.placeCommand (encode i))
  obtain ⟨v, hv, hvflight, -, hvdone, -⟩ := exec_completes i (s.polled (encode i) rest words)
  obtain ⟨⟨ha, hb, hr, hst⟩, hcmd, hvp⟩ := exec_polled hu hv
  have hruns : step (s.polled (encode i) rest words) = .next v := by
    rw [step_of_ready (f := ⟨encode i, s.a, s.b, 0⟩) rfl rfl, runWord_of_legal (decodeWord_encode hwf), hv]
  refine ⟨(v.setProgram rest).receive v.status.word, u, ?_, hu, ha, hb, hr, hcmd, hst, hvflight, rfl, rfl⟩
  calc Host.Core.run core (Config.lat (encode i) s.a s.b s.r + 3) s
      = Host.Core.run core 2 (s.polled (encode i) rest words) := run_add_of_next (m := 2) hpolls
    _ = Host.Core.run core 1 v := run_succ_of_next hruns
    _ = .next ((v.setProgram rest).receive v.status.word) :=
      (run_one v).trans (step_of_last_poll hvflight hvp hvdone)

end Sys2Proof.Machine
end

section
/-!
PROOFS. The value commands and the moves, and what the one-operand commands share (O26, O31 to O34).
-/
namespace Sys2Proof.Machine

/-! ### How a command that reads `A` alone completes (40_value_ops.md R100, R101, R105) -/

theorem succeedsWith_succeed (s : State) (v : PackedBits) : SucceedsWith s v (s.succeed v) := by
  constructor <;> rfl

theorem completesWith_of_withA {i : Instr} {op : PackedBits → Ending} {s : State} {v : PackedBits}
    (hx : exec i s = withA op s) (hA : isValid s.opA = true) (hop : op s.opA = .succeed v) :
    CompletesWith i s v :=
  ⟨s.succeed v, by rw [hx, withA_of_valid hA, hop, finish_succeed], succeedsWith_succeed s v⟩

theorem reportsError_of_withA {i : Instr} {op : PackedBits → Ending} {s : State} {e : ErrorCode}
    (hx : exec i s = withA op s) (hA : isValid s.opA = true) (hop : op s.opA = .raise e) : ReportsError i s e :=
  ⟨s.raise e, by rw [hx, withA_of_valid hA, hop, finish_raise], endsInError_raise s e⟩

theorem reportsInvalidA_of_withA {i : Instr} {op : PackedBits → Ending} {s : State}
    (hx : exec i s = withA op s) (hA : isValid s.opA = false) : ReportsError i s .invalidA :=
  ⟨s.raise .invalidA, hx.trans (withA_of_invalid hA), endsInError_raise s .invalidA⟩

/-- The word and the `INVALID_A` check of a command whose meaning is an operation on `A`. -/
theorem oneOperandRule_of_withA {i : Instr} {op : PackedBits → Ending} {word : Nat} {s : State}
    (hx : exec i s = withA op s) (hwf : i.WellFormed)
    (hword : word = i.immCode * 2 ^ 8 + i.rmCode * 2 ^ 5 + i.opcode) : OneOperandRule i word s := by
  refine ⟨?_, reportsInvalidA_of_withA hx⟩
  rw [hword]
  exact decodeWord_encode hwf

/-! ### The one-operand commands and `B` (40_value_ops.md R105) -/

/-- `op` is the meaning of the one-operand command `i`: of a valid `A` it makes a valid result, but for a SETSCALE to a
scale out of range (40_value_ops.md R104, R105). -/
structure OneOperandMeaning (i : Instr) (op : PackedBits → Ending) : Prop where
  meaning : ∀ s, exec i s = withA op s
  ends : ∀ a, isValid a = true → (∃ v, isValid v = true ∧ op a = .succeed v) ∨
    ((∃ imm, i = .setscale imm ∧ 28 < imm) ∧ op a = .raise .scaleOutOfRange)

theorem oneOperandMeaning_of_reads {i : Instr} (hA : i.readsA = true) (hB : i.readsB = false) :
    ∃ op, OneOperandMeaning i op := by
  cases i with
  | rescale n => exact ⟨_, exec_rescale n, fun _ ha => .inl (rescaleValue_ends ha n)⟩
  | roundRne n => exact ⟨_, exec_roundRne n, fun _ ha => .inl (roundValue_ends ha _ n)⟩
  | roundRhaz n => exact ⟨_, exec_roundRhaz n, fun _ ha => .inl (roundValue_ends ha _ n)⟩
  | roundRhtz n => exact ⟨_, exec_roundRhtz n, fun _ ha => .inl (roundValue_ends ha _ n)⟩
  | roundRtz n => exact ⟨_, exec_roundRtz n, fun _ ha => .inl (roundValue_ends ha _ n)⟩
  | roundRaz n => exact ⟨_, exec_roundRaz n, fun _ ha => .inl (roundValue_ends ha _ n)⟩
  | roundRfloor n => exact ⟨_, exec_roundRfloor n, fun _ ha => .inl (roundValue_ends ha _ n)⟩
  | roundRceil n => exact ⟨_, exec_roundRceil n, fun _ ha => .inl (roundValue_ends ha _ n)⟩
  | norm => exact ⟨_, exec_norm, fun _ ha => .inl (normValue_ends ha)⟩
  | trunc => exact ⟨_, exec_trunc, fun a _ => .inl ⟨_, isValid_truncOf a, rfl⟩⟩
  | fract => exact ⟨_, exec_fract, fun _ ha => .inl (fractValue_ends ha)⟩
  | floor => exact ⟨_, exec_floor, fun a _ => .inl (floorValue_ends a)⟩
  | ceil => exact ⟨_, exec_ceil, fun a _ => .inl (ceilValue_ends a)⟩
  | neg => exact ⟨_, exec_neg, fun _ ha => .inl (negValue_ends ha)⟩
  | abs => exact ⟨_, exec_abs, fun _ ha => .inl (absValue_ends ha)⟩
  | setscale n =>
    exact ⟨_, exec_setscale n, fun a _ => (setscaleValue_ends a n).imp_right fun ⟨hn, hop⟩ => ⟨⟨n, rfl, hn⟩, hop⟩⟩
  | add | sub | mul | div | rem | cmp => cases hB
  | movra | movrb => cases hA

/-- One ending leaves the same result and report in states that agree on both (40_value_ops.md R101,
60_exceptions.md R222). -/
theorem finish_result_report {s s' t t' : State} {e : Ending} (hr : s.r = s'.r) (hst : s.status = s'.status)
    (ht : s.finish e = .next t) (ht' : s'.finish e = .next t') : t.r = t'.r ∧ t.status = t'.status := by
  cases e with
  | succeed v => cases ht; cases ht'; simp [hst]
  | compared c => cases ht; cases ht'; simp [hr, hst]
  | raise c => cases ht; cases ht'; simp [hr, hst]
  | internalDivZero => cases ht

/-- An error is on report only when the ending raised it. -/
theorem ending_of_ecode {s t : State} {e : Ending} {c : ErrorCode} (ht : s.finish e = .next t) (hc : c ≠ .none)
    (h : t.status.ecode = c) : e = .raise c := by
  cases e with
  | succeed v => cases ht; exact absurd h.symm hc
  | compared c' => cases ht; exact absurd h.symm hc
  | raise c' => cases ht; exact congrArg _ h
  | internalDivZero => cases ht

theorem OneOperandMeaning.not_invalidB {i : Instr} {op : PackedBits → Ending} (h : OneOperandMeaning i op)
    (a : PackedBits) : (if isValid a then op a else .raise .invalidA) ≠ .raise .invalidB := by
  split
  next ha => rcases h.ends a ha with ⟨v, -, hop⟩ | ⟨-, hop⟩ <;> simp [hop]
  next => simp

/-- Settles O26: the ending of a one-operand command is a function of `A` alone, and it never raises `INVALID_B`. -/
theorem oneOperandCommandsIgnoreB : Obligations.OneOperandCommandsIgnoreB := by
  intro i s s' t t' hreadsA hreadsB hA hr hst ht ht'
  obtain ⟨op, hop⟩ := oneOperandMeaning_of_reads hreadsA hreadsB
  rw [hop.meaning, withA_eq_finish] at ht ht'
  rw [← hA] at ht'
  obtain ⟨hresult, hreport⟩ := finish_result_report hr hst ht ht'
  exact ⟨hresult, hreport, fun h => hop.not_invalidB s.opA (ending_of_ecode ht (by decide) h)⟩

/-! ### NEG, ABS and SETSCALE (40_value_ops.md R102 to R104) -/

theorem valOf_pack_not_sign (x : PackedBits) :
    valOf (pack (!signOf x) (scaleOf x) (mantOf x)) = -valOf x := by
  rw [valOf_pack (Nat.le_of_lt_succ (scaleOf_lt x)) (mantOf_le x), valOf]
  cases signOf x <;> simp [neg_div]

theorem valOf_pack_positive (x : PackedBits) : valOf (pack false (scaleOf x) (mantOf x)) = |valOf x| := by
  rw [valOf_pack (Nat.le_of_lt_succ (scaleOf_lt x)) (mantOf_le x), valOf]
  cases signOf x <;> simp [abs_div]

/-- Settles O31: NEG packs the fields of `A` with the other sign, and that sign alone negates the value. -/
theorem negFlipsTheSign : Obligations.NegFlipsTheSign := fun s =>
  ⟨oneOperandRule_of_withA (exec_neg s) rfl rfl, fun hA =>
    ⟨completesWith_of_withA (exec_neg s) hA rfl, valOf_pack_not_sign s.opA⟩⟩

/-- Settles O32: ABS packs the fields of `A` with a positive sign, which gives the absolute value. -/
theorem absClearsTheSign : Obligations.AbsClearsTheSign := fun s =>
  ⟨oneOperandRule_of_withA (exec_abs s) rfl rfl, fun hA =>
    ⟨completesWith_of_withA (exec_abs s) hA rfl, valOf_pack_positive s.opA⟩⟩

theorem setscaleValue_of_le {imm : Nat} (h : imm ≤ 28) (a : PackedBits) :
    setscaleValue imm a = .succeed (pack (signOf a) imm (mantOf a)) := if_neg (Nat.not_lt.2 h)

theorem setscaleValue_of_gt {imm : Nat} (h : 28 < imm) (a : PackedBits) :
    setscaleValue imm a = .raise .scaleOutOfRange := if_pos h

/-- Settles O33: the immediate is compared with the largest scale before it replaces the scale field. -/
theorem setscaleReplacesTheScale : Obligations.SetscaleReplacesTheScale := by
  intro s imm himm
  have hword : imm * 2 ^ 8 + 0x10 =
      (Instr.setscale imm).immCode * 2 ^ 8 + (Instr.setscale imm).rmCode * 2 ^ 5 + (Instr.setscale imm).opcode := by
    simp [Instr.immCode, Instr.imm?, Instr.rmCode, Instr.mode?, Instr.opcode]
  refine ⟨oneOperandRule_of_withA (exec_setscale imm s) (wellFormed_of_immCode_le himm) hword,
    fun hA => ⟨fun h => ?_, fun h => ?_⟩⟩
  · exact completesWith_of_withA (exec_setscale imm s) hA (setscaleValue_of_le h s.opA)
  · exact reportsError_of_withA (exec_setscale imm s) hA (setscaleValue_of_gt h s.opA)

/-! ### The register moves (40_value_ops.md R106, R107) -/

/-- Settles O34: the words of the moves, and the registers after each. -/
theorem movesCopyTheResult : Obligations.MovesCopyTheResult := by
  refine ⟨decodeWord_encode (i := .movra) rfl, decodeWord_encode (i := .movrb) rfl, fun s => ⟨?_, ?_⟩⟩
  · exact ⟨_, exec_movra s, rfl, rfl, rfl, rfl, rfl, rfl⟩
  · exact ⟨_, exec_movrb s, rfl, rfl, rfl, rfl, rfl, rfl⟩

end Sys2Proof.Machine
end

section
/-!
PROOFS. The limb units answer exactly the arithmetic on values that 41_limb_units.md R120 to R132 and R145 give them:
adder and subtractor (O54, O55), multipliers (O56), dividers (O57), comparator, zero test and fit check (O58),
shifters (O59).
-/
namespace Sys2Proof.Machine

/-! ### An array and what left it, from their exact total -/

/-- An array and the part carried out of it determine each other from the exact total: remainder and quotient by the
array's range. -/
theorem limbsValue_eq_mod_and_carry_eq_div {zs : Limbs} {n c total : Nat} (hlen : zs.length = n)
    (h : limbsValue zs + 2 ^ (32 * n) * c = total) :
    limbsValue zs = total % 2 ^ (32 * n) ∧ c = total / 2 ^ (32 * n) := by
  obtain ⟨hdiv, hmod⟩ := (Nat.div_mod_unique (Nat.two_pow_pos (32 * n))).2 ⟨h, hlen ▸ limbsValue_lt zs⟩
  exact ⟨hmod.symm, hdiv.symm⟩

/-- The range of the longer array bounds both. -/
theorem limbsValue_lt_of_length_le {ys : Limbs} {n : Nat} (h : ys.length ≤ n) : limbsValue ys < 2 ^ (32 * n) :=
  (limbsValue_lt ys).trans_le (Nat.pow_le_pow_right (by omega) (by omega))

/-! ### Adder and subtractor (41_limb_units.md R123, R124) -/

/-- Settles O54: sum and carry add up to the exact sum, which is below twice the array's range. -/
theorem adderAddsWithCarry : Obligations.AdderAddsWithCarry := by
  intro xs ys h
  have hlen := length_addLimbs xs ys
  obtain ⟨hval, hcarry⟩ := limbsValue_eq_mod_and_carry_eq_div hlen (addLimbs_value h)
  have hx := limbsValue_lt xs
  have hy := limbsValue_lt_of_length_le h
  refine ⟨hlen, hval, hcarry.trans ?_⟩
  split
  next hover => exact Nat.div_eq_of_lt_le (by omega) (by omega)
  next hfit => exact Nat.div_eq_of_lt (by omega)

/-- Settles O55: difference and subtrahend add up to the minuend, or to the minuend and the array's range when a limb
is borrowed. -/
theorem subtractorSubtractsWithBorrow : Obligations.SubtractorSubtractsWithBorrow := by
  intro xs ys h
  have hlen := length_subLimbs xs ys
  obtain ⟨hval, hborrow⟩ := subLimbs_value h
  have hd := limbsValue_lt (subLimbs xs ys).1
  rw [hlen] at hd
  have hx := limbsValue_lt xs
  refine ⟨hlen, ?_, ?_⟩
  · have hdiff : (limbsValue xs : ℤ) - limbsValue ys =
        limbsValue (subLimbs xs ys).1 - 2 ^ (32 * xs.length) * (subLimbs xs ys).2 := by
      have : (limbsValue (subLimbs xs ys).1 + limbsValue ys : ℤ) =
          limbsValue xs + 2 ^ (32 * xs.length) * (subLimbs xs ys).2 := by exact_mod_cast hval
      omega
    rw [hdiff, Int.sub_mul_emod_self_left, Int.emod_eq_of_lt (by omega) (by exact_mod_cast hd)]
  · obtain hb | hb : (subLimbs xs ys).2 = 0 ∨ (subLimbs xs ys).2 = 1 := by omega
    · rw [hb] at hval ⊢
      rw [if_neg (by omega)]
    · rw [hb] at hval ⊢
      rw [if_pos (by omega)]

/-! ### Multipliers (41_limb_units.md R125, R126, R145) -/

/-- `mul_by_small` and its overflow limb (41_limb_units.md R125). -/
theorem mulBySmall_spec (xs : Limbs) (k : Word) :
    (mulBySmall xs k).1.length = xs.length ∧
    limbsValue (mulBySmall xs k).1 = limbsValue xs * k.toNat % 2 ^ (32 * xs.length) ∧
    (mulBySmall xs k).2 = limbsValue xs * k.toNat / 2 ^ (32 * xs.length) ∧ (mulBySmall xs k).2 < 2 ^ 32 := by
  have hlen := length_mulBySmall xs k
  obtain ⟨hval, hover⟩ := limbsValue_eq_mod_and_carry_eq_div hlen (mulBySmall_value xs k)
  refine ⟨hlen, hval, hover, hover ▸ Nat.div_lt_of_lt_mul ?_⟩
  exact Nat.mul_lt_mul'' (limbsValue_lt xs) k.isLt

/-- Doubling with a bit shifted in is the multiplication by the limb 2 with that bit carried in
(41_limb_units.md R145). -/
theorem shiftLeftFrom_eq_mulSmallFrom (xs : Limbs) : ∀ c, shiftLeftFrom xs c = mulSmallFrom xs 2 c := by
  induction xs with
  | nil => intro c; rfl
  | cons x xs ih => intro c; simp [shiftLeftFrom, mulSmallFrom, ih, mul_comm]

theorem shiftLeft1_eq_mulBySmall (xs : Limbs) : shiftLeft1 xs = mulBySmall xs 2 :=
  shiftLeftFrom_eq_mulSmallFrom xs 0

/-- A limb times a limb, plus a limb and a carry, carries at most one limb (41_limb_units.md R126). -/
theorem limb_product_carry_lt {x y p c : Nat} (hx : x < 2 ^ 32) (hy : y < 2 ^ 32) (hp : p < 2 ^ 32)
    (hc : c < 2 ^ 32) : (x * y + p + c) / 2 ^ 32 < 2 ^ 32 := by
  have hxy : x * y ≤ (2 ^ 32 - 1) * (2 ^ 32 - 1) := Nat.mul_le_mul (by omega) (by omega)
  omega

theorem length_mulRow (x : Word) (ys : Limbs) : ∀ ps c, (mulRow x ys ps c).length = ps.length := by
  induction ys with
  | nil => intro ps c; cases ps <;> rfl
  | cons y ys ih =>
    intro ps c
    cases ps with
    | nil => rfl
    | cons p ps => simp [mulRow, ih]

/-- A row of the long multiplication, on an accumulator whose limbs above those of `Y` are still zero
(41_limb_units.md R126). -/
theorem mulRow_value (x : Word) (ys : Limbs) : ∀ ps c, ys.length < ps.length →
    limbsValue ps < 2 ^ (32 * ys.length) → c < 2 ^ 32 →
    limbsValue (mulRow x ys ps c) = x.toNat * limbsValue ys + limbsValue ps + c := by
  induction ys with
  | nil =>
    intro ps c hlen hps hc
    cases ps with
    | nil => simp at hlen
    | cons p ps =>
      simp only [limbsValue_cons, List.length_nil] at hps
      simp only [mulRow, limbsValue_cons, limbsValue_nil, BitVec.toNat_ofNat]
      omega
  | cons y ys ih =>
    intro ps c hlen hps hc
    cases ps with
    | nil => simp at hlen
    | cons p ps =>
      rw [limbsValue_cons, List.length_cons, two_pow_limbs_succ] at hps
      have hrest := ih ps ((x.toNat * y.toNat + p.toNat + c) / 2 ^ 32) (by simpa using hlen) (by omega)
        (limb_product_carry_lt x.isLt y.isLt p.isLt hc)
      simp only [mulRow, limbsValue_cons, BitVec.toNat_ofNat, hrest, mul_add, mul_left_comm _ (2 ^ 32)]
      omega

/-- After a row the accumulator fills one limb more than `Y` (41_limb_units.md R126). -/
theorem limb_mul_add_lt (x : Word) {v p w : Nat} (hv : v < w) (hp : p < w) : x.toNat * v + p < 2 ^ 32 * w := by
  have hx : x.toNat + 1 ≤ 2 ^ 32 := x.isLt
  calc x.toNat * v + p < x.toNat * w + w := Nat.add_lt_add_of_le_of_lt (Nat.mul_le_mul_left _ hv.le) hp
    _ = (x.toNat + 1) * w := (Nat.succ_mul _ _).symm
    _ ≤ 2 ^ 32 * w := Nat.mul_le_mul_right w hx

/-- The rows of the long multiplication add the product to the accumulator (41_limb_units.md R126). -/
theorem mulRows_spec (ys : Limbs) (xs : Limbs) : ∀ ps, xs.length + ys.length ≤ ps.length →
    limbsValue ps < 2 ^ (32 * ys.length) →
    (mulRows xs ys ps).length = ps.length ∧
      limbsValue (mulRows xs ys ps) = limbsValue xs * limbsValue ys + limbsValue ps := by
  induction xs with
  | nil => intro ps _ _; simp [mulRows]
  | cons x xs ih =>
    intro ps hlen hps
    rw [List.length_cons] at hlen
    have hrowlen := length_mulRow x ys ps 0
    have hrow := mulRow_value x ys ps 0 (by omega) hps (by norm_num)
    have hbound := limb_mul_add_lt x (limbsValue_lt ys) hps
    rw [mulRows]
    cases hm : mulRow x ys ps 0 with
    | nil => rw [hm, List.length_nil] at hrowlen; omega
    | cons p rest =>
      rw [hm, List.length_cons] at hrowlen
      rw [hm, limbsValue_cons] at hrow
      obtain ⟨hl, hv⟩ := ih rest (by omega) (by omega)
      refine ⟨by rw [List.length_cons, hl, hrowlen], ?_⟩
      rw [limbsValue_cons, limbsValue_cons, hv, add_mul, mul_assoc]
      omega

/-- `mul96x96` (41_limb_units.md R126). -/
theorem mul96x96_spec {xs ys : Limbs} (hx : xs.length = 3) (hy : ys.length = 3) :
    (mul96x96 xs ys).length = 6 ∧ limbsValue (mul96x96 xs ys) = limbsValue xs * limbsValue ys := by
  have hzero : limbsValue (List.replicate 6 0) = 0 := limbsValue_append_zeros [] 6
  have hspec := mulRows_spec ys xs (List.replicate 6 0) (by simp [hx, hy])
    (hzero ▸ Nat.two_pow_pos _)
  rwa [List.length_replicate, hzero] at hspec

/-- Settles O56: the small multiplier's exact total, the rows of the long multiplication, and doubling as the small
multiplication by 2. -/
theorem multipliersAreExact : Obligations.MultipliersAreExact := by
  refine ⟨mulBySmall_spec, fun _ _ => mul96x96_spec, fun xs => ?_⟩
  obtain ⟨hlen, hval, hout, -⟩ := mulBySmall_spec xs 2
  rw [shiftLeft1_eq_mulBySmall, mul_comm 2]
  exact ⟨hlen, hval, hout⟩

/-! ### Dividers (41_limb_units.md R127, R128) -/

theorem length_divSmallFrom (k : Word) (xs : Limbs) : (divSmallFrom k xs).1.length = xs.length := by
  induction xs with
  | nil => rfl
  | cons x xs ih => simp [divSmallFrom, ih]

/-- One limb of the quotient: what the remainder above and the limb below give fits a limb. -/
theorem limb_quotient_lt {r x k : Nat} (hr : r < k) (hx : x < 2 ^ 32) : (r * 2 ^ 32 + x) / k < 2 ^ 32 := by
  refine Nat.div_lt_of_lt_mul ?_
  have : (r + 1) * 2 ^ 32 ≤ k * 2 ^ 32 := Nat.mul_le_mul_right _ hr
  omega

/-- The quotient times the divisor and the remainder add up to the dividend (41_limb_units.md R127). -/
theorem divSmallFrom_value {k : Word} (hk : 0 < k.toNat) (xs : Limbs) :
    (divSmallFrom k xs).2 + k.toNat * limbsValue (divSmallFrom k xs).1 = limbsValue xs ∧
      (divSmallFrom k xs).2 < k.toNat := by
  induction xs with
  | nil => simpa [divSmallFrom] using hk
  | cons x xs ih =>
    obtain ⟨hval, hrem⟩ := ih
    have hlimb := limb_quotient_lt hrem x.isLt
    have hdiv := Nat.mod_add_div ((divSmallFrom k xs).2 * 2 ^ 32 + x.toNat) k.toNat
    refine ⟨?_, Nat.mod_lt _ hk⟩
    simp only [divSmallFrom, limbsValue_cons, BitVec.toNat_ofNat, Nat.mod_eq_of_lt hlimb, mul_add,
      mul_left_comm _ (2 ^ 32)]
    omega

/-- `div_by_small` by a nonzero limb (41_limb_units.md R127). -/
theorem divSmallFrom_spec {k : Word} (hk : 0 < k.toNat) (xs : Limbs) :
    limbsValue (divSmallFrom k xs).1 = limbsValue xs / k.toNat ∧
      (divSmallFrom k xs).2 = limbsValue xs % k.toNat := by
  obtain ⟨hdiv, hmod⟩ := (Nat.div_mod_unique hk).2 (divSmallFrom_value hk xs)
  exact ⟨hdiv.symm, hmod.symm⟩

@[simp] theorem length_limbsOf (n : Nat) : ∀ v, (limbsOf n v).length = n := by
  induction n with
  | zero => intro v; rfl
  | succ n ih => intro v; simp [limbsOf, ih]

theorem limbsValue_limbsOf (n : Nat) : ∀ v, limbsValue (limbsOf n v) = v % 2 ^ (32 * n) := by
  induction n with
  | zero => intro v; simp [limbsOf, Nat.mod_one]
  | succ n ih =>
    intro v
    rw [limbsOf, limbsValue_cons, ih, BitVec.toNat_ofNat, two_pow_limbs_succ, Nat.mod_mul]

theorem limbsValue_limbsOf_of_lt {n v : Nat} (h : v < 2 ^ (32 * n)) : limbsValue (limbsOf n v) = v := by
  rw [limbsValue_limbsOf, Nat.mod_eq_of_lt h]

theorem divBySmall_zero (xs : Limbs) : divBySmall xs 0 = none := if_pos rfl

theorem divBySmall_of_ne_zero {k : Word} (hk : k ≠ 0) (xs : Limbs) :
    divBySmall xs k = some (divSmallFrom k xs) := if_neg hk

theorem divremLimbs_zero {ds : Limbs} (h : limbsValue ds = 0) (ns : Limbs) : divremLimbs ns ds = none := if_pos h

/-- `divrem` by a divisor of at most three limbs (41_limb_units.md R128): one limb goes through `div_by_small`. -/
theorem divremLimbs_spec (ns : Limbs) {ds : Limbs} (hlen : ds.length ≤ 3) (hd : limbsValue ds ≠ 0) :
    ∃ q r, divremLimbs ns ds = some (q, r) ∧ q.length = ns.length ∧ r.length = 3 ∧
      limbsValue q = limbsValue ns / limbsValue ds ∧ limbsValue r = limbsValue ns % limbsValue ds := by
  have hrem : limbsValue ns % limbsValue ds < 2 ^ (32 * 3) :=
    (Nat.mod_lt _ (Nat.pos_of_ne_zero hd)).trans (limbsValue_lt_of_length_le hlen)
  rw [divremLimbs, if_neg hd]
  split
  next hsmall =>
    have hk : (BitVec.ofNat 32 (limbsValue ds)).toNat = limbsValue ds := by
      rw [BitVec.toNat_ofNat, Nat.mod_eq_of_lt hsmall]
    have hne : BitVec.ofNat 32 (limbsValue ds) ≠ 0 := fun h0 => hd (by rw [← hk, h0]; rfl)
    obtain ⟨hq, hr⟩ := divSmallFrom_spec (hk ▸ Nat.pos_of_ne_zero hd) ns
    rw [hk] at hq hr
    rw [divBySmall_of_ne_zero hne, Option.map_some]
    exact ⟨_, _, rfl, length_divSmallFrom _ ns, length_limbsOf 3 _, hq,
      by rw [hr, limbsValue_limbsOf_of_lt hrem]⟩
  next =>
    have hquot : limbsValue ns / limbsValue ds < 2 ^ (32 * ns.length) :=
      (Nat.div_le_self _ _).trans_lt (limbsValue_lt ns)
    exact ⟨_, _, rfl, length_limbsOf _ _, length_limbsOf 3 _, limbsValue_limbsOf_of_lt hquot,
      limbsValue_limbsOf_of_lt hrem⟩

/-- Settles O57: schoolbook division by one limb, and the division of values above it. -/
theorem dividersAreExact : Obligations.DividersAreExact := by
  refine ⟨fun xs k => ⟨?_, fun hk => ?_⟩, fun ns ds hlen => ⟨fun h => divremLimbs_zero h ns,
    divremLimbs_spec ns hlen⟩⟩
  · rintro rfl
    exact divBySmall_zero xs
  · have hpos : 0 < k.toNat := Nat.pos_of_ne_zero fun h0 => hk (BitVec.eq_of_toNat_eq h0)
    obtain ⟨hq, hr⟩ := divSmallFrom_spec hpos xs
    exact ⟨_, _, divBySmall_of_ne_zero hk xs, length_divSmallFrom k xs, hq, hr⟩

/-! ### Zero test and fit check (41_limb_units.md R121, R132) -/

theorem isAllZero_iff (xs : Limbs) : isAllZero xs = true ↔ limbsValue xs = 0 := by
  induction xs with
  | nil => simp [isAllZero]
  | cons x xs ih =>
    have hx : x = 0 ↔ x.toNat = 0 := BitVec.toNat_eq
    rw [isAllZero, List.all_cons, Bool.and_eq_true, beq_iff_eq, hx, ← isAllZero, ih, limbsValue_cons]
    omega

/-- The limbs below index `n` and those from it up. -/
theorem limbsValue_take_add_drop (xs : Limbs) : ∀ n, n ≤ xs.length →
    limbsValue xs = limbsValue (xs.take n) + 2 ^ (32 * n) * limbsValue (xs.drop n) := by
  induction xs with
  | nil => intro n _; simp
  | cons x xs ih =>
    intro n h
    cases n with
    | zero => simp
    | succ n =>
      rw [List.take_succ_cons, List.drop_succ_cons, limbsValue_cons, limbsValue_cons, two_pow_limbs_succ,
        ih n (by simpa using h)]
      ring

theorem fits96Limbs_iff {xs : Limbs} (h : 3 ≤ xs.length) : fits96Limbs xs = true ↔ limbsValue xs ≤ 2 ^ 96 - 1 := by
  have hsplit := limbsValue_take_add_drop xs 3 h
  have hlow : limbsValue (xs.take 3) < 2 ^ (32 * 3) := limbsValue_lt_of_length_le (List.length_take_le 3 xs)
  rw [fits96Limbs, isAllZero_iff]
  omega

/-- Settles O58: the scan from the top limb, and the zero test on all limbs or on those from index 3 up. -/
theorem comparatorOrdersByValue : Obligations.ComparatorOrdersByValue :=
  ⟨compareLimbs_eq, isAllZero_iff, fun _ => fits96Limbs_iff⟩

/-! ### Shifter down (41_limb_units.md R131) -/

/-- What shifting `xs` down by `k` digits answers when the digits already dropped make up `r` and the next one weighs
`unit`: the quotient by `10^k`, and its remainder added to `r` at that weight (41_limb_units.md R131). -/
structure ShiftsDown (xs : Limbs) (k unit r : Nat) (res : Limbs × Nat) : Prop where
  length : res.1.length = xs.length
  quotient : limbsValue res.1 = limbsValue xs / 10 ^ k
  remainder : res.2 = r + unit * (limbsValue xs % 10 ^ k)

theorem ShiftsDown.zero (xs : Limbs) (unit r : Nat) : ShiftsDown xs 0 unit r (xs, r) :=
  ⟨rfl, by simp, by simp [Nat.mod_one]⟩

/-- One step of the shifter drops up to nine digits (41_limb_units.md R131). -/
theorem divSmallFrom_tenPower_spec (xs : Limbs) {j : Nat} (h : j ≤ 9) :
    limbsValue (divSmallFrom (smallTenPower j) xs).1 = limbsValue xs / 10 ^ j ∧
      (divSmallFrom (smallTenPower j) xs).2 = limbsValue xs % 10 ^ j := by
  have hspec := divSmallFrom_spec (k := smallTenPower j)
    (by rw [toNat_smallTenPower h]; exact Nat.pow_pos (by omega)) xs
  rwa [toNat_smallTenPower h] at hspec

/-- A step of up to nine digits, then the rest. -/
theorem ShiftsDown.step {xs : Limbs} {j k unit r : Nat} {res : Limbs × Nat} (hj : j ≤ 9) (hjk : j ≤ k)
    (h : ShiftsDown (divSmallFrom (smallTenPower j) xs).1 (k - j) (unit * 10 ^ j)
      (r + (divSmallFrom (smallTenPower j) xs).2 * unit) res) : ShiftsDown xs k unit r res := by
  obtain ⟨hlen, hquot, hrem⟩ := h
  obtain ⟨hq, hr⟩ := divSmallFrom_tenPower_spec xs hj
  have hpow : 10 ^ k = 10 ^ j * 10 ^ (k - j) := by rw [← pow_add, Nat.add_sub_cancel' hjk]
  refine ⟨hlen.trans (length_divSmallFrom _ xs), ?_, ?_⟩
  · rw [hquot, hq, Nat.div_div_eq_div_mul, hpow]
  · rw [hrem, hq, hr, hpow, Nat.mod_mul]
    ring

theorem alignDownLoop_shiftsDown : ∀ (fuel : Nat) (xs : Limbs) (k unit r : Nat), k ≤ fuel →
    ShiftsDown xs k unit r (alignDownLoop fuel xs k unit r) := by
  intro fuel
  induction fuel with
  | zero =>
    intro xs k unit r hk
    obtain rfl : k = 0 := by omega
    exact .zero xs unit r
  | succ fuel ih =>
    intro xs k unit r hk
    rw [alignDownLoop]
    split
    next h0 => subst h0; exact .zero xs unit r
    next h0 => exact .step (Nat.min_le_left 9 k) (Nat.min_le_right 9 k) (ih _ _ _ _ (by omega))

/-- The shifter down, from no dropped digits (41_limb_units.md R131). -/
theorem alignDownLimbs_spec (xs : Limbs) (k : Nat) :
    (alignDownLimbs xs k).1.length = xs.length ∧
    limbsValue (alignDownLimbs xs k).1 = limbsValue xs / 10 ^ k ∧
    (alignDownLimbs xs k).2 = limbsValue xs % 10 ^ k := by
  obtain ⟨hlen, hquot, hrem⟩ := alignDownLoop_shiftsDown k xs k 1 0 le_rfl
  exact ⟨hlen, hquot, hrem.trans (by rw [Nat.zero_add, Nat.one_mul])⟩

/-- Settles O59: each loop shifts by its digits nine at a time. -/
theorem shiftersScaleByPowersOfTen : Obligations.ShiftersScaleByPowersOfTen :=
  ⟨fun _ k h => alignUpLimbs_spec h k, alignDownLimbs_spec⟩

end Sys2Proof.Machine
end

section
/-!
PROOFS. ADD, SUB, MUL, DIV and REM (O35 to O42).
-/
namespace Sys2Proof.Machine

/-! ### How a command that reads `A` and `B` completes (40_value_ops.md R100, R101) -/

section
variable {i : Instr} {op : PackedBits → PackedBits → Ending} {s : State}

theorem completesWith_of_withAB {v : PackedBits} (hx : exec i s = withAB op s) (hv : s.ValidAB)
    (hop : op s.opA s.opB = .succeed v) : CompletesWith i s v :=
  ⟨s.succeed v, by rw [hx, withAB_of_valid hv.1 hv.2, hop, finish_succeed], succeedsWith_succeed s v⟩

theorem reportsError_of_withAB {e : ErrorCode} (hx : exec i s = withAB op s) (hv : s.ValidAB)
    (hop : op s.opA s.opB = .raise e) : ReportsError i s e :=
  ⟨s.raise e, by rw [hx, withAB_of_valid hv.1 hv.2, hop, finish_raise], endsInError_raise s e⟩

end

/-! ### What the precision reducer and the scale search answer, from what they look for -/

section
variable {rho : Nat → Nat → Nat} {v s k0 : Nat}

/-- The least number of dropped digits that fits is the one the precision reducer drops (41_limb_units.md R143). -/
theorem reduceFit_of_least {k : Nat} (hk0 : k0 ≤ k) (hk : k ≤ s) (hfit : fits96 (rho v (10 ^ k)))
    (hleast : ∀ j, k0 ≤ j → j < k → ¬ fits96 (rho v (10 ^ j))) :
    reduceFit v s rho k0 = some (s - k, rho v (10 ^ k)) := by
  cases h : reduceFit v s rho k0 with
  | none => exact absurd hfit (reduceFit_none h k hk0 hk)
  | some sm =>
    obtain ⟨s', m⟩ := sm
    obtain ⟨j, hj0, -, rfl, rfl, hjfit, hjleast⟩ := reduceFit_some h
    obtain hlt | rfl | hgt := lt_trichotomy j k
    · exact absurd hjfit (hleast j hj0 hlt)
    · rfl
    · exact absurd hfit (hjleast k hk0 hgt)

/-- Where no number of dropped digits fits, the precision reducer finds none (41_limb_units.md R143). -/
theorem reduceFit_of_none_fits (h : ∀ k, k0 ≤ k → k ≤ s → ¬ fits96 (rho v (10 ^ k))) :
    reduceFit v s rho k0 = none := by
  cases hr : reduceFit v s rho k0 with
  | none => rfl
  | some sm =>
    obtain ⟨k, hk0, hk, -, hm, hfit, -⟩ := reduceFit_some hr
    exact absurd (hm ▸ hfit) (h k hk0 hk)

end

section
variable {quot : Nat → Nat} {lo room : Nat}

/-- The largest scale that fits is the one DIV's search finds (42_arithmetic.md R162). -/
theorem largestFit_of_largest {t : Nat} (hlo : lo ≤ t) (ht : t ≤ lo + room) (hfit : fits96 (quot t))
    (hlargest : ∀ u, t < u → u ≤ lo + room → ¬ fits96 (quot u)) : largestFit quot lo room = some t := by
  cases h : largestFit quot lo room with
  | none => exact absurd hfit (largestFit_none h t hlo ht)
  | some u =>
    obtain ⟨-, hu, hufit, hularge⟩ := largestFit_some h
    obtain hlt | rfl | hgt := lt_trichotomy t u
    · exact absurd hufit (hlargest u hlt hu)
    · rfl
    · exact absurd hfit (hularge t hgt ht)

/-- Where no scale fits, DIV's search finds none (42_arithmetic.md R162). -/
theorem largestFit_of_none_fits (h : ∀ t, lo ≤ t → t ≤ lo + room → ¬ fits96 (quot t)) :
    largestFit quot lo room = none := by
  cases hr : largestFit quot lo room with
  | none => rfl
  | some t =>
    obtain ⟨hlo, ht, hfit, -⟩ := largestFit_some hr
    exact absurd hfit (h t hlo ht)

end

/-! ### Signed magnitudes and values (00_scope.md R14) -/

theorem cast_signedInt (s : Bool) (m : Nat) : (signedInt s m : ℚ) = (if s then -1 else 1) * (m : ℚ) := by
  cases s <;> simp [signedInt]

theorem abs_cast_signedInt (s : Bool) (m : Nat) : |(signedInt s m : ℚ)| = m := by
  cases s <;> simp [signedInt]

theorem signedInt_not (s : Bool) (m : Nat) : signedInt (!s) m = -signedInt s m := by
  cases s <;> simp [signedInt]

theorem signedInt_add (s : Bool) (m n : Nat) : signedInt s (m + n) = signedInt s m + signedInt s n := by
  cases s <;> simp [signedInt, add_comm]

/-- Signs multiply: the second operand's sign cancels against its share of the exclusive or. -/
theorem signedInt_xor_mul (s t : Bool) (m n : Nat) :
    signedInt (xor s t) m * signedInt t n = signedInt s (m * n) := by
  cases s <;> cases t <;> simp [signedInt]

/-- An integer is its magnitude with its own sign, and a zero has either sign. -/
theorem signedInt_natAbs {s : Bool} {z : ℤ} (h : z ≠ 0 → s = decide (z < 0)) : signedInt s z.natAbs = z := by
  by_cases h0 : z = 0
  · simp [h0, signedInt]
  · rw [h h0, signedInt]
    simp only [decide_eq_true_eq]
    split <;> omega

/-- Division with remainder of signed magnitudes: the remainder has the sign of the dividend (42_arithmetic.md R171). -/
theorem signedInt_div_add_mod (sx sy : Bool) (x y : Nat) :
    signedInt sx x = signedInt (xor sx sy) (x / y) * signedInt sy y + signedInt sx (x % y) := by
  rw [signedInt_xor_mul, ← signedInt_add, Nat.div_add_mod']

theorem valOf_pack_eq_signedInt {s : Bool} {e m : Nat} (he : e ≤ 255) (hm : fits96 m) :
    valOf (pack s e m) = signedInt s m / 10 ^ e := by
  rw [valOf_pack he hm, cast_signedInt]

/-- A value at any scale from its own upward (42_arithmetic.md R152). -/
theorem valOf_eq_aligned {x : PackedBits} {scale : Nat} (h : scaleOf x ≤ scale) :
    valOf x = signedInt (signOf x) (alignUp (mantOf x) (scale - scaleOf x)) / 10 ^ scale := by
  have hpow : (10 : ℚ) ^ scale = 10 ^ (scale - scaleOf x) * 10 ^ scaleOf x := by
    rw [← pow_add, Nat.sub_add_cancel h]
  rw [valOf, cast_signedInt, alignUp, hpow]
  push_cast
  field_simp

theorem valOf_eq_alignedLeft (a b : PackedBits) :
    valOf a = signedInt (signOf a) (alignedLeft a b) / 10 ^ commonScale a b :=
  valOf_eq_aligned (Nat.le_max_left _ _)

theorem valOf_eq_alignedRight (a b : PackedBits) :
    valOf b = signedInt (signOf b) (alignedRight a b) / 10 ^ commonScale a b :=
  valOf_eq_aligned (Nat.le_max_right _ _)

theorem valOf_eq_zero_iff {x : PackedBits} : valOf x = 0 ↔ mantOf x = 0 := by
  cases h : signOf x <;> simp [valOf, h]

/-- Moving zeros from the mantissa to the scale keeps the value (41_limb_units.md R133). -/
theorem valOf_pack_strip (s : Bool) {m scale f : Nat} (hf : f ≤ scale) (hscale : scale ≤ 255) (hm : fits96 m) :
    valOf (pack s (strip m scale f).2 (strip m scale f).1) = signedInt s m / 10 ^ scale := by
  obtain ⟨-, hle, hval, -⟩ := strip_spec (m := m) hf
  have hfit := strip_fits hf hm
  have h255 := hle.trans hscale
  rw [valOf_eq_aligned (scale := scale) (by rwa [scaleOf_pack h255 hfit]), signOf_pack h255 hfit,
    mantOf_pack h255 hfit, scaleOf_pack h255 hfit, alignUp, ← hval]

/-! ### ADD and SUB (42_arithmetic.md R150 to R153) -/

/-- ADD and SUB are one operation, which SUB tells to flip the sign of `B` (42_arithmetic.md R154, R155). -/
theorem exec_addsub (nb : Bool) (s : State) :
    exec (if nb then .sub else .add) s = withAB (fun a b => addsub a b nb) s := by
  cases nb <;> rfl

section
variable {a b : PackedBits}

theorem addsub_of_zeros (ha : mantOf a = 0) (hb : mantOf b = 0) (nb : Bool) : addsub a b nb = .succeed b := by
  simp [addsub, ha, hb]

theorem addsub_of_zero_left (ha : mantOf a = 0) : addsub a b false = .succeed b := by
  simp [addsub, ha]

theorem addsub_sub_of_zero_left (ha : mantOf a = 0) (hb : mantOf b ≠ 0) :
    addsub a b true = .succeed (pack (!signOf b) (scaleOf b) (mantOf b)) := by
  simp [addsub, ha, hb]

theorem addsub_of_zero_right (ha : mantOf a ≠ 0) (hb : mantOf b = 0) (nb : Bool) : addsub a b nb = .succeed a := by
  simp [addsub, ha, hb]

end

/-- Settles O35: one short-cut for each way an operand can be zero. -/
theorem addSubShortcutsAZero : Obligations.AddSubShortcutsAZero := by
  intro s hv
  refine ⟨fun ha => ?_, fun ha hb => ?_, fun ha hb => ?_, fun ha hb => ⟨?_, ?_⟩⟩
  · exact completesWith_of_withAB (exec_add s) hv (addsub_of_zero_left ha)
  · exact completesWith_of_withAB (exec_sub s) hv (addsub_sub_of_zero_left ha hb)
  · exact completesWith_of_withAB (exec_sub s) hv (addsub_of_zeros ha hb true)
  · exact completesWith_of_withAB (exec_add s) hv (addsub_of_zero_right ha hb false)
  · exact completesWith_of_withAB (exec_sub s) hv (addsub_of_zero_right ha hb true)

/-- Sign resolution computes the signed sum; a zero sum takes the sign of the first operand (42_arithmetic.md R152). -/
theorem signedSum_eq (sa sb : Bool) (x y : Nat) : signedSum sa sb x y =
    (if signedInt sa x + signedInt sb y = 0 then sa else decide (signedInt sa x + signedInt sb y < 0),
      (signedInt sa x + signedInt sb y).natAbs) := by
  by_cases hs : sa = sb
  · subst hs
    rw [signedSum, if_pos rfl]
    cases sa <;> simp [signedInt] <;> omega
  · obtain rfl : sb = !sa := Bool.eq_not.2 (Ne.symm hs)
    rw [signedSum, if_neg hs, signedInt_not]
    split
    · cases sa <;> simp [signedInt] <;> omega
    · cases sa <;> simp [signedInt] <;> omega

/-- The exact sum of ADD (`nb` false) or SUB (`nb` true), in units of the common scale (42_arithmetic.md R152). -/
def exactSum (a b : PackedBits) (nb : Bool) : ℤ :=
  signedInt (signOf a) (alignedLeft a b) + signedInt (xor (signOf b) nb) (alignedRight a b)

/-- The sign of the result: that of the exact sum, and of `a` when the sum is zero (42_arithmetic.md R152). -/
def exactSumSign (a b : PackedBits) (nb : Bool) : Bool :=
  if exactSum a b nb = 0 then signOf a else decide (exactSum a b nb < 0)

theorem addsub_of_nonzero {a b : PackedBits} (ha : mantOf a ≠ 0) (hb : mantOf b ≠ 0) (nb : Bool) :
    addsub a b nb = endReduced (exactSumSign a b nb)
      (reduceFit (exactSum a b nb).natAbs (commonScale a b) rne 0) := by
  simp only [addsub, if_neg ha, if_neg hb, signedSum_eq]
  rfl

/-- Settles O36: the precision reducer drops the least number of digits of the exact sum that fits, or none fits. -/
theorem addSubRoundsTheExactSum : Obligations.AddSubRoundsTheExactSum := by
  intro s nb hv ha hb i scale z
  have hop := addsub_of_nonzero ha hb nb
  refine ⟨fun hnone => ?_, fun k hk hfit hleast => ?_⟩
  · have hred : reduceFit z.natAbs scale rne 0 = none := reduceFit_of_none_fits fun k _ hk => hnone k hk
    exact reportsError_of_withAB (exec_addsub nb s) hv (hop.trans (congrArg (endReduced _) hred))
  · have hred := reduceFit_of_least (Nat.zero_le k) hk hfit fun j _ hj => hleast j hj
    exact completesWith_of_withAB (exec_addsub nb s) hv (hop.trans (congrArg (endReduced _) hred))

theorem signedInt_exactSum (a b : PackedBits) (nb : Bool) :
    signedInt (exactSumSign a b nb) (exactSum a b nb).natAbs = exactSum a b nb :=
  signedInt_natAbs fun h0 => if_neg h0

/-- The exact sum has the value of the sum or difference of the operands (42_arithmetic.md R152). -/
theorem exactSum_div_pow (a b : PackedBits) (nb : Bool) :
    (exactSum a b nb : ℚ) / 10 ^ commonScale a b = valOf a + (if nb then -1 else 1) * valOf b := by
  rw [valOf_eq_alignedLeft a b, valOf_eq_alignedRight a b, exactSum]
  cases nb
  · simp [add_div]
  · simp [signedInt_not, neg_div, add_div]

/-- An exact sum that fits at the common scale is the result as it stands (42_arithmetic.md R153). -/
theorem addsub_exact_of_nonzero {a b : PackedBits} (hva : isValid a = true) (hvb : isValid b = true)
    (ha : mantOf a ≠ 0) (hb : mantOf b ≠ 0) {nb : Bool} (hfit : fits96 (exactSum a b nb).natAbs) :
    ∃ v, addsub a b nb = .succeed v ∧ valOf v = valOf a + (if nb then -1 else 1) * valOf b := by
  have hscale : commonScale a b ≤ 255 := (commonScale_le hva hvb).trans (by omega)
  have hred : reduceFit (exactSum a b nb).natAbs (commonScale a b) rne 0 =
      some (commonScale a b, (exactSum a b nb).natAbs) := by
    simpa [rne_one] using reduceFit_of_fits (rho := rne) (Nat.zero_le (commonScale a b))
      (by simpa [rne_one] using hfit)
  refine ⟨pack (exactSumSign a b nb) (commonScale a b) (exactSum a b nb).natAbs, ?_, ?_⟩
  · rw [addsub_of_nonzero ha hb, hred]; rfl
  · rw [valOf_pack_eq_signedInt hscale hfit, signedInt_exactSum, exactSum_div_pow]

/-- Adding or subtracting a zero, or from a zero, is exact (42_arithmetic.md R151). -/
theorem addsub_exact_of_zero {a b : PackedBits} (h : mantOf a = 0 ∨ mantOf b = 0) (nb : Bool) :
    ∃ v, addsub a b nb = .succeed v ∧ valOf v = valOf a + (if nb then -1 else 1) * valOf b := by
  by_cases ha : mantOf a = 0
  · by_cases hb : mantOf b = 0
    · exact ⟨b, addsub_of_zeros ha hb nb, by simp [valOf_eq_zero_iff.2 ha, valOf_eq_zero_iff.2 hb]⟩
    · cases nb with
      | false => exact ⟨b, addsub_of_zero_left ha, by simp [valOf_eq_zero_iff.2 ha]⟩
      | true =>
        exact ⟨_, addsub_sub_of_zero_left ha hb, by simp [valOf_pack_not_sign, valOf_eq_zero_iff.2 ha]⟩
  · have hb := h.resolve_left ha
    exact ⟨a, addsub_of_zero_right ha hb nb, by simp [valOf_eq_zero_iff.2 hb]⟩

/-- A sum that is at most `MAXM` in units of the common scale fits (00_scope.md R13, R14). -/
theorem exactSum_fits {a b : PackedBits} {nb : Bool}
    (h : |valOf a + (if nb then -1 else 1) * valOf b| * 10 ^ commonScale a b ≤ (Config.maxMant : ℚ)) :
    fits96 (exactSum a b nb).natAbs := by
  have hpos : (0 : ℚ) < 10 ^ commonScale a b := by positivity
  rw [← exactSum_div_pow, abs_div, abs_of_pos hpos, div_mul_cancel₀ _ hpos.ne'] at h
  have hnat : ((exactSum a b nb).natAbs : ℚ) ≤ Config.maxMant := by rwa [Nat.cast_natAbs, Int.cast_abs]
  exact_mod_cast hnat

/-- Settles O37: a zero operand by the short-cut, nonzero operands by the exact sum that fits. -/
theorem addSubIsExactWhenItFits : Obligations.AddSubIsExactWhenItFits := by
  intro s nb hv hfit
  obtain ⟨v, hop, hval⟩ : ∃ v, addsub s.opA s.opB nb = .succeed v ∧
      valOf v = valOf s.opA + (if nb then -1 else 1) * valOf s.opB := by
    by_cases hzero : mantOf s.opA = 0 ∨ mantOf s.opB = 0
    · exact addsub_exact_of_zero hzero nb
    · obtain ⟨ha, hb⟩ := not_or.1 hzero
      exact addsub_exact_of_nonzero hv.1 hv.2 ha hb (exactSum_fits hfit)
  exact ⟨v, completesWith_of_withAB (exec_addsub nb s) hv hop, hval⟩

/-! ### MUL (42_arithmetic.md R156 to R158) -/

theorem mulValues_of_zero {a b : PackedBits} (h : mantOf a * mantOf b = 0) :
    mulValues a b = .succeed canonicalZero := if_pos (Nat.mul_eq_zero.1 h)

theorem mulValues_of_nonzero {a b : PackedBits} (h : mantOf a * mantOf b ≠ 0) :
    mulValues a b = endReduced (xor (signOf a) (signOf b)) (reduceFit (mantOf a * mantOf b)
      (scaleOf a + scaleOf b) rhaz (scaleOf a + scaleOf b - 28)) := if_neg (mt Nat.mul_eq_zero.2 h)

/-- Settles O38: the precision reducer starts at the digits above scale 28 and rounds half away from zero. -/
theorem mulRoundsTheExactProduct : Obligations.MulRoundsTheExactProduct := by
  intro s hv scale p least
  have hleast : least = scale - 28 := by omega
  rw [hleast]
  refine ⟨fun hp => ?_, fun hp hnone => ?_, fun hp k hk0 hk hfit hmin => ?_⟩
  · exact completesWith_of_withAB (exec_mul s) hv (mulValues_of_zero hp)
  · exact reportsError_of_withAB (exec_mul s) hv
      ((mulValues_of_nonzero hp).trans (congrArg (endReduced _) (reduceFit_of_none_fits hnone)))
  · exact completesWith_of_withAB (exec_mul s) hv
      ((mulValues_of_nonzero hp).trans (congrArg (endReduced _) (reduceFit_of_least hk0 hk hfit hmin)))

/-! ### Zero operands of DIV and REM (42_arithmetic.md R160, R166) -/

section
variable {a b : PackedBits}

theorem divValues_of_zero_divisor (hb : mantOf b = 0) : divValues a b = .raise .divByZero := if_pos hb

theorem divValues_of_zero_dividend (hb : mantOf b ≠ 0) (ha : mantOf a = 0) :
    divValues a b = .succeed canonicalZero := by rw [divValues, if_neg hb, if_pos ha]

theorem remValues_of_zero_divisor (hb : mantOf b = 0) : remValues a b = .raise .divByZero := if_pos hb

theorem remValues_of_zero_dividend (hb : mantOf b ≠ 0) (ha : mantOf a = 0) :
    remValues a b = .succeed canonicalZero := by rw [remValues, if_neg hb, if_pos ha]

end

/-- Settles O39: the divisor is tested before the dividend. -/
theorem divRemZeroOperands : Obligations.DivRemZeroOperands := by
  intro s hv
  refine ⟨fun hb => ⟨?_, ?_⟩, fun hb ha => ⟨?_, ?_⟩⟩
  · exact reportsError_of_withAB (exec_div s) hv (divValues_of_zero_divisor hb)
  · exact reportsError_of_withAB (exec_rem s) hv (remValues_of_zero_divisor hb)
  · exact completesWith_of_withAB (exec_div s) hv (divValues_of_zero_dividend hb ha)
  · exact completesWith_of_withAB (exec_rem s) hv (remValues_of_zero_dividend hb ha)

/-! ### DIV (42_arithmetic.md R161 to R163) -/

/-- The natural scale of DIV over the integers (42_arithmetic.md R161). -/
theorem toNat_max_eq_quotientScale (a b : PackedBits) :
    (max ((scaleOf a : ℤ) - scaleOf b) 0).toNat = quotientScale a b := by
  unfold quotientScale; omega

/-- The dividend at a scale over the integers (42_arithmetic.md R161). -/
theorem mant_mul_pow_eq_dividendAt (a b : PackedBits) (t : Nat) :
    mantOf a * 10 ^ ((t : ℤ) - ((scaleOf a : ℤ) - scaleOf b)).toNat = dividendAt a b t := by
  rw [dividendAt, alignUp, show ((t : ℤ) - ((scaleOf a : ℤ) - scaleOf b)).toNat = t + scaleOf b - scaleOf a by omega]

section
variable {a b : PackedBits} (ha : mantOf a ≠ 0) (hb : mantOf b ≠ 0)
include ha hb

theorem divValues_of_exact (h : dividendAt a b (quotientScale a b) % mantOf b = 0) :
    divValues a b = if fits96 (dividendAt a b (quotientScale a b) / mantOf b) then
      .succeed (pack (xor (signOf a) (signOf b)) (quotientScale a b)
        (dividendAt a b (quotientScale a b) / mantOf b))
    else .raise .overflow := by
  simp only [divValues, if_neg hb, if_neg ha, divrem_of_pos hb, if_pos h]

theorem divValues_of_inexact (h : dividendAt a b (quotientScale a b) % mantOf b ≠ 0) :
    divValues a b = inexactQuotient a b := by
  simp only [divValues, if_neg hb, if_neg ha, divrem_of_pos hb, if_neg h]

end

/-- Settles O40: a quotient without remainder is checked against 96 bits and nothing else. -/
theorem divGivesTheExactQuotient : Obligations.DivGivesTheExactQuotient := by
  intro s hv ha hb
  simp only [toNat_max_eq_quotientScale, mant_mul_pow_eq_dividendAt]
  intro hexact
  have hop := divValues_of_exact ha hb hexact
  exact ⟨fun hfit => completesWith_of_withAB (exec_div s) hv (hop.trans (if_pos hfit)),
    fun hfit => reportsError_of_withAB (exec_div s) hv (hop.trans (if_neg hfit))⟩

section
variable {a b : PackedBits} (ha : isValid a = true)
include ha

/-- The scales that DIV searches are those up to 28 (42_arithmetic.md R162). -/
theorem quotientScale_add_room : quotientScale a b + (Config.maxScale - quotientScale a b) = 28 := by
  have hscale := scaleOf_le_of_valid ha
  simp only [quotientScale, Config.maxScale]
  omega

theorem inexactQuotient_of_none_fits
    (h : ∀ t, quotientScale a b ≤ t → t ≤ 28 → ¬ fits96 (roundedQuotient a b t)) :
    inexactQuotient a b = .raise .overflow := by
  rw [inexactQuotient, largestFit_of_none_fits (by rwa [quotientScale_add_room ha])]

theorem inexactQuotient_of_largest {t : Nat} (hlo : quotientScale a b ≤ t) (ht : t ≤ 28)
    (hfit : fits96 (roundedQuotient a b t)) (hlargest : ∀ u, t < u → u ≤ 28 → ¬ fits96 (roundedQuotient a b u)) :
    inexactQuotient a b = .succeed (pack (xor (signOf a) (signOf b)) (strip (roundedQuotient a b t) t 0).2
      (strip (roundedQuotient a b t) t 0).1) := by
  rw [← quotientScale_add_room (b := b) ha] at ht
  rw [inexactQuotient, largestFit_of_largest hlo ht hfit (by rwa [quotientScale_add_room ha])]

end

/-- Settles O41: the scale search, then the normalizer. -/
theorem divRoundsAndStripsTheInexactQuotient : Obligations.DivRoundsAndStripsTheInexactQuotient := by
  intro s hv ha hb
  simp only [toNat_max_eq_quotientScale, mant_mul_pow_eq_dividendAt]
  intro hinexact
  have hop := divValues_of_inexact ha hb hinexact
  refine ⟨fun hnone => ?_, fun t hlo ht hfit hlargest => ?_⟩
  · exact reportsError_of_withAB (exec_div s) hv (hop.trans (inexactQuotient_of_none_fits hv.1 hnone))
  · obtain ⟨-, hle, hval, hstrip⟩ := strip_spec (m := roundedQuotient s.opA s.opB t) (Nat.zero_le t)
    exact ⟨_, _, hle, hval, hstrip, completesWith_of_withAB (exec_div s) hv
      (hop.trans (inexactQuotient_of_largest hv.1 hlo ht hfit hlargest))⟩

/-! ### REM (42_arithmetic.md R167 to R171) -/

/-- The result of REM for nonzero operands (42_arithmetic.md R167 to R169). -/
def remResult (a b : PackedBits) : PackedBits :=
  pack (signOf a) (strip (alignedLeft a b % alignedRight a b) (commonScale a b) (scaleOf a)).2
    (strip (alignedLeft a b % alignedRight a b) (commonScale a b) (scaleOf a)).1

/-- `v` is the remainder of `a` by `b`, truncating the quotient (42_arithmetic.md R171). -/
structure IsRemainder (a b v : PackedBits) : Prop where
  valid : isValid v = true
  multiple : ∃ k : ℤ, valOf a = k * valOf b + valOf v
  small : |valOf v| < |valOf b|

section
variable {a b : PackedBits}

theorem remValues_of_nonzero (hb : mantOf b ≠ 0) (ha : mantOf a ≠ 0) :
    remValues a b = .succeed (remResult a b) := by
  simp only [remValues, if_neg hb, if_neg ha, divrem_of_pos (alignedRight_pos hb).ne', remResult]

theorem isRemainder_canonicalZero (hb : mantOf b ≠ 0) (ha : mantOf a = 0) : IsRemainder a b canonicalZero := by
  have hzero : valOf canonicalZero = 0 := valOf_eq_zero_iff.2 (by decide)
  refine ⟨isValid_canonicalZero, ⟨0, by simp [valOf_eq_zero_iff.2 ha, hzero]⟩, ?_⟩
  rw [hzero, abs_zero, abs_pos]
  exact mt valOf_eq_zero_iff.1 hb

variable (hva : isValid a = true) (hvb : isValid b = true) (hb : mantOf b ≠ 0)
include hva hvb hb

theorem valOf_remResult : valOf (remResult a b) =
    signedInt (signOf a) (alignedLeft a b % alignedRight a b) / 10 ^ commonScale a b :=
  valOf_pack_strip _ (Nat.le_max_left _ _) ((commonScale_le hva hvb).trans (by omega)) (aligned_mod_fits hb)

theorem isRemainder_remResult : IsRemainder a b (remResult a b) := by
  obtain ⟨-, hscale, -⟩ := strip_spec (m := alignedLeft a b % alignedRight a b)
    (Nat.le_max_left (scaleOf a) (scaleOf b))
  have hpos : (0 : ℚ) < 10 ^ commonScale a b := by positivity
  refine ⟨isValid_pack (hscale.trans (commonScale_le hva hvb))
    (strip_fits (Nat.le_max_left _ _) (aligned_mod_fits hb)), ?_, ?_⟩
  · refine ⟨signedInt (xor (signOf a) (signOf b)) (alignedLeft a b / alignedRight a b), ?_⟩
    rw [valOf_eq_alignedLeft a b, valOf_eq_alignedRight a b, valOf_remResult hva hvb hb,
      signedInt_div_add_mod (signOf a) (signOf b) _ (alignedRight a b)]
    push_cast
    ring
  · rw [valOf_remResult hva hvb hb, valOf_eq_alignedRight a b, abs_div, abs_div, abs_cast_signedInt,
      abs_cast_signedInt, abs_of_pos hpos]
    exact div_lt_div_of_pos_right (mod_cast Nat.mod_lt _ (alignedRight_pos hb)) hpos

/-- The sign and the scale of REM's result (42_arithmetic.md R168, R169). -/
theorem remResult_fields : signOf (remResult a b) = signOf a ∧ scaleOf a ≤ scaleOf (remResult a b) ∧
    scaleOf (remResult a b) ≤ commonScale a b ∧
    (scaleOf (remResult a b) = scaleOf a ∨ mantOf (remResult a b) % 10 ≠ 0) := by
  have hf : scaleOf a ≤ commonScale a b := Nat.le_max_left _ _
  obtain ⟨hlo, hhi, -, hstrip⟩ := strip_spec (m := alignedLeft a b % alignedRight a b) hf
  have hfit := strip_fits hf (aligned_mod_fits (a := a) hb)
  have h255 := hhi.trans ((commonScale_le hva hvb).trans (by omega : 28 ≤ 255))
  rw [remResult, signOf_pack h255 hfit, scaleOf_pack h255 hfit, mantOf_pack h255 hfit]
  exact ⟨rfl, hlo, hhi, hstrip⟩

end

/-- Settles O42: division with remainder of the aligned mantissas, whose remainder the normalizer keeps in value. -/
theorem remIsTheRemainderOfA : Obligations.RemIsTheRemainderOfA := by
  intro s hv hb
  by_cases ha : mantOf s.opA = 0
  · obtain ⟨hvalid, hmultiple, hsmall⟩ := isRemainder_canonicalZero hb ha
    exact ⟨_, completesWith_of_withAB (exec_rem s) hv (remValues_of_zero_dividend hb ha), hvalid, hmultiple, hsmall,
      fun hne => absurd ha hne⟩
  · obtain ⟨hvalid, hmultiple, hsmall⟩ := isRemainder_remResult hv.1 hv.2 hb
    exact ⟨_, completesWith_of_withAB (exec_rem s) hv (remValues_of_nonzero hb ha), hvalid, hmultiple, hsmall,
      fun _ => remResult_fields hv.1 hv.2 hb⟩

end Sys2Proof.Machine
end

section
/-!
PROOFS. RESCALE, ROUND in its seven modes, NORM, TRUNC, FRACT, FLOOR and CEIL (O45 to O53).
-/
namespace Sys2Proof.Machine

/-! ### The words of the commands with an immediate (30_encoding.md R74, R75) -/

theorem oneOperandRule_rescale {imm : Nat} (himm : imm ≤ 255) (s : State) :
    OneOperandRule (.rescale imm) (imm * 2 ^ 8 + 0x07) s :=
  oneOperandRule_of_withA (exec_rescale imm s) (wellFormed_of_immCode_le himm)
    (by simp [Instr.immCode, Instr.imm?, Instr.rmCode, Instr.mode?, Instr.opcode])

@[simp] theorem immCode_round (mode : RoundMode) (dp : Nat) : (Instr.round mode dp).immCode = dp := by
  cases mode <;> rfl

@[simp] theorem rmCode_round (mode : RoundMode) (dp : Nat) : (Instr.round mode dp).rmCode = mode.code := by
  cases mode <;> rfl

@[simp] theorem opcode_round (mode : RoundMode) (dp : Nat) : (Instr.round mode dp).opcode = 0x08 := by
  cases mode <;> rfl

/-- The seven ROUND commands are one operation (43_rounding.md R184). -/
theorem exec_round (mode : RoundMode) (dp : Nat) (s : State) :
    exec (Instr.round mode dp) s = withA (roundValue mode dp) s := by
  cases mode <;> rfl

theorem oneOperandRule_round (mode : RoundMode) {dp : Nat} (hdp : dp ≤ 255) (s : State) :
    OneOperandRule (Instr.round mode dp) (dp * 2 ^ 8 + mode.code * 2 ^ 5 + 0x08) s :=
  oneOperandRule_of_withA (exec_round mode dp s) (wellFormed_of_immCode_le (by simpa using hdp)) (by simp)

/-! ### RESCALE (43_rounding.md R180 to R182) -/

section
variable {imm : Nat} {a : PackedBits}

theorem rescaleValue_of_eq (h : scaleOf a = min imm 28) : rescaleValue imm a = .succeed a := if_pos h

theorem rescaleValue_of_zero (h : scaleOf a ≠ min imm 28) (hm : mantOf a = 0) :
    rescaleValue imm a = .succeed (pack (signOf a) (min imm 28) 0) := (if_neg h).trans (if_pos hm)

theorem rescaleValue_of_gt (h : min imm 28 < scaleOf a) (hm : mantOf a ≠ 0) :
    rescaleValue imm a =
      .succeed (pack (signOf a) (min imm 28) (rhaz (mantOf a) (10 ^ (scaleOf a - min imm 28)))) :=
  (if_neg h.ne').trans ((if_neg hm).trans (if_pos h))

theorem rescaleValue_of_lt (h : scaleOf a < min imm 28) (hm : mantOf a ≠ 0) :
    rescaleValue imm a =
      .succeed (pack (signOf a) (scaleUp (min imm 28 - scaleOf a) (scaleOf a) (mantOf a)).1
        (scaleUp (min imm 28 - scaleOf a) (scaleOf a) (mantOf a)).2) :=
  (if_neg h.ne).trans ((if_neg hm).trans (if_neg h.not_gt))

end

/-- `t` is the largest scale from `e` up to `target` at which a mantissa `m` of scale `e` fits (43_rounding.md R180). -/
structure LargestScale (m e target t : Nat) : Prop where
  ge : e ≤ t
  le : t ≤ target
  fits : fits96 (m * 10 ^ (t - e))
  largest : ∀ u, t < u → u ≤ target → ¬ fits96 (m * 10 ^ (u - e))

/-- RESCALE's loop stops at the largest scale that fits: one digit that does not fit rules out all larger scales. -/
theorem largestScale_scaleUp {m e target : Nat} (h : e ≤ target) (hm : fits96 m) :
    LargestScale m e target (scaleUp (target - e) e m).1 ∧
      (scaleUp (target - e) e m).2 = m * 10 ^ ((scaleUp (target - e) e m).1 - e) := by
  obtain ⟨hge, hle, hfit, hval, hstop⟩ := scaleUp_spec (target - e) e m hm
  generalize scaleUp (target - e) e m = tm at hge hle hfit hval hstop
  refine ⟨⟨hge, by omega, hval ▸ hfit, fun u hu hut hufit => ?_⟩, hval⟩
  have hnofit : ¬ fits96 (m * 10 ^ (tm.1 + 1 - e)) := by
    rw [Nat.sub_add_comm hge, pow_succ, ← mul_assoc, ← hval]
    exact hstop.resolve_left (by omega)
  exact hnofit ((Nat.mul_le_mul_left m (Nat.pow_le_pow_right (by omega) (by omega))).trans hufit)

/-- RESCALE to a scale not below `A`'s appends zeros to the mantissa; a zero mantissa and `A`'s own scale are no
exceptions (43_rounding.md R180, R181). -/
theorem rescaleValue_appends_zeros {imm : Nat} {a : PackedBits} (ha : isValid a = true)
    (h : scaleOf a ≤ min imm 28) : ∃ t, scaleOf a ≤ t ∧ t ≤ 28 ∧ fits96 (mantOf a * 10 ^ (t - scaleOf a)) ∧
      rescaleValue imm a = .succeed (pack (signOf a) t (mantOf a * 10 ^ (t - scaleOf a))) := by
  have h28 : min imm 28 ≤ 28 := Nat.min_le_right _ _
  obtain heq | hlt := h.eq_or_lt
  · refine ⟨scaleOf a, le_rfl, heq ▸ h28, ?_, ?_⟩ <;> rw [Nat.sub_self, pow_zero, mul_one]
    · exact mantOf_le a
    · rw [rescaleValue_of_eq heq, pack_fields ha]
  · by_cases hm : mantOf a = 0
    · exact ⟨min imm 28, h, h28, by simp [hm], by rw [rescaleValue_of_zero hlt.ne hm, hm, Nat.zero_mul]⟩
    · obtain ⟨hlargest, hval⟩ := largestScale_scaleUp h (mantOf_le a)
      exact ⟨_, hlargest.ge, hlargest.le.trans h28, hlargest.fits, by rw [rescaleValue_of_lt hlt hm, hval]⟩

/-- RESCALE to a scale below `A`'s ends at that scale (43_rounding.md R181). -/
theorem rescaleValue_down {imm : Nat} {a : PackedBits} (h : min imm 28 < scaleOf a) :
    ∃ m, fits96 m ∧ rescaleValue imm a = .succeed (pack (signOf a) (min imm 28) m) := by
  by_cases hm : mantOf a = 0
  · exact ⟨0, Nat.zero_le _, rescaleValue_of_zero h.ne' hm⟩
  · refine ⟨_, ?_, rescaleValue_of_gt h hm⟩
    rw [rhaz_eq_add_incr _ _ false]
    exact incr_fits (mantOf_le a) (Nat.sub_pos_of_lt h) _ _ _ _ _ rfl

theorem rhaz_mul_self (m : Nat) {d : Nat} (hd : 0 < d) : rhaz (m * d) d = m := by
  rw [rhaz_eq_add_incr _ _ false, Nat.mul_mod_left, Nat.mul_div_cancel m hd, roundIncr_zero _ _ _ hd, Nat.add_zero]

/-- Appended zeros are dropped again without rounding (43_rounding.md R182). -/
theorem rescaleValue_drops_zeros {a : PackedBits} {t : Nat} (ha : isValid a = true) (ht : scaleOf a ≤ t)
    (h28 : t ≤ 28) (hfit : fits96 (mantOf a * 10 ^ (t - scaleOf a))) :
    rescaleValue (scaleOf a) (pack (signOf a) t (mantOf a * 10 ^ (t - scaleOf a))) = .succeed a := by
  have htarget : min (scaleOf a) 28 = scaleOf a := Nat.min_eq_left (ht.trans h28)
  have h255 : t ≤ 255 := h28.trans (by omega)
  have hpos : 0 < 10 ^ (t - scaleOf a) := Nat.pow_pos (by omega)
  have hsign := signOf_pack (s := signOf a) h255 hfit
  have hscale := scaleOf_pack (s := signOf a) h255 hfit
  have hmant := mantOf_pack (s := signOf a) h255 hfit
  obtain rfl | hlt := ht.eq_or_lt
  · rw [rescaleValue_of_eq (by rw [hscale, htarget]), Nat.sub_self, pow_zero, mul_one, pack_fields ha]
  · by_cases hm : mantOf a = 0
    · rw [rescaleValue_of_zero (by omega) (by rw [hmant, hm, Nat.zero_mul]), hsign, htarget, ← hm, pack_fields ha]
    · rw [rescaleValue_of_gt (by omega) (by rw [hmant]; exact Nat.mul_ne_zero hm hpos.ne'), hsign, hscale, hmant,
        htarget, rhaz_mul_self _ hpos, pack_fields ha]

/-- Settles O45: one equation of RESCALE for each clause, and the loop's largest scale. -/
theorem rescaleMovesTheScale : Obligations.RescaleMovesTheScale := by
  intro s imm himm
  refine ⟨oneOperandRule_rescale himm s, fun hA => ⟨fun h => ?_, fun h hm => ?_, fun h hm => ?_, fun h hm => ?_⟩⟩
  · exact completesWith_of_withA (exec_rescale imm s) hA (rescaleValue_of_eq h)
  · exact completesWith_of_withA (exec_rescale imm s) hA (rescaleValue_of_zero h hm)
  · exact completesWith_of_withA (exec_rescale imm s) hA (rescaleValue_of_gt h hm)
  · obtain ⟨⟨hge, hle, hfit, hlargest⟩, hval⟩ := largestScale_scaleUp h.le (mantOf_le s.opA)
    exact ⟨_, hge, hle, hfit, hlargest, completesWith_of_withA (exec_rescale imm s) hA
      (by rw [rescaleValue_of_lt h hm, hval])⟩

/-- The result of a one-operand command that succeeds. -/
theorem result_of_withA {i : Instr} {op : PackedBits → Ending} {s t : State} {v : PackedBits}
    (hx : exec i s = withA op s) (hA : isValid s.opA = true) (hop : op s.opA = .succeed v)
    (ht : exec i s = .next t) : t.r = v := by
  rw [hx, withA_of_valid hA, hop] at ht
  cases ht
  rfl

/-- Settles O46: a result scale not below `A`'s means that only zeros were appended, and they are dropped again. -/
theorem rescaleUpAndBackIsIdentity : Obligations.RescaleUpAndBackIsIdentity := by
  intro s s' t t' imm hA ht hscale hs' ht'
  by_cases h : scaleOf s.opA ≤ min imm 28
  · obtain ⟨e, hge, h28, hfit, hup⟩ := rescaleValue_appends_zeros hA h
    rw [result_of_withA (exec_rescale imm s) hA hup ht] at hs'
    have hback := rescaleValue_drops_zeros hA hge h28 hfit
    rw [← hs'] at hback
    exact result_of_withA (exec_rescale _ s') (hs' ▸ isValid_pack h28 hfit) hback ht'
  · obtain ⟨m, hfit, hdown⟩ := rescaleValue_down (Nat.lt_of_not_le h)
    rw [result_of_withA (exec_rescale imm s) hA hdown ht, scaleOf_pack (by omega) hfit] at hscale
    exact absurd hscale h

/-! ### ROUND (43_rounding.md R183, R184) -/

/-- The mantissa that ROUND to `dp` places keeps of `a` (43_rounding.md R184). -/
def roundedMant (mode : RoundMode) (dp : Nat) (a : PackedBits) : Nat :=
  mantOf a / 10 ^ (scaleOf a - dp) + roundIncr mode (signOf a) (mantOf a / 10 ^ (scaleOf a - dp))
    (mantOf a % 10 ^ (scaleOf a - dp)) (10 ^ (scaleOf a - dp))

section
variable {mode : RoundMode} {dp : Nat} {a : PackedBits}

theorem roundValue_of_le (h : scaleOf a ≤ dp) : roundValue mode dp a = .succeed a := if_pos h

theorem roundedMant_self : roundedMant mode (scaleOf a) a = mantOf a := by
  simp [roundedMant, Nat.mod_one, roundIncr_zero]

theorem roundedMant_fits (h : dp ≤ scaleOf a) : fits96 (roundedMant mode dp a) := by
  obtain rfl | hlt := h.eq_or_lt
  · rw [roundedMant_self]; exact mantOf_le a
  · exact incr_fits (mantOf_le a) (Nat.sub_pos_of_lt hlt) _ _ _ _ _ rfl

/-- ROUND to fewer places than `A` has, or to just as many (43_rounding.md R183, R184). -/
theorem roundValue_eq_roundedMant (ha : isValid a = true) (h : dp ≤ scaleOf a) :
    roundValue mode dp a = .succeed (pack (signOf a) dp (roundedMant mode dp a)) := by
  obtain rfl | hlt := h.eq_or_lt
  · rw [roundValue_of_le le_rfl, roundedMant_self, pack_fields ha]
  · exact if_neg (Nat.not_le.2 hlt)

end

/-- Settles O47: the seven modes are one operation, which returns early when no digit is to be dropped. -/
theorem roundInventsNoDigits : Obligations.RoundInventsNoDigits := fun s dp mode hdp =>
  ⟨oneOperandRule_round mode hdp s, fun hA h => completesWith_of_withA (exec_round mode dp s) hA (roundValue_of_le h)⟩

/-! ### The nearest modes (41_limb_units.md R140) -/

/-- An increment that is made above the half and not below it gives a nearest multiple, and one at half a unit from
`m` only when the remainder is half the divisor. -/
theorem nearest_of_incr {m d i : Nat} (hd : 0 < d) (hi : i ≤ 1) (habove : d < 2 * (m % d) → i = 1)
    (hbelow : 2 * (m % d) < d → i = 0) :
    2 * |((m / d + i : ℕ) : ℤ) * d - m| ≤ d ∧ (2 * |((m / d + i : ℕ) : ℤ) * d - m| = d → 2 * (m % d) = d) := by
  have hdist : ((m / d + i : ℕ) : ℤ) * d - m = i * d - (m % d : ℕ) := by
    have hdm : ((m / d : ℕ) : ℤ) * d + (m % d : ℕ) = m := by exact_mod_cast Nat.div_add_mod' m d
    push_cast at hdm ⊢
    linear_combination hdm
  have hmod := Nat.mod_lt m hd
  rw [hdist]
  obtain rfl | rfl : i = 0 ∨ i = 1 := by omega
  · rw [Nat.cast_zero, zero_mul, zero_sub, abs_neg, Nat.abs_cast]; omega
  · rw [Nat.cast_one, one_mul, abs_of_nonneg (by omega)]; omega

/-- The mode increments above the half and not below it, whatever it does at the half (41_limb_units.md R140). -/
structure NearestMode (mode : RoundMode) : Prop where
  above : ∀ {s q r d}, d < 2 * r → roundIncr mode s q r d = 1
  below : ∀ {s q r d}, 2 * r < d → roundIncr mode s q r d = 0

theorem nearestMode_rne : NearestMode .rne where
  above h := if_pos (.inl h)
  below h := if_neg (by omega)

theorem nearestMode_rhaz : NearestMode .rhaz where
  above h := if_pos h.le
  below h := if_neg (by omega)

theorem nearestMode_rhtz : NearestMode .rhtz where
  above h := if_pos h
  below h := if_neg (by omega)

/-- What the nearest modes share; `tie` is what a mode makes of an exact tie (43_rounding.md R184). -/
theorem completesWith_nearest {mode : RoundMode} (hmode : NearestMode mode) {i : Instr} {s : State} {dp : Nat}
    (hx : exec i s = withA (roundValue mode dp) s) (hA : isValid s.opA = true) (hdp : dp < scaleOf s.opA)
    {tie : Nat → Prop} (htie : 2 * (mantOf s.opA % 10 ^ (scaleOf s.opA - dp)) = 10 ^ (scaleOf s.opA - dp) →
      tie (roundedMant mode dp s.opA)) :
    ∃ q : Nat, CompletesWith i s (pack (signOf s.opA) dp q) ∧ fits96 q ∧
      2 * |q * (10 : ℤ) ^ (scaleOf s.opA - dp) - mantOf s.opA| ≤ 10 ^ (scaleOf s.opA - dp) ∧
      (2 * |q * (10 : ℤ) ^ (scaleOf s.opA - dp) - mantOf s.opA| = 10 ^ (scaleOf s.opA - dp) → tie q) := by
  obtain ⟨hnear, hhalf⟩ := nearest_of_incr (m := mantOf s.opA) (d := 10 ^ (scaleOf s.opA - dp))
    (Nat.pow_pos (by omega)) (roundIncr_le_one mode (signOf s.opA) _ _ _) hmode.above hmode.below
  push_cast only [Nat.cast_pow, Nat.cast_ofNat] at hnear hhalf
  exact ⟨roundedMant mode dp s.opA, completesWith_of_withA hx hA (roundValue_eq_roundedMant hA hdp.le),
    roundedMant_fits hdp.le, hnear, fun h => htie (hhalf h)⟩

section
variable {s : Bool} {q r d : Nat} (h : 2 * r = d)
include h

theorem roundIncr_rne_of_tie : roundIncr .rne s q r d = q % 2 := by
  by_cases hq : q % 2 = 1
  · exact (if_pos (.inr ⟨h, hq⟩)).trans hq.symm
  · exact (if_neg (by omega)).trans (by omega)

theorem roundIncr_rhaz_of_tie : roundIncr .rhaz s q r d = 1 := if_pos h.ge

theorem roundIncr_rhtz_of_tie : roundIncr .rhtz s q r d = 0 := if_neg (by omega)

end

section
variable {dp : Nat} {a : PackedBits}
  (h : 2 * (mantOf a % 10 ^ (scaleOf a - dp)) = 10 ^ (scaleOf a - dp))
include h

theorem roundedMant_rne_of_tie : roundedMant .rne dp a % 2 = 0 := by
  rw [roundedMant, roundIncr_rne_of_tie h]; omega

theorem roundedMant_rhaz_of_tie : (mantOf a : ℤ) < roundedMant .rhaz dp a * 10 ^ (scaleOf a - dp) := by
  rw [roundedMant, roundIncr_rhaz_of_tie h, mul_comm]
  exact_mod_cast Nat.lt_mul_div_succ (mantOf a) (Nat.pow_pos (n := scaleOf a - dp) (by omega : 0 < 10))

theorem roundedMant_rhtz_of_tie : (roundedMant .rhtz dp a : ℤ) * 10 ^ (scaleOf a - dp) < mantOf a := by
  have hpos : 0 < 10 ^ (scaleOf a - dp) := Nat.pow_pos (by omega)
  have hdm := Nat.div_add_mod' (mantOf a) (10 ^ (scaleOf a - dp))
  rw [roundedMant, roundIncr_rhtz_of_tie h, Nat.add_zero]
  have hlt : mantOf a / 10 ^ (scaleOf a - dp) * 10 ^ (scaleOf a - dp) < mantOf a := by omega
  exact_mod_cast hlt

end

/-- Settles O48: the three modes differ only at an exact tie. -/
theorem nearestModesRoundToNearest : Obligations.NearestModesRoundToNearest := fun s dp hA hdp =>
  ⟨completesWith_nearest nearestMode_rne (exec_roundRne dp s) hA hdp roundedMant_rne_of_tie,
    completesWith_nearest nearestMode_rhaz (exec_roundRhaz dp s) hA hdp roundedMant_rhaz_of_tie,
    completesWith_nearest nearestMode_rhtz (exec_roundRhtz dp s) hA hdp roundedMant_rhtz_of_tie⟩

/-! ### The directed modes (41_limb_units.md R140) -/

theorem truncInt_neg (x : ℚ) : truncInt (-x) = -truncInt x := by
  obtain h | rfl | h := lt_trichotomy x 0
  · rw [truncInt, truncInt, if_pos (by linarith), if_neg (by linarith), Int.floor_neg]
  · simp [truncInt]
  · rw [truncInt, truncInt, if_neg (by linarith), if_pos h.le, Int.ceil_neg]

theorem awayInt_neg (x : ℚ) : awayInt (-x) = -awayInt x := by
  obtain h | rfl | h := lt_trichotomy x 0
  · rw [awayInt, awayInt, if_pos (by linarith), if_neg (by linarith), Int.ceil_neg]
  · simp [awayInt]
  · rw [awayInt, awayInt, if_neg (by linarith), if_pos h.le, Int.floor_neg]

/-- The quotient, one more when there is a remainder, is the ceiling. -/
theorem ceil_div_eq (n : Nat) {d : Nat} (hd : 0 < d) :
    ⌈(n : ℚ) / d⌉ = ((n / d + if n % d ≠ 0 then 1 else 0 : ℕ) : ℤ) := by
  have hpos : (0 : ℚ) < d := Nat.cast_pos.2 hd
  have hdm := Nat.div_add_mod' n d
  have hmod := Nat.mod_lt n hd
  rw [Int.ceil_eq_iff, lt_div_iff₀ hpos, div_le_iff₀ hpos, sub_mul, one_mul, sub_lt_iff_lt_add]
  norm_cast
  rw [add_mul]
  split
  next h => omega
  next h => omega

section
variable (n : Nat) {d : Nat}

theorem truncInt_div_eq : truncInt ((n : ℚ) / d) = (n / d : ℕ) :=
  (if_pos (by positivity)).trans (Rat.floor_natCast_div_natCast n d)

theorem awayInt_div_eq (hd : 0 < d) : awayInt ((n : ℚ) / d) = (n / d + if n % d ≠ 0 then 1 else 0 : ℕ) :=
  (if_pos (by positivity)).trans (ceil_div_eq n hd)

theorem signedInt_true_div : (signedInt true n : ℚ) / d = -((n : ℚ) / d) := by
  simp [signedInt, neg_div]

variable (s : Bool)

/-- Toward zero: the quotient, whatever the sign (41_limb_units.md R140). -/
theorem truncInt_signedInt_div : truncInt (signedInt s n / d) = signedInt s (n / d) := by
  cases s with
  | false => exact truncInt_div_eq n
  | true => rw [signedInt_true_div, truncInt_neg, truncInt_div_eq]; rfl

variable (hd : 0 < d)
include hd

/-- Away from zero: one more when there is a remainder, whatever the sign (41_limb_units.md R140). -/
theorem awayInt_signedInt_div :
    awayInt (signedInt s n / d) = signedInt s (n / d + roundIncr .raz s (n / d) (n % d) d) := by
  cases s with
  | false => exact awayInt_div_eq n hd
  | true => rw [signedInt_true_div, awayInt_neg, awayInt_div_eq n hd]; rfl

/-- Downward: away from zero for a negative sign, toward zero otherwise (41_limb_units.md R140). -/
theorem floor_signedInt_div :
    ⌊(signedInt s n : ℚ) / d⌋ = signedInt s (n / d + roundIncr .rfloor s (n / d) (n % d) d) := by
  cases s with
  | false => exact (Rat.floor_natCast_div_natCast n d).trans (by simp [signedInt, roundIncr])
  | true => rw [signedInt_true_div, Int.floor_neg, ceil_div_eq n hd]; simp [signedInt, roundIncr]

/-- Upward: toward zero for a negative sign, away from zero otherwise (41_limb_units.md R140). -/
theorem ceil_signedInt_div :
    ⌈(signedInt s n : ℚ) / d⌉ = signedInt s (n / d + roundIncr .rceil s (n / d) (n % d) d) := by
  cases s with
  | false => exact (ceil_div_eq n hd).trans (by simp [signedInt, roundIncr])
  | true => rw [signedInt_true_div, Int.ceil_neg, Rat.floor_natCast_div_natCast]; simp [signedInt, roundIncr]

end

/-- A command that is ROUND to no more places than `A` has, with the integer its mode makes of `A`'s units of `10^-dp`
(43_rounding.md R184). -/
theorem roundsTo_of_withA {mode : RoundMode} {i : Instr} {s : State} {dp : Nat} {y : ℤ}
    (hx : exec i s = withA (roundValue mode dp) s) (hA : isValid s.opA = true) (hdp : dp ≤ scaleOf s.opA)
    (hy : signedInt (signOf s.opA) (roundedMant mode dp s.opA) = y) : RoundsTo i s (signOf s.opA) dp y := by
  have h28 : dp ≤ 28 := hdp.trans (scaleOf_le_of_valid hA)
  have hfit := roundedMant_fits (mode := mode) hdp
  refine ⟨_, completesWith_of_withA hx hA (roundValue_eq_roundedMant hA hdp), isValid_pack h28 hfit,
    signOf_pack (by omega) hfit, scaleOf_pack (by omega) hfit, ?_⟩
  rw [valOf_pack_eq_signedInt (by omega) hfit, hy, div_mul_cancel₀ _ (by positivity)]

theorem valOf_eq_signedInt (x : PackedBits) : valOf x = signedInt (signOf x) (mantOf x) / 10 ^ scaleOf x := by
  rw [valOf, cast_signedInt]

/-- The value in units of `10^-dp`. -/
theorem valOf_mul_pow {a : PackedBits} {dp : Nat} (h : dp ≤ scaleOf a) :
    valOf a * 10 ^ dp = signedInt (signOf a) (mantOf a) / (10 ^ (scaleOf a - dp) : ℕ) := by
  have hpow : (10 : ℚ) ^ scaleOf a = 10 ^ (scaleOf a - dp) * 10 ^ dp := by rw [← pow_add, Nat.sub_add_cancel h]
  rw [valOf_eq_signedInt, hpow]
  push_cast
  field_simp

section
variable {i : Instr} {s : State} {dp : Nat} (hA : isValid s.opA = true) (hdp : dp ≤ scaleOf s.opA)
include hA hdp

theorem roundsTo_rtz (hx : exec i s = withA (roundValue .rtz dp) s) :
    RoundsTo i s (signOf s.opA) dp (truncInt (valOf s.opA * 10 ^ dp)) :=
  roundsTo_of_withA hx hA hdp (by rw [valOf_mul_pow hdp, truncInt_signedInt_div]; rfl)

theorem roundsTo_raz (hx : exec i s = withA (roundValue .raz dp) s) :
    RoundsTo i s (signOf s.opA) dp (awayInt (valOf s.opA * 10 ^ dp)) :=
  roundsTo_of_withA hx hA hdp (by rw [valOf_mul_pow hdp, awayInt_signedInt_div _ _ (Nat.pow_pos (by omega))]; rfl)

theorem roundsTo_rfloor (hx : exec i s = withA (roundValue .rfloor dp) s) :
    RoundsTo i s (signOf s.opA) dp ⌊valOf s.opA * 10 ^ dp⌋ :=
  roundsTo_of_withA hx hA hdp (by rw [valOf_mul_pow hdp, floor_signedInt_div _ _ (Nat.pow_pos (by omega))]; rfl)

theorem roundsTo_rceil (hx : exec i s = withA (roundValue .rceil dp) s) :
    RoundsTo i s (signOf s.opA) dp ⌈valOf s.opA * 10 ^ dp⌉ :=
  roundsTo_of_withA hx hA hdp (by rw [valOf_mul_pow hdp, ceil_signedInt_div _ _ (Nat.pow_pos (by omega))]; rfl)

end

/-- Settles O49: quotient and increment of the mantissa are the integer that each direction makes of the value. -/
theorem directedModesRoundTheirWay : Obligations.DirectedModesRoundTheirWay := fun s dp hA hdp =>
  ⟨roundsTo_rtz hA hdp.le (exec_roundRtz dp s), roundsTo_raz hA hdp.le (exec_roundRaz dp s),
    roundsTo_rfloor hA hdp.le (exec_roundRfloor dp s), roundsTo_rceil hA hdp.le (exec_roundRceil dp s)⟩

/-! ### TRUNC, FLOOR and CEIL (43_rounding.md R186, R188 to R190) -/

section
variable {a : PackedBits} (ha : isValid a = true)
include ha

theorem truncValue_eq_round : truncValue a = roundValue .rtz 0 a := by
  rw [roundValue_eq_roundedMant ha (Nat.zero_le _)]
  rfl

theorem floorValue_eq_round : floorValue a = roundValue .rfloor 0 a := by
  rw [roundValue_eq_roundedMant ha (Nat.zero_le _)]
  simp only [floorValue, alignDown, roundedMant, roundIncr, Nat.sub_zero, and_comm, add_ite, Nat.add_zero]

theorem ceilValue_eq_round : ceilValue a = roundValue .rceil 0 a := by
  rw [roundValue_eq_roundedMant ha (Nat.zero_le _)]
  simp only [ceilValue, alignDown, roundedMant, roundIncr, Nat.sub_zero, and_comm, add_ite, Nat.add_zero]

end

/-- Two operations on `A` that agree on valid values are one command. -/
theorem withA_congr {op op' : PackedBits → Ending} (h : ∀ a, isValid a = true → op a = op' a) (s : State) :
    withA op s = withA op' s := by
  unfold withA
  split
  next hA => rw [h _ hA]
  next => rfl

theorem exec_trunc_eq_round (s : State) : exec .trunc s = withA (roundValue .rtz 0) s :=
  withA_congr (fun _ => truncValue_eq_round) s

theorem exec_floor_eq_round (s : State) : exec .floor s = withA (roundValue .rfloor 0) s :=
  withA_congr (fun _ => floorValue_eq_round) s

theorem exec_ceil_eq_round (s : State) : exec .ceil s = withA (roundValue .rceil 0) s :=
  withA_congr (fun _ => ceilValue_eq_round) s

/-- Settles O53: on a valid `A` each pair of operations is one, and an invalid `A` is rejected by both. -/
theorem integerPartsAgreeWithRound : Obligations.IntegerPartsAgreeWithRound := fun s =>
  ⟨exec_trunc_eq_round s, exec_floor_eq_round s, exec_ceil_eq_round s⟩

/-- Settles O51: the directed modes to 0 places. -/
theorem integerPartsOfTheValue : Obligations.IntegerPartsOfTheValue := by
  intro s
  refine ⟨oneOperandRule_of_withA (exec_trunc s) rfl rfl, oneOperandRule_of_withA (exec_floor s) rfl rfl,
    oneOperandRule_of_withA (exec_ceil s) rfl rfl, fun hA => ?_⟩
  have htrunc := roundsTo_rtz hA (Nat.zero_le _) (exec_trunc_eq_round s)
  have hfloor := roundsTo_rfloor hA (Nat.zero_le _) (exec_floor_eq_round s)
  have hceil := roundsTo_rceil hA (Nat.zero_le _) (exec_ceil_eq_round s)
  rw [pow_zero, mul_one] at htrunc hfloor hceil
  exact ⟨htrunc, hfloor, hceil⟩

/-! ### NORM (43_rounding.md R185) -/

section
variable {a : PackedBits}

theorem normValue_of_zero (h : mantOf a = 0) : normValue a = .succeed canonicalZero := if_pos h

theorem normValue_of_nonzero (h : mantOf a ≠ 0) : normValue a =
    .succeed (pack (signOf a) (strip (mantOf a) (scaleOf a) 0).2 (strip (mantOf a) (scaleOf a) 0).1) := if_neg h

end

/-- Settles O50: the normalizer with floor 0. -/
theorem normStripsTrailingZeros : Obligations.NormStripsTrailingZeros := by
  refine fun s => ⟨oneOperandRule_of_withA (exec_norm s) rfl rfl, fun hA => ⟨fun h => ?_, fun h => ?_⟩⟩
  · exact completesWith_of_withA (exec_norm s) hA (normValue_of_zero h)
  · obtain ⟨-, hle, hval, hstrip⟩ := strip_spec (m := mantOf s.opA) (Nat.zero_le (scaleOf s.opA))
    exact ⟨_, _, completesWith_of_withA (exec_norm s) hA (normValue_of_nonzero h), hle, hval, hstrip,
      (valOf_pack_strip _ (Nat.zero_le _) (Nat.le_of_lt_succ (scaleOf_lt _)) (mantOf_le _)).trans
        (valOf_eq_signedInt _).symm⟩

/-! ### FRACT (43_rounding.md R187, R190) -/

theorem truncOf_of_zero {a : PackedBits} (h : mantOf a = 0) : truncOf a = pack (signOf a) 0 0 := by
  rw [truncOf, alignDown, h, Nat.zero_div]

theorem fractValue_of_zero {a : PackedBits} (h : mantOf a = 0) : fractValue a = .succeed (pack (signOf a) 0 0) := by
  have hmant : mantOf (truncOf a) = 0 := by rw [truncOf_of_zero h, mantOf_pack (by omega) (Nat.zero_le _)]
  rw [fractValue, addsub_of_zeros h hmant, truncOf_of_zero h]

theorem truncInt_valOf (a : PackedBits) :
    truncInt (valOf a) = signedInt (signOf a) (mantOf a / 10 ^ scaleOf a) := by
  rw [← truncInt_signedInt_div, valOf_eq_signedInt, Nat.cast_pow, Nat.cast_ofNat]

/-- The fractional digits are the value less its integer part (43_rounding.md R190). -/
theorem valOf_sub_truncInt (a : PackedBits) : valOf a - truncInt (valOf a) =
    signedInt (signOf a) (mantOf a % 10 ^ scaleOf a) / 10 ^ scaleOf a := by
  have hdm : signedInt (signOf a) (mantOf a) = signedInt (signOf a) (mantOf a / 10 ^ scaleOf a) *
      (10 ^ scaleOf a : ℕ) + signedInt (signOf a) (mantOf a % 10 ^ scaleOf a) :=
    (signedInt_div_add_mod (signOf a) false _ _).trans (by rw [Bool.xor_false]; rfl)
  rw [truncInt_valOf, valOf_eq_signedInt, hdm]
  push_cast
  field_simp
  ring

/-- Settles O52: a zero by SUB's short-cut, otherwise the digits below the point, which the subtraction leaves as they
are. -/
theorem fractIsTheRestOfTrunc : Obligations.FractIsTheRestOfTrunc := by
  refine fun s => ⟨oneOperandRule_of_withA (exec_fract s) rfl rfl, fun hA => ?_⟩
  rw [valOf_sub_truncInt]
  by_cases hm : mantOf s.opA = 0
  · have hfit : fits96 0 := Nat.zero_le _
    refine ⟨_, completesWith_of_withA (exec_fract s) hA (fractValue_of_zero hm), isValid_pack (by omega) hfit,
      signOf_pack (by omega) hfit, ?_, ?_⟩
    · rw [scaleOf_pack (by omega) hfit, if_pos hm]
    · rw [valOf_pack (by omega) hfit, hm]
      simp [signedInt]
  · have hscale := scaleOf_le_of_valid hA
    have hfit : fits96 (mantOf s.opA % 10 ^ scaleOf s.opA) := (Nat.mod_le _ _).trans (mantOf_le _)
    refine ⟨_, completesWith_of_withA (exec_fract s) hA (fractValue_eq hA hm), isValid_pack hscale hfit,
      signOf_pack (by omega) hfit, ?_, valOf_pack_eq_signedInt (by omega) hfit⟩
    rw [scaleOf_pack (by omega) hfit, if_neg hm]

end Sys2Proof.Machine
end

section
/-!
PROOFS. CMP (O43, O44).
-/
namespace Sys2Proof.Machine

/-! ### The operand checks of a command that reads `A` and `B` (60_exceptions.md R223) -/

section
variable {i : Instr} {op : PackedBits → PackedBits → Ending} {s : State}

theorem reportsInvalidA_of_withAB (hx : exec i s = withAB op s) (hA : isValid s.opA = false) :
    ReportsError i s .invalidA :=
  ⟨s.raise .invalidA, hx.trans (withAB_of_invalidA hA), endsInError_raise s .invalidA⟩

theorem reportsInvalidB_of_withAB (hx : exec i s = withAB op s) (hA : isValid s.opA = true)
    (hB : isValid s.opB = false) : ReportsError i s .invalidB :=
  ⟨s.raise .invalidB, hx.trans (withAB_of_invalidB hA hB), endsInError_raise s .invalidB⟩

end

/-! ### The order of the values (44_compare.md R210) -/

theorem valOf_neg {x : PackedBits} (hs : signOf x = true) (hm : mantOf x ≠ 0) : valOf x < 0 := by
  have hpos : (0 : ℚ) < mantOf x / 10 ^ scaleOf x := by positivity
  rw [valOf, if_pos hs, neg_one_mul, neg_div]
  exact neg_neg_of_pos hpos

theorem valOf_pos {x : PackedBits} (hs : signOf x = false) (hm : mantOf x ≠ 0) : 0 < valOf x := by
  rw [valOf, hs, if_neg Bool.false_ne_true, one_mul]
  positivity

/-- Magnitudes under one sign are ordered as they are, or the other way round when the sign is minus. -/
theorem compares_signedInt {o : Ordering} {x y : Nat} (h : o.Compares x y) (s : Bool) :
    (if s then o.swap else o).Compares (signedInt s x) (signedInt s y) := by
  cases s with
  | false => exact Nat.strictMono_cast.compares.2 h
  | true => exact Ordering.compares_swap.2 (Nat.strictMono_cast.neg.compares.2 h)

/-- Two values are ordered as their numerators at the common scale (44_compare.md R211). -/
theorem compares_valOf_iff {o : Ordering} (a b : PackedBits) : o.Compares (valOf a) (valOf b) ↔
    o.Compares (signedInt (signOf a) (alignedLeft a b)) (signedInt (signOf b) (alignedRight a b)) := by
  have hpow : (0 : ℚ) < 10 ^ commonScale a b := by positivity
  rw [valOf_eq_alignedLeft a b, valOf_eq_alignedRight a b, (strictMono_div_right_of_pos hpow).compares,
    Int.cast_strictMono.compares]

/-! ### The cases of the reference procedure (44_compare.md R211) -/

section
variable {a b : PackedBits}

theorem cmpValues_of_zeros (ha : mantOf a = 0) (hb : mantOf b = 0) : cmpValues a b = .eq := if_pos ⟨ha, hb⟩

theorem cmpValues_of_zero_left (ha : mantOf a = 0) (hb : mantOf b ≠ 0) :
    cmpValues a b = if signOf b then .gt else .lt := by simp [cmpValues, ha, hb]

theorem cmpValues_of_zero_right (ha : mantOf a ≠ 0) (hb : mantOf b = 0) :
    cmpValues a b = if signOf a then .lt else .gt := by simp [cmpValues, ha, hb]

theorem cmpValues_of_signs_ne (ha : mantOf a ≠ 0) (hb : mantOf b ≠ 0) (hs : signOf a ≠ signOf b) :
    cmpValues a b = if signOf a then .lt else .gt := by simp [cmpValues, ha, hb, hs]

theorem cmpValues_of_signs_eq (ha : mantOf a ≠ 0) (hb : mantOf b ≠ 0) (hs : signOf a = signOf b) :
    cmpValues a b = if signOf a then (compareMagnitude (alignedLeft a b) (alignedRight a b)).swap
      else compareMagnitude (alignedLeft a b) (alignedRight a b) := by simp [cmpValues, ha, hb, hs]

end

/-- The reference procedure gives the order of the values (44_compare.md R211). -/
theorem cmpValues_compares (a b : PackedBits) : (cmpValues a b).Compares (valOf a) (valOf b) := by
  by_cases ha : mantOf a = 0
  · by_cases hb : mantOf b = 0
    · rw [cmpValues_of_zeros ha hb]
      exact (valOf_eq_zero_iff.2 ha).trans (valOf_eq_zero_iff.2 hb).symm
    · rw [cmpValues_of_zero_left ha hb, valOf_eq_zero_iff.2 ha]
      cases hs : signOf b with
      | false => exact valOf_pos hs hb
      | true => exact valOf_neg hs hb
  · by_cases hb : mantOf b = 0
    · rw [cmpValues_of_zero_right ha hb, valOf_eq_zero_iff.2 hb]
      cases hs : signOf a with
      | false => exact valOf_pos hs ha
      | true => exact valOf_neg hs ha
    · by_cases hs : signOf a = signOf b
      · rw [cmpValues_of_signs_eq ha hb hs, compares_valOf_iff, ← hs]
        exact compares_signedInt ((compare_iff _ _).1 rfl) (signOf a)
      · rw [cmpValues_of_signs_ne ha hb hs]
        cases hsa : signOf a with
        | false => exact (valOf_neg (by simpa [hsa] using hs) hb).trans (valOf_pos hsa ha)
        | true => exact (valOf_neg hsa ha).trans (valOf_pos (by simpa [hsa] using hs) hb)

theorem cmpValues_swap (a b : PackedBits) : (cmpValues a b).swap = cmpValues b a :=
  (cmpValues_compares a b).swap.inj (cmpValues_compares b a)

theorem ofOrdering_cmpValues (a b : PackedBits) : CmpResult.ofOrdering (cmpValues a b) =
    if valOf a < valOf b then .less else if valOf a = valOf b then .equal else .greater := by
  have horder := cmpValues_compares a b
  cases hc : cmpValues a b with
  | lt => rw [if_pos (horder.eq_lt.1 hc), CmpResult.ofOrdering]
  | eq =>
    have heq := horder.eq_eq.1 hc
    rw [if_neg heq.not_lt, if_pos heq, CmpResult.ofOrdering]
  | gt =>
    have hgt := horder.eq_gt.1 hc
    rw [if_neg hgt.not_gt, if_neg hgt.ne', CmpResult.ofOrdering]

/-! ### CMP (44_compare.md R212, R213) -/

/-- CMP of valid operands reports the comparison and succeeds (44_compare.md R212). -/
theorem exec_cmp_of_valid {s : State} (hv : s.ValidAB) : exec .cmp s =
    .next (s.setCmp (CmpResult.ofOrdering (cmpValues s.opA s.opB))).succeedNoR :=
  (exec_cmp s).trans (withAB_of_valid hv.1 hv.2)

/-- Settles O43: the reference procedure gives the order of the values, and the ending of CMP writes `STATUS` alone. -/
theorem cmpOrdersByValue : Obligations.CmpOrdersByValue := by
  refine ⟨decodeWord_encode (i := .cmp) rfl, fun s => ⟨reportsInvalidA_of_withAB (exec_cmp s),
    reportsInvalidB_of_withAB (exec_cmp s), fun hv => ?_⟩⟩
  rw [← ofOrdering_cmpValues]
  exact ⟨_, exec_cmp_of_valid hv, rfl, rfl, rfl, rfl, rfl, rfl⟩

/-- Settles O44: the order of the operands swapped is the order swapped. -/
theorem cmpSwapsItsAnswer : Obligations.CmpSwapsItsAnswer := by
  intro s s' t t' hv hA hB ht ht'
  have hv' : s'.ValidAB := by rw [State.ValidAB, hA, hB]; exact hv.symm
  rw [exec_cmp_of_valid hv] at ht
  rw [exec_cmp_of_valid hv', hA, hB, ← cmpValues_swap] at ht'
  cases ht
  cases ht'
  cases cmpValues s.opA s.opB <;> simp [CmpResult.ofOrdering]

end Sys2Proof.Machine
end

section
/-!
PROOFS. Faults and errors: the cause of each fault of a step and of each error of a command (O24, O27 to O29).
-/
namespace Sys2Proof.Machine

/-! ### Faults of a host slot (60_exceptions.md R226) -/

theorem isDropped_iff {s : State} {w : WindowRow} : isDropped s w = true ↔ guardedRow w = true ∧ s.status.busy = true :=
  Bool.and_eq_true_iff

theorem busRead_ne_protocolViolation (addr width : Nat) (s : State) :
    busRead addr width s ≠ .fault .protocolViolation := by
  cases h : locate addr width with
  | none => simp [busRead, h]
  | some w => simp [busRead, h]

theorem busWrite_protocolViolation_iff {addr width : Nat} {v : Word} {s : State} :
    busWrite addr width v s = .fault .protocolViolation ↔
      ∃ w, locate addr width = some w ∧ isDropped s w = true := by
  cases h : locate addr width with
  | none => simp [busWrite, h]
  | some w => cases hd : isDropped s w <;> simp [busWrite, h, hd]

/-- A host slot faults exactly when its access does. -/
theorem hostSlot_fault_iff {s : State} {r : Fault} : hostSlot s = .fault r ↔
    (∃ addr width rest, s.program = .read addr width :: rest ∧ busRead addr width (s.setProgram rest) = .fault r) ∨
    (∃ addr width v rest, s.program = .write addr width v :: rest ∧
      busWrite addr width v (s.setProgram rest) = .fault r) := by
  constructor
  · intro h
    unfold hostSlot at h
    split at h
    next => cases h
    next hp => exact .inl ⟨_, _, _, hp, h⟩
    next hp => exact .inr ⟨_, _, _, _, hp, h⟩
    next => cases h
    next => cases h
    next => cases h
  · rintro (⟨addr, width, rest, hp, h⟩ | ⟨addr, width, v, rest, hp, h⟩)
    · exact (hostSlot_of_read hp).trans h
    · exact (hostSlot_of_write hp).trans h

theorem hostSlot_busError_iff {s : State} : hostSlot s = .fault .busError ↔ ∃ addr width rest,
    (s.program = .read addr width :: rest ∨ ∃ v, s.program = .write addr width v :: rest) ∧
    ¬ (width = 4 ∧ addr % 4 = 0 ∧ Config.base ≤ addr ∧ addr < Config.base + 64) := by
  simp only [hostSlot_fault_iff, busRead_busError_iff, busWrite_busError_iff, locate_isSome_iff]
  constructor
  · rintro (⟨addr, width, rest, hp, h⟩ | ⟨addr, width, v, rest, hp, h⟩)
    · exact ⟨addr, width, rest, .inl hp, h⟩
    · exact ⟨addr, width, rest, .inr ⟨v, hp⟩, h⟩
  · rintro ⟨addr, width, rest, hp | ⟨v, hp⟩, h⟩
    · exact .inl ⟨addr, width, rest, hp, h⟩
    · exact .inr ⟨addr, width, v, rest, hp, h⟩

theorem hostSlot_protocolViolation_iff {s : State} : hostSlot s = .fault .protocolViolation ↔
    s.status.busy = true ∧ ∃ w v rest, s.program = opWr w v :: rest ∧
      w ∈ [.aFlags, .aLo, .aMid, .aHi, .bFlags, .bLo, .bMid, .bHi, .cmd] := by
  simp only [hostSlot_fault_iff, busRead_ne_protocolViolation, busWrite_protocolViolation_iff, isDropped_setProgram,
    isDropped_iff, guardedRow_iff]
  constructor
  · rintro (⟨_, _, _, _, h⟩ | ⟨addr, width, v, rest, hp, w, hw, hguard, hbusy⟩)
    · exact h.elim
    · obtain ⟨rfl, rfl⟩ := eq_of_locate hw
      exact ⟨hbusy, w, v, rest, hp, hguard⟩
  · rintro ⟨hbusy, w, v, rest, hp, hguard⟩
    exact .inr ⟨_, _, v, rest, hp, w, locate_rowAddress w, hguard, hbusy⟩

/-! ### Faults of a step -/

/-- The turn that completes the command in flight answers a next state (60_exceptions.md R220, R225). -/
theorem runWord_next (w : Word) (s : State) : ∃ t, runWord w s = .next t := by
  rcases runWord_ends w s with ⟨i, -, hx⟩ | ⟨_, -, hx⟩
  · obtain ⟨t, ht, -⟩ := exec_completes i s
    exact ⟨t, hx.trans ht⟩
  · exact ⟨_, hx⟩

theorem step_next_of_not_hostMoves {s : State} (h : ¬ s.HostMoves) : ∃ t, step s = .next t := by
  obtain ⟨f, hf, hw⟩ : ∃ f, s.inFlight = some f ∧ f.wait = 0 := by simpa [State.HostMoves] using h
  rw [step_of_ready hf hw]
  exact runWord_next f.cmd s

/-- Only host turns fault. -/
theorem step_fault_iff {s : State} {r : Fault} :
    step s = .fault r ↔ s.HostMoves ∧ hostSlot s.slotPassed = .fault r := by
  by_cases h : s.HostMoves
  · rw [step_of_hostMoves h]
    exact (and_iff_right h).symm
  · obtain ⟨t, ht⟩ := step_next_of_not_hostMoves h
    simp [ht, h]

/-- Settles O24: only host turns fault, and a host slot faults exactly by an access that misses the window or is a
dropped write. -/
theorem stepFaultsOnlyOnHostAccesses : Obligations.StepFaultsOnlyOnHostAccesses := by
  intro s
  refine ⟨step_fault_iff.trans (and_congr_right fun _ => hostSlot_busError_iff),
    step_fault_iff.trans (and_congr_right fun _ => hostSlot_protocolViolation_iff), ?_⟩
  by_cases h : s.HostMoves
  · rw [step_of_hostMoves h]
    exact hostSlot_ends _
  · exact .inl (step_next_of_not_hostMoves h)

/-! ### The cause of each error (60_exceptions.md R221, R223) -/

/-- Why a command reports error `e`, each cause with the earlier ones of the priority order excluded. -/
inductive ErrorCause (i : Instr) (s : State) : ErrorCode → Prop where
  | invalidA (hreads : i.readsA = true) (hA : isValid s.opA = false) : ErrorCause i s .invalidA
  | invalidB (hreads : i.readsB = true) (hA : isValid s.opA = true) (hB : isValid s.opB = false) :
      ErrorCause i s .invalidB
  | divByZero (hi : i ∈ [.div, .rem]) (hv : s.ValidAB) (hb : mantOf s.opB = 0) : ErrorCause i s .divByZero
  | scaleOutOfRange (imm : Nat) (hi : i = .setscale imm) (himm : 28 < imm) (hA : isValid s.opA = true) :
      ErrorCause i s .scaleOutOfRange
  | overflow (hi : i ∈ [.add, .sub, .mul, .div]) (hv : s.ValidAB) (hb : i = .div → mantOf s.opB ≠ 0) :
      ErrorCause i s .overflow

/-- An ending that is a success or an overflow raises an error only for that cause. -/
theorem errorCause_of_overflow {i : Instr} {s : State} {x : Ending} {e : ErrorCode}
    (hi : i ∈ [.add, .sub, .mul, .div]) (hne : i ≠ .div) (hv : s.ValidAB)
    (hends : (∃ v, isValid v = true ∧ x = .succeed v) ∨ x = .raise .overflow) (hraise : x = .raise e) :
    ErrorCause i s e := by
  rcases hends with ⟨v, -, hx⟩ | hx
  · cases hx.symm.trans hraise
  · cases hx.symm.trans hraise
    exact .overflow hi hv fun h => absurd h hne

/-- The meaning of a two-operand command raises an error on valid operands only for its cause. -/
theorem twoOperandMeaning_of_readsB {i : Instr} (hB : i.readsB = true) :
    ∃ op, (∀ s, exec i s = withAB op s) ∧
      ∀ (s : State) (e : ErrorCode), s.ValidAB → op s.opA s.opB = .raise e → ErrorCause i s e := by
  cases i with
  | add =>
    exact ⟨_, exec_add, fun _ _ hv =>
      errorCause_of_overflow (by decide) (by decide) hv (addsub_ends hv.1 hv.2 false)⟩
  | sub =>
    exact ⟨_, exec_sub, fun _ _ hv =>
      errorCause_of_overflow (by decide) (by decide) hv (addsub_ends hv.1 hv.2 true)⟩
  | mul =>
    exact ⟨_, exec_mul, fun _ _ hv =>
      errorCause_of_overflow (by decide) (by decide) hv (mulValues_ends hv.1 hv.2)⟩
  | div =>
    refine ⟨_, exec_div, fun s e hv h => ?_⟩
    rcases divValues_ends (b := s.opB) hv.1 with ⟨v, -, hop⟩ | ⟨hb, hop⟩ | ⟨hb, hop⟩
    · cases hop.symm.trans h
    · cases hop.symm.trans h
      exact .divByZero (by simp) hv hb
    · cases hop.symm.trans h
      exact .overflow (by simp) hv fun _ => hb
  | rem =>
    refine ⟨_, exec_rem, fun s e hv h => ?_⟩
    rcases remValues_ends hv.1 hv.2 with ⟨v, -, hop⟩ | ⟨hb, hop⟩
    · cases hop.symm.trans h
    · cases hop.symm.trans h
      exact .divByZero (by simp) hv hb
  | cmp => exact ⟨_, exec_cmp, fun _ _ _ h => by cases h⟩
  | rescale | roundRne | roundRhaz | roundRhtz | roundRtz | roundRaz | roundRfloor | roundRceil | norm | trunc | fract
  | floor | ceil | neg | abs | setscale | movra | movrb => cases hB

theorem errorCause_of_exec {i : Instr} {s t : State} {e : ErrorCode} (h : exec i s = .next t)
    (he : t.status.ecode = e) (hne : e ≠ .none) : ErrorCause i s e := by
  cases exec_form i with
  | oneOperand _ hreadsA hreadsB _ =>
    obtain ⟨op, hop⟩ := oneOperandMeaning_of_reads hreadsA hreadsB
    rw [hop.meaning, withA_eq_finish] at h
    have hraise := ending_of_ecode h hne he
    cases hA : isValid s.opA with
    | false =>
      rw [hA] at hraise
      cases hraise
      exact .invalidA hreadsA hA
    | true =>
      rw [if_pos hA] at hraise
      rcases hop.ends s.opA hA with ⟨v, -, hv⟩ | ⟨⟨imm, hi, himm⟩, hv⟩
      · cases hv.symm.trans hraise
      · cases hv.symm.trans hraise
        exact .scaleOutOfRange imm hi himm hA
  | twoOperands _ hreadsA hreadsB _ =>
    obtain ⟨op, hx, hop⟩ := twoOperandMeaning_of_readsB hreadsB
    rw [hx, withAB_eq_finish] at h
    have hraise := ending_of_ecode h hne he
    cases hA : isValid s.opA with
    | false =>
      rw [hA] at hraise
      cases hraise
      exact .invalidA hreadsA hA
    | true =>
      rw [if_pos hA] at hraise
      cases hB : isValid s.opB with
      | false =>
        rw [hB] at hraise
        cases hraise
        exact .invalidB hreadsB hA hB
      | true =>
        rw [if_pos hB] at hraise
        exact hop s e ⟨hA, hB⟩ hraise
  | movesToA hi => subst hi; cases h; exact absurd he.symm hne
  | movesToB hi => subst hi; cases h; exact absurd he.symm hne

/-! ### What each cause reports (60_exceptions.md R223, R224) -/

theorem reportsInvalidA_of_readsA {i : Instr} {s : State} (hreads : i.readsA = true) (hA : isValid s.opA = false) :
    ReportsError i s .invalidA := by
  cases exec_form i with
  | oneOperand _ _ _ hx => exact reportsInvalidA_of_withA (hx s) hA
  | twoOperands _ _ _ hx => exact reportsInvalidA_of_withAB (hx s) hA
  | movesToA hi | movesToB hi => subst hi; cases hreads

theorem reportsInvalidB_of_readsB {i : Instr} {s : State} (hreads : i.readsB = true) (hA : isValid s.opA = true)
    (hB : isValid s.opB = false) : ReportsError i s .invalidB := by
  obtain ⟨_, hx, -⟩ := twoOperandMeaning_of_readsB hreads
  exact reportsInvalidB_of_withAB (hx s) hA hB

theorem reportsDivByZero_of_zero_divisor {i : Instr} {s : State} (hi : i = .div ∨ i = .rem) (hv : s.ValidAB)
    (hb : mantOf s.opB = 0) : ReportsError i s .divByZero := by
  rcases hi with rfl | rfl
  · exact reportsError_of_withAB (exec_div s) hv (divValues_of_zero_divisor hb)
  · exact reportsError_of_withAB (exec_rem s) hv (remValues_of_zero_divisor hb)

/-- Settles O27: each check reports its error when the earlier ones pass, and `OVERFLOW` has a cause that excludes them
all. -/
theorem errorsFollowThePriority : Obligations.ErrorsFollowThePriority := by
  refine ⟨fun w why s h => ⟨_, runWord_of_illegal h s, endsInError_raise s _⟩,
    fun i s => ⟨reportsInvalidA_of_readsA, reportsInvalidB_of_readsB, reportsDivByZero_of_zero_divisor, ?_,
      fun t ht hcode => ?_⟩⟩
  · rintro imm rfl hA himm
    exact reportsError_of_withA (exec_setscale imm s) hA (setscaleValue_of_gt himm s.opA)
  · cases errorCause_of_exec ht hcode (by decide) with
    | overflow hi hv hb =>
      refine ⟨hv, ?_⟩
      rintro (rfl | rfl)
      · exact hb rfl
      · exact absurd hi (by decide)

/-- Settles O28: of the effects of a command only an error sets `ERR`, and an error writes `STATUS` alone. -/
theorem errorsArePrecise : Obligations.ErrorsArePrecise := by
  intro i s t h herr
  cases commandEffect_of_exec h with
  | succeeds | compares | movesToA | movesToB => exact absurd herr Bool.false_ne_true
  | errs e he => exact ⟨he, endsInError_raise s e⟩

theorem status_word_ecode (st : Status) : (st.word.extractLsb' 4 4).toNat = st.ecode.code.toNat := by
  have hword := status_word_toNat st
  have hbusy := Bool.toNat_lt st.busy
  have hdone := Bool.toNat_lt st.done
  have herr := Bool.toNat_lt st.err
  have hpv := Bool.toNat_lt st.pv
  have hecode := st.ecode.code.isLt
  rw [BitVec.extractLsb'_toNat, Nat.shiftRight_eq_div_pow]
  omega

/-- Settles O29: each reported code has its one cause, and bits 7:4 of the word are the number of the code. -/
theorem errorCodesBelongToTheirCommands : Obligations.ErrorCodesBelongToTheirCommands := by
  refine ⟨fun i s t h => ?_, fun st => ?_⟩
  · have hcause {e : ErrorCode} (he : t.status.ecode = e) (hne : e ≠ .none) : ErrorCause i s e :=
      errorCause_of_exec h he hne
    refine ⟨fun he => ?_, fun he => ?_, fun he => ?_, fun he => ?_, fun he => ?_, fun he => ?_⟩
    · cases hcause he (by decide) with | overflow hi _ _ => exact hi
    · cases hcause he (by decide) with | divByZero hi _ hb => exact ⟨hi, hb⟩
    · cases hcause he (by decide) with | invalidA hreads hA => exact ⟨hreads, hA⟩
    · cases hcause he (by decide) with | invalidB hreads _ hB => exact ⟨hreads, hB⟩
    · cases hcause he (by decide)
    · cases hcause he (by decide) with | scaleOutOfRange imm hi himm _ => exact ⟨imm, hi, himm⟩
  · rw [status_word_ecode]
    cases st.ecode <;> rfl

end Sys2Proof.Machine
end

section
/-!
PROOFS. Reset, issue, completion and the writes dropped while busy (O6, O7, O9, O14 to O16, O22).
-/
namespace Sys2Proof.Machine

/-! ### Reset (70_reset_and_hazards.md R250, R251, R253) -/

@[simp] theorem wordOf_zero (j : Nat) : wordOf 0 j = 0 := BitVec.extractLsb'_zero

theorem readRow_reset (w : WindowRow) : readRow State.reset w = 0 := by
  cases w with
  | aFlags | aLo | aMid | aHi | bFlags | bLo | bMid | bHi | rFlags | rLo | rMid | rHi => exact wordOf_zero _
  | cmd | reserved28 | reserved2C => rfl
  | status => decide

/-- Settles O14: every row is a word of a zero register, a reserved row, or the `STATUS` word of cleared fields. -/
theorem resetLeavesEveryRegisterZero : Obligations.ResetLeavesEveryRegisterZero :=
  ⟨readRow_reset, rfl, { idle := rfl, clean := rfl, nothingInFlight := rfl }⟩

/-- Settles O22: the reset state has the registers that asserting reset leaves. -/
theorem resetMeetsTheInvariant : Obligations.ResetMeetsTheInvariant :=
  have hkept : CoreKept State.reset.applyReset State.reset := ⟨rfl, rfl, rfl, rfl, rfl, rfl⟩
  hkept.inv (inv_applyReset State.reset)

theorem hostSlot_of_reset {s : State} {rest : List HostOp} (hp : s.program = .reset :: rest) :
    hostSlot s = .next (s.setProgram rest).applyReset := by
  rw [hostSlot, hp]

/-- Settles O15: a host turn that asserts reset answers the reset registers, whatever is in flight. -/
theorem resetInputRestoresTheResetState : Obligations.ResetInputRestoresTheResetState := by
  intro s rest hmoves hp
  have hstep : step s = .next (s.slotPassed.setProgram rest).applyReset :=
    (step_of_hostMoves hmoves).trans (hostSlot_of_reset (s := s.slotPassed) hp)
  exact ⟨_, hstep, rfl, rfl, rfl, rfl, rfl, rfl, rfl, rfl⟩

/-! ### Issue and the turn that runs the word (70_reset_and_hazards.md R257, R258) -/

/-- Settles O7: the issue samples word and operands, sets `BUSY` and clears the last report. -/
theorem writeOfCmdIssuesTheCommand : Obligations.WriteOfCmdIssuesTheCommand := by
  intro s v rest hp hflight hidle
  exact ⟨_, Config.lat v s.a s.b s.r, step_of_issue hp hflight hidle, rfl, rfl, rfl, rfl, rfl, rfl, rfl, rfl⟩

theorem tableWord_toNat (w : Word) : tableWord 32 w.toNat = w := by
  rw [tableWord, Nat.mod_eq_of_lt w.isLt, BitVec.ofNat_toNat, BitVec.setWidth_eq]

/-- A placed word has no slot left to wait, so the next step runs it. -/
theorem step_withFetchWord (s : State) (w : Word) :
    step (s.withFetchWord 32 w.toNat) = runWord w (s.withFetchWord 32 w.toNat) := by
  rw [State.withFetchWord, tableWord_toNat]
  exact step_of_ready (f := ⟨w, s.a, s.b, 0⟩) (State.placeCommand_inFlight w s) rfl

/-- Settles O6: the step runs the word in flight, and running it is `exec` or `ILLEGAL_COMMAND` as it decodes. -/
theorem stepRunsTheDecodedCommand : Obligations.StepRunsTheDecodedCommand := by
  refine ⟨fun s f hf hw => ?_, step_withFetchWord, fun s i hwf => ?_⟩
  · rw [step_of_ready hf hw]
    exact ⟨rfl, fun i hd => runWord_of_legal hd s,
      fun why hd => ⟨_, runWord_of_illegal hd s, endsInError_raise s .illegalCommand⟩⟩
  · rw [step_withFetchWord, runWord_of_legal (decodeWord_encode hwf)]

/-! ### Waiting slots with a quiet host, and completion (70_reset_and_hazards.md R258, R259) -/

theorem runWord_completes (w : Word) (s : State) : ∃ t, runWord w s = .next t ∧ Completed t := by
  rcases runWord_ends w s with ⟨i, -, hrun⟩ | ⟨_, -, hrun⟩
  · rw [hrun]
    exact exec_completes i s
  · exact ⟨_, hrun, completed_raise (by decide) s⟩

theorem hostSlot_of_quiet {s : State} (hp : s.program = []) : hostSlot s = .next s := by
  rw [hostSlot, hp]

theorem tick_self {s : State} {f : InFlight} (hf : s.inFlight = some f) : s.tick f f.wait = s := by
  rw [State.tick, ← hf]

section
variable {s : State} (hp : s.program = []) (f : InFlight)
include hp

theorem step_of_quiet (n : Nat) : step (s.tick f (n + 1)) = .next (s.tick f n) :=
  (step_of_waiting (f := { f with wait := n + 1 }) rfl rfl).trans (hostSlot_of_quiet (s := s.tick f n) hp)

/-- With a quiet host the waiting slots only count down. -/
theorem run_quiet (n : Nat) : Host.Core.run core n (s.tick f n) = .next (s.tick f 0) := by
  induction n with
  | zero => exact run_zero _
  | succ n ih => rw [run_succ_of_next (step_of_quiet hp f n), ih]

end

/-- Settles O16: the slots count down to 0, and the turn after them runs the word, which always completes. -/
theorem commandCompletesWhenItsSlotsHavePassed : Obligations.CommandCompletesWhenItsSlotsHavePassed := by
  intro s f hf hp
  have hslots : Host.Core.run core f.wait s = .next (s.tick f 0) := by
    simpa only [tick_self hf] using run_quiet hp f f.wait
  have hrun : Host.Core.run core (f.wait + 1) s = runWord f.cmd (s.tick f 0) :=
    (run_add_of_next (m := 1) hslots).trans ((run_one _).trans (step_of_ready (f := { f with wait := 0 }) rfl rfl))
  obtain ⟨t, ht, hflight, hidle, hdone, -⟩ := runWord_completes f.cmd (s.tick f 0)
  exact ⟨hrun, t, hrun.trans ht, hflight, hidle, hdone⟩

/-! ### Writes while busy (70_reset_and_hazards.md R261, 20_memory.md R56, R57) -/

theorem step_of_dropped_write {s : State} {w : WindowRow} {v : Word} {rest : List HostOp} (hmoves : s.HostMoves)
    (hp : s.program = opWr w v :: rest) (hd : isDropped s w = true) : step s = .fault .protocolViolation :=
  (step_of_opWr hmoves hp).trans (busWrite_protocolViolation_iff.2 ⟨w, locate_rowAddress w, hd⟩)

/-- A write of a row that is not guarded has no effect, busy or not; the host's operation and one slot pass. -/
theorem step_of_unguarded_write {s : State} {w : WindowRow} {v : Word} {rest : List HostOp} (hmoves : s.HostMoves)
    (hp : s.program = opWr w v :: rest) (hw : guardedRow w = false) :
    step s = .next (s.slotPassed.setProgram rest) := by
  have hd := isDropped_of_not_guarded hw (s.slotPassed.setProgram rest)
  rw [step_of_opWr hmoves hp, busWrite_rowAddress hd, writeRow_of_not_dropped hd, acceptWrite_of_not_guarded hw]

/-- Settles O9: while busy a guarded row's write is dropped and faults, and any other row's has no effect. -/
theorem writesWhileBusyAreDroppedAndFault : Obligations.WritesWhileBusyAreDroppedAndFault := by
  intro s w v rest hmoves hp hbusy
  refine ⟨fun hw => ?_, fun hw => step_of_unguarded_write hmoves hp (not_guardedRow_iff.2 hw)⟩
  have hd := isDropped_of_guarded (guardedRow_iff.2 hw) hbusy
  rw [writeRow_of_dropped hd]
  exact ⟨step_of_dropped_write hmoves hp hd, rfl, rfl, rfl, rfl, rfl⟩

end Sys2Proof.Machine
end
